-- ==== Sys2Proof/Word.lean ====
section
/-! DEFINITION. The word types of HTB and the width conventions of spec/00_scope.md R10 and R11. -/

namespace Sys2Proof

/-- A word of the host register port: `W_HOST` = 32 bits (R10, R60). -/
abbrev Word := BitVec 32

/-- A stream byte, a symbol, a depth byte or a bit buffer: `W_SYM`, `W_DEPTH`, `W_BUF` = 8 bits (R10). -/
abbrev Byte := BitVec 8

/-- A byte address of the host register port: `W_ADDR` = 12 bits (R10, R60). -/
abbrev Addr := BitVec 12

/-- A node weight: `W_WEIGHT` = 40 bits, unsigned (R10, R134). -/
abbrev Weight := BitVec 40

end Sys2Proof
end

