-- ==== Sys2Proof/Config.lean ====
section
/-! DEFINITION. The implementation parameters of HTB at the values of spec/00_scope.md R10. The widths are the types of
Word.lean; `BIT_ORDER`, `INT_ORDER` and `PAD` are fixed at their R10 values by the operations that use them (notes/assumptions/13.md).
HTB leaves no value free (spec/93_implementation_defined.md, end of part 1), so there is no opaque constant here. -/

namespace Sys2Proof.Config

/-- `N_NODE`: the capacity of the node arena (R10, R30). -/
abbrev nNode : Nat := 511

/-- `D_MAX`: the largest legal operand of `REBUILD` (R10, R96). -/
abbrev dMax : Nat := 256

/-- How many levels a tree of HTB can have: depths run from 0 to 255 (R33 (f), R46: the traversal stack is "at most 256 deep"). -/
abbrev maxLevels : Nat := 256

/-- What `RES` holds after a value-returning command that did not end `OK` (R25). -/
abbrev failValue : Word := 0xFFFFFFFF#32

/-- The byte address of `CMD` (R22, R62). -/
abbrev cmdAddr : Addr := 0x800#12

end Sys2Proof.Config
end

