-- ==== Sys2Proof/Syntax.lean ====
section
/-! DEFINITION. The thirteen commands of HTB (spec/00_scope.md R3), one constructor per row of the opcode map of
spec/30_encoding.md R93, with the operand fields of R92. -/

namespace Sys2Proof

/-- A command of HTB. An operand is the raw immediate field of the command word (R91, R92): nothing is extended, scaled or shifted. -/
inductive Instr where
  /-- `WRITEBIT b`: append bit 0 of `imm8` to the bit stream (R112). -/
  | writebit (imm8 : Byte)
  /-- `READBIT`: the next bit of the input (R113). -/
  | readbit
  /-- `WRITEBYTE v`: append the byte `imm8`, past the bit buffer (R114). -/
  | writebyte (imm8 : Byte)
  /-- `READBYTE`: the next byte of the input, past the bit buffer (R115). -/
  | readbyte
  /-- `WRITEINT`: append `WDATA` as four bytes (R116). -/
  | writeint
  /-- `READINT`: the next four bytes of the input as one word (R117). -/
  | readint
  /-- `FLUSH`: emit the pending bits and sync the sink (R118). -/
  | flush
  /-- `BUILD`: the Huffman tree of the frequency table (R130). -/
  | build
  /-- `STORE`: emit the canonical header of the tree (R140). -/
  | store
  /-- `REBUILD D`: the tree of the first `imm9` header pairs (R141). -/
  | rebuild (imm9 : BitVec 9)
  /-- `ENCODE sym`: emit the codeword of the symbol `imm8` (R150). -/
  | encode (imm8 : Byte)
  /-- `DECODE`: read one codeword (R151). -/
  | decode
  /-- `SRESET`: soft reset (R160). -/
  | sreset
  deriving DecidableEq, Repr

end Sys2Proof
end

