-- ==== Sys2Proof/WellFormed.lean ====
section
/-! DEFINITION. Which commands have an encoding: every operand value of the field widths is legal (spec/30_encoding.md R92), but for
the range check of `REBUILD` (R96), "not expressible in match/mask". -/

namespace Sys2Proof

/-- The command is one that a command word can name: `REBUILD` takes 0 to 256 pairs, "257..511 is illegal" (R92, R96). -/
def WellFormed : Instr → Bool
  | .rebuild imm9 => decide (imm9.toNat ≤ Config.dMax)
  | .writebit _ => true
  | .readbit => true
  | .writebyte _ => true
  | .readbyte => true
  | .writeint => true
  | .readint => true
  | .flush => true
  | .build => true
  | .store => true
  | .encode _ => true
  | .decode => true
  | .sreset => true

end Sys2Proof
end

