-- ==== Sys2Proof/Decode.lean ====
section
/-! DEFINITION. Decoding a command word (spec/30_encoding.md R91 to R98), total on all words, and the encoder written from the same
opcode map. -/

namespace Sys2Proof

/-- Why a word is no command, in the order R96 and R174 test: each gives the status `ILLEGAL_CMD`. -/
inductive DecodeError where
  /-- The opcode is reserved (R94). -/
  | unknownOpcode
  /-- A bit of the format's zero field is set (R95). -/
  | zeroFieldSet
  /-- `REBUILD` with an operand above 256 (R96). -/
  | rebuildRange
  deriving DecidableEq, Repr

/-- The three formats of R91. -/
inductive Format where
  /-- No immediate: bits 23 to 0 are the zero field. -/
  | N
  /-- An 8-bit immediate in bits 7 to 0: bits 23 to 8 are the zero field. -/
  | S8
  /-- A 9-bit immediate in bits 8 to 0: bits 23 to 9 are the zero field. -/
  | D9
  deriving DecidableEq, Repr

/-- The mask of a format (R93): the opcode and the zero field. -/
def Format.mask : Format → Word
  | .N => 0xFFFFFFFF#32
  | .S8 => 0xFFFFFF00#32
  | .D9 => 0xFFFFFE00#32

/-- The opcode field, bits 31 to 24 of every command word (R91). -/
def opField (w : Word) : BitVec 8 := w.extractLsb' 24 8

/-- The immediate of format S8 (R91). -/
def imm8Field (w : Word) : Byte := w.extractLsb' 0 8

/-- The immediate of format D9 (R91). -/
def imm9Field (w : Word) : BitVec 9 := w.extractLsb' 0 9

/-- The row of the opcode map R93 with opcode `op`: its format and the command its words stand for. No other opcode is in the map (R94). -/
def rowOf (op : BitVec 8) : Option (Format × (Word → Instr)) :=
  match op.toNat with
  | 0x01 => some (.S8, fun w => .writebit (imm8Field w))
  | 0x02 => some (.N, fun _ => .readbit)
  | 0x03 => some (.S8, fun w => .writebyte (imm8Field w))
  | 0x04 => some (.N, fun _ => .readbyte)
  | 0x05 => some (.N, fun _ => .writeint)
  | 0x06 => some (.N, fun _ => .readint)
  | 0x07 => some (.N, fun _ => .flush)
  | 0x10 => some (.N, fun _ => .build)
  | 0x11 => some (.N, fun _ => .store)
  | 0x12 => some (.D9, fun w => .rebuild (imm9Field w))
  | 0x20 => some (.S8, fun w => .encode (imm8Field w))
  | 0x21 => some (.N, fun _ => .decode)
  | 0xFF => some (.N, fun _ => .sreset)
  | _ => none

/-- The `match` column of R93: the opcode in bits 31 to 24, all other bits 0. -/
def matchWord (op : BitVec 8) : Word := op ++ 0#24

/-- R96: the row of the opcode, then the zero field, then the range of `REBUILD`; it reads nothing but the word. -/
def decode (w : Word) : Except DecodeError Instr :=
  match rowOf (opField w) with
  | none => .error .unknownOpcode
  | some (fmt, command) =>
    if w &&& fmt.mask ≠ matchWord (opField w) then .error .zeroFieldSet
    else if WellFormed (command w) then .ok (command w)
    else .error .rebuildRange

/-- The opcode of a command (R93). -/
def opcode : Instr → BitVec 8
  | .writebit _ => 0x01#8
  | .readbit => 0x02#8
  | .writebyte _ => 0x03#8
  | .readbyte => 0x04#8
  | .writeint => 0x05#8
  | .readint => 0x06#8
  | .flush => 0x07#8
  | .build => 0x10#8
  | .store => 0x11#8
  | .rebuild _ => 0x12#8
  | .encode _ => 0x20#8
  | .decode => 0x21#8
  | .sreset => 0xFF#8

/-- The low 24 bits of a command's word: the immediate below its format's zero field (R91, R92). -/
def operandBits : Instr → BitVec 24
  | .writebit imm8 => 0#16 ++ imm8
  | .readbit => 0#24
  | .writebyte imm8 => 0#16 ++ imm8
  | .readbyte => 0#24
  | .writeint => 0#24
  | .readint => 0#24
  | .flush => 0#24
  | .build => 0#24
  | .store => 0#24
  | .rebuild imm9 => 0#15 ++ imm9
  | .encode imm8 => 0#16 ++ imm8
  | .decode => 0#24
  | .sreset => 0#24

/-- The command word of a well-formed command (R90 to R93). -/
def encode (i : Instr) : Word := opcode i ++ operandBits i

/-- What the decoder reads from an instruction given as the low `nbits` bits of `w`, the bits above them 0. A command is one 32-bit word
whose bits the spec numbers as the opcode table does (R11, R66): there is no byte order to lay out. -/
def decodeTableWord (nbits w : Nat) : Option Instr :=
  match decode (BitVec.ofNat 32 (w % 2 ^ nbits)) with
  | .ok i => some i
  | .error _ => none

end Sys2Proof
end

