-- ==== Sys2Proof/Machine/State.lean ====
section
/-! DEFINITION. The state of HTB as plain data (spec/10_state.md R20 to R47), the ways a step can stop, and the state after reset. -/

namespace Sys2Proof.Machine

/-- The status codes of spec/60_exceptions.md R170. Codes 8 to 15 are never produced, so the type has the eight values
(spec/93_implementation_defined.md U26; DEDUCED, safe: notes/assumptions/16.md). -/
inductive Status where
  /-- 0: the command did what its rule says. -/
  | ok
  /-- 1, a condition: `READBIT`, `READBYTE` or `READINT` found the end of data. -/
  | eod
  /-- 2, an error: `DECODE` met the end of data in mid-traversal. -/
  | eos
  /-- 3, an error: `ENCODE` of a symbol with no leaf. -/
  | invalidSymbol
  /-- 4, an error: `DECODE` on the empty tree. -/
  | noTree
  /-- 5, an error: `REBUILD` of a pair sequence that is not well-formed. -/
  | badHeader
  /-- 6, an error: a write to `CMD` of a word that does not decode. -/
  | illegalCmd
  /-- 7, an error: a bad host access; never in `LAST`. -/
  | badAccess
  deriving DecidableEq, Repr

/-- One entry of the node arena (R30): `W`, `SYM`, `C0`, `C1`, `PAR`. A node is named by its index in the arena,
a number. `none` is the source's "absent" and "unspecified" (R12). -/
structure Node where
  /-- `W[n]`: a number for every node `BUILD` makes, `none` for every node `REBUILD` makes. -/
  weight : Option Weight
  /-- `SYM[n]`: a leaf's symbol; for an internal node the key symbol of `BUILD`, or `none`. -/
  sym : Option Byte
  /-- `C0[n]`. -/
  c0 : Option Nat
  /-- `C1[n]`. -/
  c1 : Option Nat
  /-- `PAR[n]`, `none` for the root. -/
  par : Option Nat
  deriving DecidableEq, Repr

/-- The tree state (R30, R31): the arena, `ROOT`, `LEAF` and `NLEAF`. -/
structure CodeTree where
  /-- The entries in use, entry `n` at position `n`; its length is `NN`, and entries `NN..510` do not exist (R30; DEDUCED,
  safe: notes/assumptions/14.md). -/
  nodes : List Node
  /-- `ROOT` (R31). -/
  root : Option Nat
  /-- `LEAF[0..255]` (R31). -/
  leaf : Vector (Option Nat) 256
  /-- `NLEAF`, the nine stored bits of the register (R27). -/
  nleaf : BitVec 9
  deriving DecidableEq, Repr

/-- The stored bits of one `HDR` word (R37). -/
structure HdrPair where
  /-- `HSYM[i]`, bits 7 to 0. -/
  sym : Byte
  /-- `HDEP[i]`, bits 15 to 8. -/
  dep : Byte
  deriving DecidableEq, Repr

/-- The mapped locations of the host register space (spec/20_memory.md R62); it is no byte memory (notes/assumptions/17.md). -/
inductive Reg where
  /-- `FREQ[s]`, RW. -/
  | freq (s : Fin 256)
  /-- `HDR[i]`, RW. -/
  | hdr (i : Fin 256)
  /-- `CMD`, WO. -/
  | cmd
  /-- `WDATA`, RW. -/
  | wdata
  /-- `RES`, RO. -/
  | res
  /-- `STATUS`, RO. -/
  | status
  /-- `NLEAF`, RO. -/
  | nleaf
  /-- `WSTATE`, RO. -/
  | wstate
  /-- `RSTATE`, RO. -/
  | rstate
  deriving DecidableEq, Repr

/-- What the outside world does to HTB, one at a time (spec/00_scope.md R4, spec/20_memory.md R60, spec/70_reset_and_hazards.md R200). -/
inductive HostEvent where
  /-- `HostRead(addr)`. -/
  | read (addr : Addr)
  /-- `HostWrite(addr, data)`. -/
  | write (addr : Addr) (data : Word)
  /-- A hardware reset, between two accesses (DEDUCED: notes/assumptions/15.md); the environment fixes the `IN` of the run that follows (R40). -/
  | reset (input : List Byte)
  deriving DecidableEq, Repr

/-- The response of the host register port (R60). -/
inductive Bus where
  /-- `OKAY`. -/
  | okay
  /-- `ERROR`. -/
  | error
  deriving DecidableEq, Repr

/-- What the host receives for one access: the response, and the data word if the access is a read (R60). -/
structure Response where
  bus : Bus
  data : Option Word
  deriving DecidableEq, Repr

/-- The state of HTB. The fields down to `outSync` are the spec's (R47); `hostQ` and `resps` are the model's record of the host port. -/
structure State where
  /-- `FREQ[0..255]` (R36). -/
  freq : Vector Word 256
  /-- `HDR[0..255]` (R37). -/
  hdr : Vector HdrPair 256
  /-- `WDATA` (R24). -/
  wdata : Word
  /-- `RES` (R25). -/
  res : Word
  /-- `LAST` (R26, R45). -/
  last : Status
  /-- `ERR` (R26, R45). -/
  err : Bool
  /-- `FIRSTERR` (R26, R45); code 0 while `ERR` is 0. -/
  firstErr : Status
  /-- The arena, `ROOT`, `LEAF` and `NLEAF` (R30, R31). -/
  tree : CodeTree
  /-- `WBUF` (R38). -/
  wbuf : Byte
  /-- `WCNT`, 0 to 7 (R38). -/
  wcnt : Fin 8
  /-- `RBUF` (R39). -/
  rbuf : Byte
  /-- `RPOS`, 0 to 8 (R39). -/
  rpos : Fin 9
  /-- `IN` (R40). -/
  input : List Byte
  /-- `IN_POS` (R40). -/
  inPos : Nat
  /-- `OUT`, oldest byte first (R43). -/
  out : List Byte
  /-- `OUT_SYNC` (R44). -/
  outSync : Nat
  /-- The host's accesses that HTB has not served yet, next one first (R4; DESIGN CHOICE, safe: notes/assumptions/1.md). -/
  hostQ : List HostEvent
  /-- The responses the host has received, oldest first (R48; DESIGN CHOICE, safe: notes/assumptions/3.md). -/
  resps : List Response
  deriving DecidableEq, Repr

/-- Why a step stops with a fault. HTB itself never stops (spec/93_implementation_defined.md: nothing is `stuck`). -/
inductive Fault where
  /-- Raised by `STORE`, `ENCODE` and `DECODE` only, when the walk their rule describes leaves the tree: the tree state does not satisfy
  `TreeWF` (R33), which "holds in every state the host can observe". DEDUCED, safe: no run from reset reaches such a state, and the model
  stops there (notes/assumptions/8.md). -/
  | treeIllFormed
  deriving DecidableEq, Repr

/-- Why a step has no meaning. -/
inductive Refusal where
  /-- An instruction whose arm of `exec` has no meaning yet. Safe; no arm of this model answers it. -/
  | notModelled (mnemonic : String)
  deriving DecidableEq, Repr

/-- The empty tree (R35, R47): no node, no root, no leaf. -/
def CodeTree.empty : CodeTree where
  nodes := []
  root := none
  leaf := Vector.replicate 256 none
  nleaf := 0

/-- The state right after a hardware reset (R47, R200) of an HTB whose environment has fixed `input` as its `IN`. -/
def State.resetWith (input : List Byte) : State where
  freq := Vector.replicate 256 0
  hdr := Vector.replicate 256 ⟨0, 0⟩
  wdata := 0
  res := 0
  last := .ok
  err := false
  firstErr := .ok
  tree := CodeTree.empty
  wbuf := 0
  wcnt := 0
  rbuf := 0
  rpos := 8
  input := input
  inPos := 0
  out := []
  outSync := 0
  hostQ := []
  resps := []

/-- The machine right after reset. `IN` is the environment's choice (R40, R70): here it is empty (DESIGN CHOICE, unsafe for a claim about
this one run: notes/assumptions/4.md). -/
def State.reset : State := State.resetWith []

end Sys2Proof.Machine
end

