-- ==== Sys2Proof/Machine/Flags.lean ====
section
/-! DEFINITION. The status word, its flags and the error latch (spec/10_state.md R26, R45; spec/60_exceptions.md R170 to R172). -/

namespace Sys2Proof.Machine

/-- The number of a status code (R170). -/
def Status.code : Status → BitVec 4
  | .ok => 0
  | .eod => 1
  | .eos => 2
  | .invalidSymbol => 3
  | .noTree => 4
  | .badHeader => 5
  | .illegalCmd => 6
  | .badAccess => 7

/-- `IsLeaf(n)` (R32): both children are absent. It is defined for the nodes in use, so no other index is a leaf. -/
def CodeTree.isLeaf (t : CodeTree) (n : Nat) : Bool :=
  match t.nodes[n]? with
  | some nd => nd.c0.isNone && nd.c1.isNone
  | none => false

/-- `STATUS.HASROOT` (R26): a view of the tree. -/
def CodeTree.hasRoot (t : CodeTree) : Bool := t.root.isSome

/-- `STATUS.ROOTLEAF` (R26): a view of the tree. -/
def CodeTree.rootLeaf (t : CodeTree) : Bool :=
  match t.root with
  | some r => t.isLeaf r
  | none => false

/-- The word a read of `STATUS` returns (R26, R161). -/
def State.statusWord (s : State) : Word :=
  0#21 ++ BitVec.ofBool s.tree.rootLeaf ++ BitVec.ofBool s.tree.hasRoot ++ BitVec.ofBool s.err ++ s.firstErr.code ++ s.last.code

/-- The error latch (R172): the first error since reset is kept, later ones change nothing. -/
def State.latch (c : Status) (s : State) : State :=
  if s.err then s else { s with err := true, firstErr := c }

end Sys2Proof.Machine
end

