-- ==== Sys2Proof/Machine/Operands.lean ====
section
/-! DEFINITION. How commands take their operands and lay bits and bytes out (spec/30_encoding.md R92, spec/20_memory.md R67 and R68). -/

namespace Sys2Proof.Machine

/-- The operand of `WRITEBIT`: only `b[0]` is used, "`b[7:1]` are ignored" (R92). -/
def bitOperand (imm8 : Byte) : Bool := imm8.getLsbD 0

/-- The operand of `REBUILD`: the pairs `0..D-1` of `HDR` (R141). -/
def headerOperand (imm9 : BitVec 9) (s : State) : List HdrPair := s.hdr.toList.take imm9.toNat

/-- The index of a symbol's entry in the 256-entry tables. -/
def symIndex (y : Byte) : Fin 256 := y.toFin

/-- The four bytes of a word in stream order, least significant first (`INT_ORDER = LITTLE`, R68). -/
def wordBytes (n : Word) : List Byte :=
  [n.extractLsb' 0 8, n.extractLsb' 8 8, n.extractLsb' 16 8, n.extractLsb' 24 8]

/-- The word of four bytes taken in stream order: `{b3, b2, b1, b0}` (R68, R117). -/
def bytesWord (b0 b1 b2 b3 : Byte) : Word := b3 ++ b2 ++ b1 ++ b0

/-- The buffer `buf` with its slot `i` holding `b`; slot `i` is bit `i` of the byte (`BIT_ORDER = LSB_FIRST`, R67). The slot is set
or cleared (R110; DEDUCED, safe: notes/assumptions/13.md and 18.md). -/
def setSlot (buf : Byte) (i : Nat) (b : Bool) : Byte :=
  if b then buf ||| (1#8 <<< i) else buf &&& ~~~(1#8 <<< i)

/-- The bit in slot `i` of a buffer (R67). -/
def getSlot (buf : Byte) (i : Nat) : Bool := buf.getLsbD i

/-- A bit as a 32-bit result, `zext_32(v)` (R113). -/
def bitWord (b : Bool) : Word := (BitVec.ofBool b).setWidth 32

/-- A byte as a 32-bit result, `zext_32(v)` (R115, R151). -/
def byteWord (v : Byte) : Word := v.setWidth 32

end Sys2Proof.Machine
end

