-- ==== Sys2Proof/Machine/Ops.lean ====
section
/-! DEFINITION. The operations the commands share: ending a command (spec/60_exceptions.md), the streams and the bit buffers
(spec/10_state.md R38 to R44, spec/40_bitstream.md R110 and R111), the node arena (spec/10_state.md R30 to R35), soft reset. -/

namespace Sys2Proof.Machine

/-! ## The end of a command -/

/-- A command ends with `OK` or with the condition `EOD` (R171): `LAST` is written, the error latch is not. -/
def State.finish (c : Status) (s : State) : State := { s with last := c }

/-- `raise c` for an error of a command (R172): all of what HTB does where a processor takes a trap (R176). There is no handler and no
return (R177). -/
def State.raise (c : Status) (s : State) : State := { s.latch c with last := c }

/-- A value-returning command returns `v` in `RES` and ends `OK` (R25). -/
def State.answer (v : Word) (s : State) : State := { s with res := v, last := .ok }

/-! ## The byte streams -/

/-- The bytes of `IN` not yet consumed (R40). -/
def State.unread (s : State) : List Byte := s.input.drop s.inPos

/-- `SrcAtEnd()` (R41): `IN_POS = |IN|` (DEDUCED, safe: notes/assumptions/11.md). -/
def State.srcAtEnd (s : State) : Bool := s.unread.isEmpty

/-- `SrcNext()` (R42); `none` where its precondition `not SrcAtEnd()` fails. -/
def State.srcNext (s : State) : Option (Byte × State) :=
  match s.unread with
  | [] => none
  | v :: _ => some (v, { s with inPos := s.inPos + 1 })

/-- `SinkPut(v)` (R43). -/
def State.sinkPut (v : Byte) (s : State) : State := { s with out := s.out ++ [v] }

/-- `SinkPut` of several bytes, in order (R5). -/
def State.sinkPutAll (vs : List Byte) (s : State) : State := { s with out := s.out ++ vs }

/-- `SinkSync()` (R44). -/
def State.sinkSync (s : State) : State := { s with outSync := s.out.length }

/-! ## The bit buffers -/

/-- The writer's buffer empty: `WBUF <- 0; WCNT <- 0` (R110, R118). -/
def State.clearWriter (s : State) : State := { s with wbuf := 0, wcnt := 0 }

/-- `PutBit(b)` (R110). -/
def State.putBit (b : Bool) (s : State) : State :=
  if h : s.wcnt.val + 1 < 8 then { s with wbuf := setSlot s.wbuf s.wcnt.val b, wcnt := ⟨s.wcnt.val + 1, h⟩ }
  else (s.sinkPut (setSlot s.wbuf s.wcnt.val b)).clearWriter

/-- `PutBit` of several bits, in order. -/
def State.putBits (bs : List Bool) (s : State) : State := bs.foldl (fun s b => s.putBit b) s

/-- `GetBit()` (R111); `none` is the mark `EOD`, on which no state changes. -/
def State.getBit (s : State) : Option (Bool × State) :=
  if h : s.rpos.val < 8 then some (getSlot s.rbuf s.rpos.val, { s with rpos := ⟨s.rpos.val + 1, by omega⟩ })
  else
    match s.srcNext with
    | none => none
    | some (v, s1) => some (getSlot v 0, { s1 with rbuf := v, rpos := 1 })

/-! ## The node arena -/

/-- `Alloc()` (R34) and the field writes that the calling rule makes on the entry it returns: entry `NN` becomes `nd`. -/
def CodeTree.addNode (nd : Node) (t : CodeTree) : CodeTree := { t with nodes := t.nodes ++ [nd] }

/-- Field writes on entry `n`. -/
def CodeTree.updateNode (n : Nat) (f : Node → Node) (t : CodeTree) : CodeTree := { t with nodes := t.nodes.modify n f }

/-- `LEAF[y] <- n` (R31). -/
def CodeTree.setLeaf (y : Byte) (n : Nat) (t : CodeTree) : CodeTree := { t with leaf := t.leaf.set (symIndex y).val (some n) }

/-- `C0[n]`, `none` where there is no such node. -/
def CodeTree.c0 (t : CodeTree) (n : Nat) : Option Nat := t.nodes[n]?.bind (·.c0)

/-- `C1[n]`, `none` where there is no such node. -/
def CodeTree.c1 (t : CodeTree) (n : Nat) : Option Nat := t.nodes[n]?.bind (·.c1)

/-- `PAR[n]`, `none` where there is no such node. -/
def CodeTree.par (t : CodeTree) (n : Nat) : Option Nat := t.nodes[n]?.bind (·.par)

/-- `SYM[n]`, `none` where there is no such node. -/
def CodeTree.sym (t : CodeTree) (n : Nat) : Option Byte := t.nodes[n]?.bind (·.sym)

/-- `W[n]`, `none` where there is no such node. -/
def CodeTree.weight (t : CodeTree) (n : Nat) : Option Weight := t.nodes[n]?.bind (·.weight)

/-- `LEAF[y]` (R31). -/
def CodeTree.leafOf (t : CodeTree) (y : Byte) : Option Nat := t.leaf.get (symIndex y)

/-- `TreeClear()` (R35): any earlier tree is discarded. -/
def State.treeClear (s : State) : State := { s with tree := CodeTree.empty }

/-! ## Reset -/

/-- The engine state of soft reset (R160): every element but `IN`, `IN_POS`, `OUT` and `OUT_SYNC` at its reset value (R47, R201). -/
def State.softReset (s : State) : State :=
  { State.resetWith s.input with
    inPos := s.inPos, out := s.out, outSync := s.outSync, hostQ := s.hostQ, resps := s.resps }

/-- Hardware reset (R200), the environment fixing `input` as the `IN` of the next run; the record of the host port is no state of HTB and
stays (notes/assumptions/3.md). -/
def State.hardReset (input : List Byte) (s : State) : State :=
  { State.resetWith input with hostQ := s.hostQ, resps := s.resps }

/-! ## The host port -/

/-- The host receives a response (R60). -/
def State.respond (r : Response) (s : State) : State := { s with resps := s.resps ++ [r] }

end Sys2Proof.Machine
end

