-- ==== Sys2Proof/Machine/BitStream.lean ====
section
/-! DEFINITION. The bit-stream commands (spec/40_bitstream.md R112 to R118). -/

namespace Sys2Proof.Machine

/-- `WRITEBIT b` (R112): `PutBit(b[0]); LAST <- OK`. -/
def execWritebit (imm8 : Byte) (s : State) : Host.Outcome State Fault Refusal :=
  .next ((s.putBit (bitOperand imm8)).finish .ok)

/-- The failure of the three reads (R113, R115, R117): the condition `EOD` with `RES` at the failure value. -/
def State.endOfData (s : State) : State := { s with res := Config.failValue, last := .eod }

/-- `READBIT` (R113). -/
def execReadbit (s : State) : Host.Outcome State Fault Refusal :=
  match s.getBit with
  | none => .next s.endOfData
  | some (b, s1) => .next (s1.answer (bitWord b))

/-- `WRITEBYTE v` (R114): `SinkPut(v); LAST <- OK`, the bit buffer bypassed. -/
def execWritebyte (imm8 : Byte) (s : State) : Host.Outcome State Fault Refusal :=
  .next ((s.sinkPut imm8).finish .ok)

/-- `READBYTE` (R115), the bit buffer bypassed. -/
def execReadbyte (s : State) : Host.Outcome State Fault Refusal :=
  match s.srcNext with
  | none => .next s.endOfData
  | some (v, s1) => .next (s1.answer (byteWord v))

/-- `WRITEINT` (R116): the four bytes of `WDATA`, the bit buffer bypassed. -/
def execWriteint (s : State) : Host.Outcome State Fault Refusal :=
  .next ((s.sinkPutAll (wordBytes s.wdata)).finish .ok)

/-- `READINT` (R117): four bytes, or none at all when fewer are left. -/
def execReadint (s : State) : Host.Outcome State Fault Refusal :=
  match s.unread with
  | b0 :: b1 :: b2 :: b3 :: _ => .next ({ s with inPos := s.inPos + 4 }.answer (bytesWord b0 b1 b2 b3))
  | _ => .next s.endOfData

/-- `FLUSH` (R118): the pending bits, padded with the 0 slots of the buffer, then `SinkSync()` in every case. -/
def execFlush (s : State) : Host.Outcome State Fault Refusal :=
  if s.wcnt = 0 then .next (s.sinkSync.finish .ok)
  else .next ((s.sinkPut s.wbuf).clearWriter.sinkSync.finish .ok)

end Sys2Proof.Machine
end

