-- ==== Sys2Proof/Machine/SymbolCodec.lean ====
section
/-! DEFINITION. `ENCODE` and `DECODE` (spec/43_encdec.md R150 to R152). -/

namespace Sys2Proof.Machine

/-! ## ENCODE -/

/-- The path of R150 from node `n` up to the root: one bit per parent link, leaf-to-root, for at most `k` levels; `none` where the walk
leaves the tree (DEDUCED, safe: notes/assumptions/8.md and 9.md). -/
def CodeTree.pathUp (t : CodeTree) : Nat → Nat → Option (List Bool)
  | 0, _ => none
  | k + 1, n =>
    match t.nodes[n]? with
    | none => none
    | some nd =>
      match nd.par with
      | none => some []
      | some p => (t.pathUp k p).map fun path => (t.c0 p != some n) :: path

/-- The codeword of the leaf `n`: the path, root-first (R150). -/
def CodeTree.codeword (t : CodeTree) (n : Nat) : Option (List Bool) := (t.pathUp Config.maxLevels n).map List.reverse

/-- `ENCODE sym` (R150): the codeword through `PutBit`, or `INVALID_SYMBOL` before any bit. -/
def execEncode (imm8 : Byte) (s : State) : Host.Outcome State Fault Refusal :=
  match s.tree.leafOf imm8 with
  | none => .next (s.raise .invalidSymbol)
  | some n =>
    match s.tree.codeword n with
    | some bits => .next ((s.putBits bits).finish .ok)
    | none => .fault .treeIllFormed

/-! ## DECODE -/

/-- How the walk of `DECODE` ends. -/
inductive DecodeEnd where
  /-- At a leaf with this symbol. -/
  | symbol (y : Byte) (s : State)
  /-- The sentinel at an internal node. -/
  | eos (s : State)
  /-- The walk leaves the tree. -/
  | lost
  deriving DecidableEq, Repr

/-- The loop of R151 from node `n`, for at most `k` levels. -/
def State.decodeFrom : Nat → Nat → State → DecodeEnd
  | 0, _, _ => .lost
  | k + 1, n, s =>
    match s.tree.nodes[n]? with
    | none => .lost
    | some nd =>
      if nd.c0 = none ∧ nd.c1 = none then
        match nd.sym with
        | some y => .symbol y s
        | none => .lost
      else
        match s.getBit with
        | none => .eos s
        | some (b, s1) =>
          match (if b then nd.c1 else nd.c0) with
          | some c => s1.decodeFrom k c
          | none => .lost

/-- `DECODE` (R151): a symbol in `RES`, or `NO_TREE`, or `EOS` with the bits already taken gone. -/
def execDecode (s : State) : Host.Outcome State Fault Refusal :=
  match s.tree.root with
  | none => .next ({ s with res := Config.failValue }.raise .noTree)
  | some r =>
    match s.decodeFrom Config.maxLevels r with
    | .symbol y s1 => .next (s1.answer (byteWord y))
    | .eos s1 => .next ({ s1 with res := Config.failValue }.raise .eos)
    | .lost => .fault .treeIllFormed

end Sys2Proof.Machine
end

