-- ==== Sys2Proof/Machine/System.lean ====
section
/-! DEFINITION. `SRESET` (spec/44_system.md R160). -/

namespace Sys2Proof.Machine

/-- `SRESET` (R160): the engine state at its reset values, `LAST` = `OK` among them; nothing is emitted or synced. -/
def execSreset (s : State) : Host.Outcome State Fault Refusal := .next s.softReset

end Sys2Proof.Machine
end

