-- ==== Sys2Proof/Machine/TreeBuilder.lean ====
section
/-! DEFINITION. `BUILD`, the frequency-heap merge (spec/41_treebuilder.md R130 to R134). -/

namespace Sys2Proof.Machine

/-- A node in the heap of `BUILD` with its key `(W[n], SYM[n])` (R131; DEDUCED, safe: notes/assumptions/7.md). -/
structure HeapEntry where
  id : Nat
  weight : Weight
  sym : Byte
  deriving DecidableEq, Repr

/-- `Key(x) < Key(y)`: weight first, then symbol, both unsigned (R131). -/
def HeapEntry.before (x y : HeapEntry) : Bool :=
  decide (x.weight < y.weight) || (decide (x.weight = y.weight) && decide (x.sym < y.sym))

/-- The heap holds its entries by ascending key, so that `ExtractMin` takes the first one; R131 leaves the layout to the model
(DEDUCED, safe: notes/assumptions/6.md). -/
def heapInsert (e : HeapEntry) : List HeapEntry → List HeapEntry
  | [] => [e]
  | x :: xs => if e.before x then e :: x :: xs else x :: heapInsert e xs

/-- What `BUILD` works on: the tree so far and the heap (R46: the heap is local to the command; notes/assumptions/12.md). -/
structure Build where
  tree : CodeTree
  heap : List HeapEntry
  deriving DecidableEq, Repr

/-- One pass of the first loop of R130: a leaf for a symbol with a non-zero frequency. -/
def Build.addLeaf (freq : Vector Word 256) (b : Build) (s : Fin 256) : Build :=
  let f := freq.get s
  let y : Byte := BitVec.ofFin s
  if f = 0 then b
  else
    let n := b.tree.nodes.length
    { tree := (b.tree.addNode { weight := some (f.setWidth 40), sym := some y, c0 := none, c1 := none, par := none }).setLeaf y n
      heap := heapInsert { id := n, weight := f.setWidth 40, sym := y } b.heap }

/-- The first loop of R130: the symbols in ascending order, then `NLEAF <- |H|`. -/
def buildLeaves (freq : Vector Word 256) : Build :=
  let b := (List.finRange 256).foldl (Build.addLeaf freq) { tree := CodeTree.empty, heap := [] }
  { b with tree := { b.tree with nleaf := BitVec.ofNat 9 b.heap.length } }

/-- The merge of R130: a new internal node over the two extracted nodes, first extracted as `child0`. -/
def Build.merge (a b : HeapEntry) (rest : List HeapEntry) (t : CodeTree) : Build :=
  let m := t.nodes.length
  let t1 := t.addNode { weight := some (a.weight + b.weight), sym := some a.sym, c0 := some a.id, c1 := some b.id, par := none }
  { tree := (t1.updateNode a.id fun nd => { nd with par := some m }).updateNode b.id fun nd => { nd with par := some m }
    heap := heapInsert { id := m, weight := a.weight + b.weight, sym := a.sym } rest }

/-- The second loop of R130, `while |H| >= 2`: each pass leaves the heap one entry shorter, so `|H|` passes are enough
(DEDUCED: notes/assumptions/9.md). -/
def Build.mergeAll : Nat → Build → Build
  | 0, b => b
  | k + 1, b =>
    match b.heap with
    | x :: y :: rest => Build.mergeAll k (Build.merge x y rest b.tree)
    | _ => b

/-- The tree `BUILD` makes of a frequency table (R130). -/
def buildTree (freq : Vector Word 256) : CodeTree :=
  let b0 := buildLeaves freq
  let b := Build.mergeAll b0.heap.length b0
  match b.heap with
  | [e] => { b.tree with root := some e.id }
  | _ => b.tree

/-- `BUILD` (R130): always `OK`. -/
def execBuild (s : State) : Host.Outcome State Fault Refusal :=
  .next ({ s with tree := buildTree s.freq }.finish .ok)

end Sys2Proof.Machine
end

