-- ==== Sys2Proof/Machine/TreeCodec.lean ====
section
/-! DEFINITION. `STORE` and `REBUILD`, the canonical header (spec/42_treecodec.md R140 to R143). -/

namespace Sys2Proof.Machine

/-! ## STORE -/

/-- `Store(n, d)` (R140): the bytes of the subtree at `n`, whose depth is `d`, for at most `k` levels; `none` where the walk leaves the
tree (a node that does not exist or has one child, a leaf with no symbol, more levels than `TreeWF` allows; DEDUCED, safe:
notes/assumptions/8.md and 9.md). -/
def CodeTree.storeFrom (t : CodeTree) : Nat → Nat → Nat → Option (List Byte)
  | 0, _, _ => none
  | k + 1, n, d =>
    match t.nodes[n]? with
    | none => none
    | some nd =>
      match nd.c0, nd.c1 with
      | none, none => nd.sym.map fun y => [y, BitVec.ofNat 8 d]
      | some a, some b =>
        match t.storeFrom k a (d + 1), t.storeFrom k b (d + 1) with
        | some xs, some ys => some (xs ++ ys)
        | _, _ => none
      | _, _ => none

/-- The bytes `STORE` emits: none for the empty tree (R140). -/
def CodeTree.storeBytes (t : CodeTree) : Option (List Byte) :=
  match t.root with
  | none => some []
  | some r => t.storeFrom Config.maxLevels r 0

/-- `STORE` (R140): the header goes to `OUT`, the bit buffer bypassed. -/
def execStore (s : State) : Host.Outcome State Fault Refusal :=
  match s.tree.storeBytes with
  | some bytes => .next ((s.sinkPutAll bytes).finish .ok)
  | none => .fault .treeIllFormed

/-! ## REBUILD -/

/-- What `REBUILD` works on (R141): the tree so far, the cursor `cur` and its depth `cd`. -/
structure Rebuild where
  tree : CodeTree
  cur : Option Nat
  cd : Nat
  deriving DecidableEq, Repr

/-- The loop `while cd < d` of R141, with `d - cd` passes to go: internal nodes below `cur`, in slot 0 if it is free, else in slot 1.
`none` is check 3, the arena is full. -/
def CodeTree.descend : Nat → Nat → CodeTree → Option (Nat × CodeTree)
  | 0, cur, t => some (cur, t)
  | k + 1, cur, t =>
    if t.nodes.length = Config.nNode then none
    else
      let n := t.nodes.length
      let t1 := t.addNode { weight := none, sym := none, c0 := none, c1 := none, par := some cur }
      let t2 := t1.updateNode cur fun nd => if nd.c0 = none then { nd with c0 := some n } else { nd with c1 := some n }
      t2.descend k n

/-- The climb of R141 from the ancestor `a` at depth `ad`: the nearest one with a free slot 1, and its depth. No chain of parents is longer
than the arena, so `k` = `NN` passes are enough (DEDUCED: notes/assumptions/9.md). -/
def CodeTree.climb (t : CodeTree) : Nat → Option Nat → Nat → Option Nat × Nat
  | 0, _, ad => (none, ad)
  | _ + 1, none, ad => (none, ad)
  | k + 1, some a, ad => if t.c1 a = none then (some a, ad) else t.climb k (t.par a) (ad - 1)

/-- One pass of the loop over the pairs (R141); `none` is `Bad()`, by check 1, 2, 3 or 4. -/
def Rebuild.addPair (r : Rebuild) (p : HdrPair) : Option Rebuild :=
  let d := p.dep.toNat
  match r.cur with
  | none => none
  | some cur =>
    if r.tree.c0 cur ≠ none ∧ d ≤ r.cd then none
    else
      match r.tree.descend (d - r.cd) cur with
      | none => none
      | some (n, t) =>
        if t.leafOf p.sym ≠ none then none
        else
          let t1 := (t.updateNode n fun nd => { nd with sym := some p.sym }).setLeaf p.sym n
          let (a, ad) := t1.climb t1.nodes.length (t1.par n) (max r.cd d - 1)
          some { tree := t1, cur := a, cd := ad }

/-- The loop over the pairs (R141), in order. -/
def Rebuild.addPairs : Rebuild → List HdrPair → Option Rebuild
  | r, [] => some r
  | r, p :: ps =>
    match r.addPair p with
    | none => none
    | some r1 => r1.addPairs ps

/-- The start of R141: a fresh root as the cursor, at depth 0. -/
def Rebuild.start : Rebuild where
  tree := { CodeTree.empty.addNode { weight := none, sym := none, c0 := none, c1 := none, par := none } with root := some 0 }
  cur := some 0
  cd := 0

/-- The tree `REBUILD` makes of a pair sequence (R141, R143); `none` is `Bad()`, check 5 among them. -/
def rebuildTree : List HdrPair → Option CodeTree
  | [] => some CodeTree.empty
  | p :: ps =>
    match Rebuild.start.addPairs (p :: ps) with
    | none => none
    | some r => if r.cur ≠ none then none else some { r.tree with nleaf := BitVec.ofNat 9 (ps.length + 1) }

/-- `REBUILD D` (R141): the tree of the pairs, or `BAD_HEADER` and the empty tree. An operand above 256 is no command: it is the illegal
command that decode makes of its word (R96), with no other effect (DEDUCED, safe:
notes/assumptions/10.md). -/
def execRebuild (imm9 : BitVec 9) (s : State) : Host.Outcome State Fault Refusal :=
  if Config.dMax < imm9.toNat then .next (s.raise .illegalCmd)
  else
    match rebuildTree (headerOperand imm9 s) with
    | some t => .next ({ s with tree := t }.finish .ok)
    | none => .next (s.treeClear.raise .badHeader)

end Sys2Proof.Machine
end

