-- ==== Sys2Proof/Machine/Dispatch.lean ====
section
/-! DEFINITION. The dispatch of a command to its meaning (spec/44_system.md R163): one arm per command. -/

namespace Sys2Proof.Machine

def exec (i : Instr) (s : State) : Host.Outcome State Fault Refusal :=
  match i with
  -- the bit stream (40_bitstream.md)
  | .writebit imm8 => Sys2Proof.Machine.execWritebit imm8 s
  | .readbit => Sys2Proof.Machine.execReadbit s
  | .writebyte imm8 => Sys2Proof.Machine.execWritebyte imm8 s
  | .readbyte => Sys2Proof.Machine.execReadbyte s
  | .writeint => Sys2Proof.Machine.execWriteint s
  | .readint => Sys2Proof.Machine.execReadint s
  | .flush => Sys2Proof.Machine.execFlush s
  -- the tree (41_treebuilder.md, 42_treecodec.md)
  | .build => Sys2Proof.Machine.execBuild s
  | .store => Sys2Proof.Machine.execStore s
  | .rebuild imm9 => Sys2Proof.Machine.execRebuild imm9 s
  -- symbols (43_encdec.md)
  | .encode imm8 => Sys2Proof.Machine.execEncode imm8 s
  | .decode => Sys2Proof.Machine.execDecode s
  -- the system (44_system.md)
  | .sreset => Sys2Proof.Machine.execSreset s

end Sys2Proof.Machine
end

