-- ==== Sys2Proof/Machine/HostPort.lean ====
section
/-! DEFINITION. The host register port: the address map (spec/20_memory.md R62 to R64), host reads and writes, and the execution of a
command word (spec/44_system.md R161 to R163). -/

namespace Sys2Proof.Machine

/-- The register at a byte address (R62); `none` for a misaligned (R63) or unmapped address. -/
def regAt (addr : Addr) : Option Reg :=
  let a := addr.toNat
  if a % 4 ≠ 0 then none
  else if a < 0x400 then some (.freq (Fin.ofNat 256 (a / 4)))
  else if a < 0x800 then some (.hdr (Fin.ofNat 256 ((a - 0x400) / 4)))
  else if a = 0x800 then some .cmd
  else if a = 0x804 then some .wdata
  else if a = 0x808 then some .res
  else if a = 0x80C then some .status
  else if a = 0x810 then some .nleaf
  else if a = 0x814 then some .wstate
  else if a = 0x818 then some .rstate
  else none

/-- What a read of a register returns (R161); `none` for the write-only `CMD`. -/
def readReg (s : State) : Reg → Option Word
  | .freq y => some (s.freq.get y)
  | .hdr i => some (0#16 ++ (s.hdr.get i).dep ++ (s.hdr.get i).sym)
  | .cmd => none
  | .wdata => some s.wdata
  | .res => some s.res
  | .status => some s.statusWord
  | .nleaf => some (0#23 ++ s.tree.nleaf)
  | .wstate => some (0#20 ++ BitVec.ofNat 4 s.wcnt.val ++ s.wbuf)
  | .rstate => some (0#20 ++ BitVec.ofNat 4 s.rpos.val ++ s.rbuf)

/-- `HostRead(addr)` (R161): a bad read answers `ERROR` with data 0 and latches `BAD_ACCESS` (R64). -/
def State.hostRead (addr : Addr) (s : State) : State :=
  match (regAt addr).bind (readReg s) with
  | some v => s.respond { bus := .okay, data := some v }
  | none => (s.latch .badAccess).respond { bus := .error, data := some 0 }

/-- `Execute(w)` (R163): a word that does not decode raises `ILLEGAL_CMD` and changes nothing else (R96). -/
def State.execute (w : Word) (s : State) : Host.Outcome State Fault Refusal :=
  match decode w with
  | .ok i => exec i s
  | .error _ => .next (s.raise .illegalCmd)

/-- The response `OKAY` to a write, once the command is complete (R162, R163). -/
def respondOkay : Host.Outcome State Fault Refusal → Host.Outcome State Fault Refusal
  | .next s => .next (s.respond { bus := .okay, data := none })
  | .fault f => .fault f
  | .refused r => .refused r

/-- `HostWrite(addr, data)` (R162): a bad write answers `ERROR` and latches `BAD_ACCESS` (R64). -/
def State.hostWrite (addr : Addr) (data : Word) (s : State) : Host.Outcome State Fault Refusal :=
  match regAt addr with
  | some (.freq y) => respondOkay (.next { s with freq := s.freq.set y.val data })
  | some (.hdr i) => respondOkay (.next { s with hdr := s.hdr.set i.val { sym := data.extractLsb' 0 8, dep := data.extractLsb' 8 8 } })
  | some .cmd => respondOkay (s.execute data)
  | some .wdata => respondOkay (.next { s with wdata := data })
  | none | some .res | some .status | some .nleaf | some .wstate | some .rstate =>
    .next ((s.latch .badAccess).respond { bus := .error, data := none })

/-- One event at the outside of HTB (R4, R200). -/
def State.serve (e : HostEvent) (s : State) : Host.Outcome State Fault Refusal :=
  match e with
  | .read addr => .next (s.hostRead addr)
  | .write addr data => s.hostWrite addr data
  | .reset input => .next (s.hardReset input)

end Sys2Proof.Machine
end

