-- ==== Sys2Proof/Machine/Step.lean ====
section
/-! DEFINITION. One step of HTB: one host access served to completion (spec/00_scope.md R4, R5). -/

namespace Sys2Proof.Machine

/-- The engine serves the host's next access; with no access to serve, nothing happens (R21, R73; DESIGN CHOICE, safe:
notes/assumptions/2.md). -/
def step (s : State) : Host.Outcome State Fault Refusal :=
  match s.hostQ with
  | [] => .next s
  | e :: rest => ({ s with hostQ := rest }).serve e

/-- `s` with the host's next access being a write of the command word `w` to `CMD`: HTB "fetches no instructions", a command is the data of
one host write (R21, R90; DESIGN CHOICE, safe: notes/assumptions/5.md). -/
def State.withFetchWord (s : State) (nbits w : Nat) : State :=
  { s with hostQ := .write Config.cmdAddr (BitVec.ofNat 32 (w % 2 ^ nbits)) :: s.hostQ }

end Sys2Proof.Machine
end

