-- ==== Sys2Proof/Safety.lean ====
section
/-! DEFINITION. What claims about HTB are stated with: the tree invariant `TreeWF` and the invariant of a run (spec/10_state.md R33, R38 to R45),
the shape of a tree and the bits of the streams, free of node numbers and buffers. -/

namespace Sys2Proof.Machine

/-! ## The shape of a tree -/

/-- Child 0 or child 1 of a node. -/
def CodeTree.child (t : CodeTree) (n : Nat) (b : Bool) : Option Nat := if b then t.c1 n else t.c0 n

/-- The node reached from `n` by the child links numbered `p`. -/
def CodeTree.follow (t : CodeTree) : Nat → List Bool → Option Nat
  | n, [] => if n < t.nodes.length then some n else none
  | n, b :: p => (t.child n b).bind fun m => t.follow m p

/-- What stands at the end of the path `p` from the root: no node, an internal node (`some none`), or the leaf of a symbol. It does not
depend on how nodes are numbered (R30). -/
def CodeTree.lookup (t : CodeTree) (p : List Bool) : Option (Option Byte) :=
  (t.root.bind fun r => t.follow r p).map fun n => if t.isLeaf n then t.sym n else none

/-- `bits` is the codeword of the symbol `y`: the path from the root to its leaf (R150). -/
def CodeTree.IsCode (t : CodeTree) (y : Byte) (bits : List Bool) : Prop := t.lookup bits = some (some y)

/-- The same shape, `child0` and `child1` kept apart, and the same symbol at every leaf (R144). -/
def CodeTree.SameShape (t u : CodeTree) : Prop := ∀ p, t.lookup p = u.lookup p

/-- How many leaves the arena holds. -/
def CodeTree.leafCount (t : CodeTree) : Nat := (List.range t.nodes.length).countP t.isLeaf

/-- `TreeWF` (R33). -/
structure CodeTree.WF (t : CodeTree) : Prop where
  /-- (a) The empty tree, or a root from which every node is reachable by child links in exactly one way. -/
  rooted : (t.root = none ∧ t.nodes = [] ∧ ∀ y, t.leafOf y = none) ∨
    ∃ r, t.root = some r ∧ r < t.nodes.length ∧ t.par r = none ∧ ∀ n, n < t.nodes.length → ∃! p, t.follow r p = some n
  /-- (b) No child or two. -/
  twoChildren : ∀ n, t.c0 n = none ↔ t.c1 n = none
  /-- (c) A child is a node, and its parent link leads back. -/
  parents : ∀ n b m, t.child n b = some m → m < t.nodes.length ∧ t.par m = some n
  /-- (d) Every leaf has a symbol, whose `LEAF` entry names it. -/
  leafSym : ∀ n, t.isLeaf n = true → ∃ y, t.sym n = some y ∧ t.leafOf y = some n
  /-- (d) Every `LEAF` entry names a leaf with that symbol. -/
  leafIndex : ∀ y n, t.leafOf y = some n → t.isLeaf n = true ∧ t.sym n = some y
  /-- (e) `NLEAF` is the number of leaves. -/
  leaves : t.nleaf.toNat = t.leafCount
  /-- (e) `NN = 2*NLEAF - 1` for a tree with leaves. -/
  nodeCount : 1 ≤ t.nleaf.toNat → t.nodes.length = 2 * t.nleaf.toNat - 1
  /-- (f) No leaf is deeper than 255. -/
  depth : ∀ p y, t.IsCode y p → p.length ≤ 255

/-- A full binary tree: every internal node has two children. -/
inductive Shape where
  | leaf (y : Byte)
  | node (l r : Shape)
  deriving DecidableEq, Repr

/-- The leaves of a full binary tree with their depths in preorder, the root at depth `d`: the canonical header (R140, R142). -/
def Shape.header : Nat → Shape → List (Byte × Nat)
  | d, .leaf y => [(y, d)]
  | d, .node l r => l.header (d + 1) ++ r.header (d + 1)

/-- What stands at the end of a path in a full binary tree, as `CodeTree.lookup` says it. -/
def Shape.lookup : Shape → List Bool → Option (Option Byte)
  | .leaf y, [] => some (some y)
  | .leaf _, _ :: _ => none
  | .node _ _, [] => some none
  | .node l r, b :: p => if b then r.lookup p else l.lookup p

/-- The tree state holds the full binary tree `sh`, whatever its node numbers (R30). -/
def CodeTree.HasShape (t : CodeTree) (sh : Shape) : Prop := ∀ p, t.lookup p = sh.lookup p

/-- A pair sequence is well-formed (R142): its symbols are pairwise different, and its depths are the leaf depths in preorder of a full
binary tree. -/
def WellFormedHeader (ps : List HdrPair) : Prop :=
  (ps.map (·.sym)).Nodup ∧ ∃ sh : Shape, ps.map (fun p => (p.sym, p.dep.toNat)) = sh.header 0

/-! ## The bits of the streams -/

/-- The bits of a byte sequence in stream order, slot 0 of each byte first (R67). -/
def bitsOf (bytes : List Byte) : List Bool := bytes.flatMap fun v => (List.range 8).map v.getLsbD

/-- The bits written and not yet emitted (R38). -/
def State.pendingBits (s : State) : List Bool := (List.range s.wcnt.val).map s.wbuf.getLsbD

/-- The bits a bit reader has before it: the rest of `RBUF`, then the unread bytes (R39, R111). -/
def State.bitsLeft (s : State) : List Bool := ((List.range 8).drop s.rpos.val).map s.rbuf.getLsbD ++ bitsOf s.unread

/-- `GetBit` answers the bits `bs` one after another, leaving the state `t` (R111). -/
def State.Receives : List Bool → State → State → Prop
  | [], s, t => t = s
  | b :: bs, s, t => ∃ s1, s.getBit = some (b, s1) ∧ State.Receives bs s1 t

/-! ## The invariant of a run -/

/-- An error-class status (R170): any but `OK` and the condition `EOD`. -/
def Status.isError : Status → Bool
  | .ok => false
  | .eod => false
  | .eos => true
  | .invalidSymbol => true
  | .noTree => true
  | .badHeader => true
  | .illegalCmd => true
  | .badAccess => true

/-- The buffers and the stream positions are as R38, R40 and R44 say. -/
structure State.StreamsOk (s : State) : Prop where
  /-- The slots of `WBUF` from `WCNT` on are 0 (R38). -/
  slots : ∀ i, s.wcnt.val ≤ i → i < 8 → s.wbuf.getLsbD i = false
  /-- `IN_POS <= |IN|` (R40). -/
  inPos : s.inPos ≤ s.input.length
  /-- `OUT_SYNC <= |OUT|` (R44). -/
  outSync : s.outSync ≤ s.out.length

/-- The status latch is as R26, R170 and R172 say. -/
structure State.StatusOk (s : State) : Prop where
  /-- `BAD_ACCESS` "never appears in `LAST`" (R170). -/
  last : s.last ≠ .badAccess
  /-- "0 while `ERR` = 0" (R26). -/
  clear : s.err = false → s.firstErr = .ok
  /-- What is latched is an error (R172). -/
  latched : s.err = true → s.firstErr.isError = true
  /-- "`ERR = 0` ... means no error-class status occurred" (R172). -/
  recorded : s.err = false → s.last.isError = false

/-- The invariant of HTB: it holds "in every state the host can observe" (R33). -/
structure State.Inv (s : State) : Prop where
  tree : s.tree.WF
  streams : s.StreamsOk
  status : s.StatusOk

/-! ## Runs -/

/-- Commands executed one after another (R4, R163). -/
def runCommands : List Instr → State → Host.Outcome State Fault Refusal
  | [], s => .next s
  | i :: is, s =>
    match exec i s with
    | .next s1 => runCommands is s1
    | .fault f => .fault f
    | .refused r => .refused r

/-- One `DECODE` after another ends `OK` and answers the symbols `ys` in `RES` (R151, R153). -/
def State.Decodes : List Byte → State → Prop
  | [], _ => True
  | y :: ys, s => ∃ t, exec .decode s = .next t ∧ t.last = .ok ∧ t.res = y.setWidth 32 ∧ State.Decodes ys t

/-- The state at a step of a safe run: no error has been recorded, the premise a claim about a run takes (R48, R172). -/
def State.Clean (s : State) : Prop := s.Inv ∧ s.err = false

end Sys2Proof.Machine
end

