-- ==== Sys2Proof/Certificates/Slice0/Obligations.lean ====
section
/-! DEFINITION. The statements about HTB: what its numbered rules say each command, each host access and the machine as a whole do.
The value of `RES` after a failed read is written out (`0xFFFFFFFF#32`, R25), and so are addresses and command words. -/

namespace Sys2Proof.Claims

open Sys2Proof.Machine

/-- The opcode map of R93 and the procedure of R96, read by mask and match. -/
def commandOf (w : Word) : Option Instr :=
  if w &&& 0xFFFFFF00#32 = 0x01000000#32 then some (.writebit (w.setWidth 8))
  else if w &&& 0xFFFFFFFF#32 = 0x02000000#32 then some .readbit
  else if w &&& 0xFFFFFF00#32 = 0x03000000#32 then some (.writebyte (w.setWidth 8))
  else if w &&& 0xFFFFFFFF#32 = 0x04000000#32 then some .readbyte
  else if w &&& 0xFFFFFFFF#32 = 0x05000000#32 then some .writeint
  else if w &&& 0xFFFFFFFF#32 = 0x06000000#32 then some .readint
  else if w &&& 0xFFFFFFFF#32 = 0x07000000#32 then some .flush
  else if w &&& 0xFFFFFFFF#32 = 0x10000000#32 then some .build
  else if w &&& 0xFFFFFFFF#32 = 0x11000000#32 then some .store
  else if w &&& 0xFFFFFE00#32 = 0x12000000#32 then
    if (w.setWidth 9).toNat ≤ 256 then some (.rebuild (w.setWidth 9)) else none
  else if w &&& 0xFFFFFF00#32 = 0x20000000#32 then some (.encode (w.setWidth 8))
  else if w &&& 0xFFFFFFFF#32 = 0x21000000#32 then some .decode
  else if w &&& 0xFFFFFFFF#32 = 0xFF000000#32 then some .sreset
  else none

/-- The state `s` with the host's next access being `e`. -/
def before (e : HostEvent) (s : State) : State := { s with hostQ := e :: s.hostQ }

/-- The state `s` after the error `c` of a command, nothing else changed: the effect of `raise` (R172). -/
def failed (c : Status) (s : State) : State :=
  { s with last := c, err := true, firstErr := if s.err then s.firstErr else c }

/-- The state `s` after a bad access, which answers the data `d`: only the latch changes (R64). -/
def refusedAccess (d : Option Word) (s : State) : State :=
  { s with err := true, firstErr := if s.err then s.firstErr else .badAccess, resps := s.resps ++ [{ bus := .error, data := d }] }

/-- The state `s` after a good access, which answers the data `d`. -/
def served (d : Option Word) (s : State) : State := { s with resps := s.resps ++ [{ bus := .okay, data := d }] }

/-- A host read is bad (R64): misaligned, unmapped, or of the write-only `CMD`. -/
def BadRead (addr : Addr) : Prop := addr.toNat % 4 ≠ 0 ∨ 0x81C ≤ addr.toNat ∨ addr = 0x800#12

/-- A host write is bad (R64): misaligned, unmapped, or to a read-only register. -/
def BadWrite (addr : Addr) : Prop :=
  addr.toNat % 4 ≠ 0 ∨ 0x81C ≤ addr.toNat ∨ addr = 0x808#12 ∨ addr = 0x80C#12 ∨ addr = 0x810#12 ∨ addr = 0x814#12 ∨ addr = 0x818#12

/-- How many symbols have a non-zero frequency: `K` (R130). -/
def usedSymbols (freq : Vector Word 256) : Nat := (List.finRange 256).countP fun y => freq.get y != 0

/-- The sum of the frequency table. -/
def totalFrequency (freq : Vector Word 256) : Nat := ((List.finRange 256).map fun y => (freq.get y).toNat).sum

/-- The bytes of header pairs as they travel: symbol byte first, depth byte second (R140). -/
def pairBytes (ps : List HdrPair) : List Byte := ps.flatMap fun p => [p.sym, p.dep]

/-- Preorder of two paths that end at leaves: the first bit in which they differ decides, child 0 first. -/
def PathBefore : List Bool → List Bool → Prop
  | b :: p, c :: q => (b = false ∧ c = true) ∨ (b = c ∧ PathBefore p q)
  | _, _ => False

/-- The symbol in the key of node `n`: that of the leaf below it along `child0` links (R131, R133 (c)). -/
def KeySymbol (t : CodeTree) (n : Nat) (y : Byte) : Prop :=
  ∃ j l, t.follow n (List.replicate j false) = some l ∧ t.isLeaf l = true ∧ t.sym l = some y

/-- `Key(m) < Key(n)`: the weight first, then the symbol, both unsigned (R131). -/
def KeyBelow (t : CodeTree) (m n : Nat) : Prop :=
  ∃ v w y z, t.weight m = some v ∧ t.weight n = some w ∧ KeySymbol t m y ∧ KeySymbol t n z ∧
    (v.toNat < w.toNat ∨ (v = w ∧ y.toNat < z.toNat))

/-- Node `n` waits for a merge when `BUILD` makes node `m`: it is made before `m`, and no node made before `m` is its parent. -/
def Waits (t : CodeTree) (m n : Nat) : Prop := n < m ∧ ∀ p, t.par n = some p → m ≤ p

/-- Which statuses a command can end with: the column "raised by" of R170. -/
def MayEndWith (c : Status) : Instr → Prop
  | .readbit => c = .ok ∨ c = .eod
  | .readbyte => c = .ok ∨ c = .eod
  | .readint => c = .ok ∨ c = .eod
  | .rebuild imm9 => if imm9.toNat ≤ 256 then c = .ok ∨ c = .badHeader else c = .illegalCmd
  | .encode _ => c = .ok ∨ c = .invalidSymbol
  | .decode => c = .ok ∨ c = .eos ∨ c = .noTree
  | .writebit _ => c = .ok
  | .writebyte _ => c = .ok
  | .writeint => c = .ok
  | .flush => c = .ok
  | .build => c = .ok
  | .store => c = .ok
  | .sreset => c = .ok

end Sys2Proof.Claims

open Sys2Proof Sys2Proof.Machine Sys2Proof.Claims

/-! ## Encoding -/

/-- Decoding the word of any well-formed command, with every operand its fields admit, gives the command back (R91 to R93, R96). -/
def Obligations.DecodeOfEncodeIsTheCommand : Prop := ∀ i : Instr, WellFormed i = true → decode (encode i) = .ok i

/-- Each word has one meaning: a word that decodes is the word of the command it decodes to, which is well-formed. No bit of it is ignored
but those an operand field holds (R95, R96). -/
def Obligations.DecodedWordIsTheEncodedCommand : Prop :=
  ∀ (w : Word) (i : Instr), decode w = .ok i → WellFormed i = true ∧ encode i = w

/-- R93 and R96: the decoder answers what the opcode map says by mask and match with the range check of `REBUILD`, and a write to `CMD` of
any other word raises `ILLEGAL_CMD` with no other state change. -/
def Obligations.DecodeFollowsTheOpcodeMap : Prop :=
  (∀ (w : Word) (i : Instr), decode w = .ok i ↔ commandOf w = some i) ∧
  ∀ (w : Word) (s : State), commandOf w = none → step (before (.write 0x800#12 w) s) = .next (served none (failed .illegalCmd s))

/-- R94: a word whose opcode is not in the map is illegal, the all-zero word among them: the write to `CMD` ends with `ILLEGAL_CMD` and
changes nothing else. -/
def Obligations.ReservedOpcodesAreIllegal : Prop :=
  ∀ (w : Word) (s : State) (op : Nat), op = (w.extractLsb' 24 8).toNat →
    (op = 0x00 ∨ (0x08 ≤ op ∧ op ≤ 0x0F) ∨ (0x13 ≤ op ∧ op ≤ 0x1F) ∨ (0x22 ≤ op ∧ op ≤ 0xFE)) →
    step (before (.write 0x800#12 w) s) = .next (served none (failed .illegalCmd s))

/-- R95: a word with a bit of its format's zero field set is illegal in the same way; `imm8` is no zero field: `WRITEBIT` with 0xFE is legal and
writes the bit 0. -/
def Obligations.SetZeroFieldsAreIllegal : Prop :=
  (∀ (w : Word) (s : State) (op : Nat), op = (w.extractLsb' 24 8).toNat →
    (op ∈ [0x02, 0x04, 0x05, 0x06, 0x07, 0x10, 0x11, 0x21, 0xFF] ∧ w.extractLsb' 0 24 ≠ 0#24 ∨
     op ∈ [0x01, 0x03, 0x20] ∧ w.extractLsb' 8 16 ≠ 0#16 ∨
     op = 0x12 ∧ w.extractLsb' 9 15 ≠ 0#15) →
    step (before (.write 0x800#12 w) s) = .next (served none (failed .illegalCmd s))) ∧
  ∀ s : State, step (before (.write 0x800#12 0x010000FE#32) s) = .next (served none { s.putBit false with last := .ok })

/-- Words written out from the encodings of R91 to R93 decode to their commands. -/
def Obligations.WrittenOutWordsDecode : Prop :=
  decode 0b00000001_00000000_00000000_10110010#32 = .ok (.writebit 0xB2#8) ∧
  decode 0b00000010_00000000_00000000_00000000#32 = .ok .readbit ∧
  decode 0b00000101_00000000_00000000_00000000#32 = .ok .writeint ∧
  decode 0b00010000_00000000_00000000_00000000#32 = .ok .build ∧
  decode 0b00010010_00000000_00000001_00000000#32 = .ok (.rebuild 0b100000000#9) ∧
  decode 0b00010010_00000000_00000001_00000001#32 = .error .rebuildRange ∧
  decode 0b00100000_00000000_00000000_01000001#32 = .ok (.encode 0x41#8) ∧
  decode 0b00100001_00000000_00000000_00000000#32 = .ok .decode ∧
  decode 0b11111111_00000000_00000000_00000000#32 = .ok .sreset

/-! ## The step and the host port -/

/-- A step whose host access is a write to `CMD` of a word that decodes runs that command to its end, once, from the state without the access,
and only then gives the response `OKAY` (R4, R162, R163). -/
def Obligations.StepRunsTheDecodedCommand : Prop :=
  ∀ (s : State) (w : Word) (i : Instr), decode w = .ok i →
    step (before (.write 0x800#12 w) s) =
      match exec i s with
      | .next t => .next (served none t)
      | .fault f => .fault f
      | .refused r => .refused r

/-- R64: a bad access answers `ERROR` (data 0 for a read), latches `BAD_ACCESS` if no error is latched, and changes nothing else, `LAST`
included; every other access is answered `OKAY`. -/
def Obligations.BadAccessesOnlyLatch : Prop :=
  ∀ (s : State) (addr : Addr),
    (BadRead addr → step (before (.read addr) s) = .next (refusedAccess (some 0) s)) ∧
    (¬ BadRead addr → ∃ v, step (before (.read addr) s) = .next (served (some v) s)) ∧
    ∀ data, (BadWrite addr → step (before (.write addr data) s) = .next (refusedAccess none s)) ∧
      (¬ BadWrite addr → s.tree.WF → ∃ t, t.resps = s.resps ∧ step (before (.write addr data) s) = .next (served none t))

/-- R161: a bad read answers `ERROR` with data 0 and latches `BAD_ACCESS`; a good one answers the word of its register, field by field, and changes
no state. -/
def Obligations.HostReadsAnswerTheRegisters : Prop :=
  ∀ s : State,
    (∀ addr, BadRead addr → step (before (.read addr) s) = .next (refusedAccess (some 0) s)) ∧
    (∀ (y : Fin 256) (addr : Addr), addr.toNat = 4 * y.val → step (before (.read addr) s) = .next (served (some (s.freq.get y)) s)) ∧
    (∀ (i : Fin 256) (addr : Addr), addr.toNat = 0x400 + 4 * i.val → ∃ v : Word, step (before (.read addr) s) = .next (served (some v) s) ∧
      v.extractLsb' 0 8 = (s.hdr.get i).sym ∧ v.extractLsb' 8 8 = (s.hdr.get i).dep ∧ v.extractLsb' 16 16 = 0#16) ∧
    step (before (.read 0x804#12) s) = .next (served (some s.wdata) s) ∧
    step (before (.read 0x808#12) s) = .next (served (some s.res) s) ∧
    (∃ v : Word, step (before (.read 0x80C#12) s) = .next (served (some v) s) ∧
      v.extractLsb' 0 4 = s.last.code ∧ v.extractLsb' 4 4 = s.firstErr.code ∧ v.getLsbD 8 = s.err ∧
      (v.getLsbD 9 = true ↔ s.tree.root ≠ none) ∧ (v.getLsbD 10 = true ↔ ∃ r, s.tree.root = some r ∧ s.tree.isLeaf r = true) ∧
      v.extractLsb' 11 21 = 0#21) ∧
    (∃ v : Word, step (before (.read 0x810#12) s) = .next (served (some v) s) ∧
      v.extractLsb' 0 9 = s.tree.nleaf ∧ v.extractLsb' 9 23 = 0#23) ∧
    (∃ v : Word, step (before (.read 0x814#12) s) = .next (served (some v) s) ∧
      v.extractLsb' 0 8 = s.wbuf ∧ (v.extractLsb' 8 4).toNat = s.wcnt.val ∧ v.extractLsb' 12 20 = 0#20) ∧
    ∃ v : Word, step (before (.read 0x818#12) s) = .next (served (some v) s) ∧
      v.extractLsb' 0 8 = s.rbuf ∧ (v.extractLsb' 8 4).toNat = s.rpos.val ∧ v.extractLsb' 12 20 = 0#20

/-- R162: a bad write answers `ERROR` and latches `BAD_ACCESS`. A write of a table or `WDATA` stores the entry (bits 31 to 16 of a header word are
ignored); every other entry and all other state keeps its value, `LAST`, the tree and `NLEAF` included. A write to `CMD` executes the word and
answers `OKAY` whatever the status is. -/
def Obligations.HostWritesStoreOneWord : Prop :=
  ∀ (s : State) (data : Word),
    (∀ (y : Fin 256) (addr : Addr), addr.toNat = 4 * y.val → ∃ f : Vector Word 256,
      step (before (.write addr data) s) = .next (served none { s with freq := f }) ∧
      f.get y = data ∧ ∀ z, z ≠ y → f.get z = s.freq.get z) ∧
    (∀ (i : Fin 256) (addr : Addr), addr.toNat = 0x400 + 4 * i.val → ∃ h : Vector HdrPair 256,
      step (before (.write addr data) s) = .next (served none { s with hdr := h }) ∧
      h.get i = { sym := data.extractLsb' 0 8, dep := data.extractLsb' 8 8 } ∧ ∀ j, j ≠ i → h.get j = s.hdr.get j) ∧
    step (before (.write 0x804#12 data) s) = .next (served none { s with wdata := data }) ∧
    (∀ addr, BadWrite addr → step (before (.write addr data) s) = .next (refusedAccess none s)) ∧
    (∀ i t, decode data = .ok i → exec i s = .next t → step (before (.write 0x800#12 data) s) = .next (served none t)) ∧
    ∀ e, decode data = .error e → step (before (.write 0x800#12 data) s) = .next (served none (failed .illegalCmd s))

/-- R73 (a): a host read after a host write to the same read-write register returns the written word; of a header word the bits 31 to 16
read as 0 (R37). -/
def Obligations.ReadAfterWriteReturnsTheWord : Prop :=
  ∀ (s t u : State) (addr : Addr) (data : Word), addr.toNat < 0x800 ∨ addr = 0x804#12 → addr.toNat % 4 = 0 →
    step (before (.write addr data) s) = .next t → step (before (.read addr) t) = .next u →
    u.resps = t.resps ++ [{ bus := .okay, data := some (if 0x400 ≤ addr.toNat ∧ addr.toNat < 0x800 then data &&& 0xFFFF#32 else data) }]

/-- R65: a host read changes nothing but the latch (that of a bad read), so reading an address twice answers the same. -/
def Obligations.ReadsAreRepeatable : Prop :=
  ∀ (s : State) (addr : Addr), ∃ (t u : State) (r : Response),
    step (before (.read addr) s) = .next t ∧ step (before (.read addr) t) = .next u ∧
    t = { s with err := t.err, firstErr := t.firstErr, resps := s.resps ++ [r] } ∧ u = { t with resps := t.resps ++ [r] } ∧
    (r.bus = .okay → t.err = s.err ∧ t.firstErr = s.firstErr)

/-- R200: a hardware reset puts every element of HTB at its reset value in one step from any state; the environment has fixed the `IN` of the
next run. What the model keeps of the host port stays (its choice, notes/assumptions/3.md and 4.md). -/
def Obligations.HardwareResetFromAnyState : Prop :=
  ∀ (s : State) (input : List Byte),
    step (before (.reset input) s) = .next { State.reset with input := input, hostQ := s.hostQ, resps := s.resps }

/-- R47, the column "reset value": both tables 0, `RES`, `WDATA` and the status 0, the tree empty, the writer empty, the reader exhausted, the
streams at their start. -/
def Obligations.ResetValues : Prop :=
  (∀ y, State.reset.freq.get y = 0#32) ∧ (∀ i, State.reset.hdr.get i = { sym := 0#8, dep := 0#8 }) ∧
  State.reset.wdata = 0#32 ∧ State.reset.res = 0#32 ∧
  State.reset.last.code = 0#4 ∧ State.reset.firstErr.code = 0#4 ∧ State.reset.err = false ∧
  State.reset.tree.nodes = [] ∧ State.reset.tree.root = none ∧ (∀ y, State.reset.tree.leafOf y = none) ∧ State.reset.tree.nleaf = 0#9 ∧
  State.reset.wbuf = 0#8 ∧ State.reset.wcnt.val = 0 ∧ State.reset.rbuf = 0#8 ∧ State.reset.rpos.val = 8 ∧
  State.reset.inPos = 0 ∧ State.reset.out = [] ∧ State.reset.outSync = 0

/-! ## The machine as a whole -/

/-- The invariant holds after reset, whatever `IN` the environment has fixed. -/
def Obligations.ResetMeetsTheInvariant : Prop := ∀ input, (State.resetWith input).Inv

/-- R33 and R38 to R45: every step keeps the invariant: `TreeWF`, the buffers and stream positions, the status latch. -/
def Obligations.StepKeepsTheInvariant : Prop := ∀ s t : State, s.Inv → step s = .next t → t.Inv

/-- Every step keeps the buffers, the stream positions and the latch as R26, R38, R40, R44 and R172 say, whatever the tree is. -/
def Obligations.StepKeepsStreamsAndStatus : Prop :=
  ∀ s t : State, s.StreamsOk → s.StatusOk → step s = .next t → t.StreamsOk ∧ t.StatusOk

/-- No input stops HTB: from a state with a well-formed tree every host access is served (R48, R177), and nothing happens when there is none
(the model's choice, notes/assumptions/2.md). -/
def Obligations.NothingStopsTheEngine : Prop :=
  ∀ s : State, s.tree.WF → (∃ t, step s = .next t) ∧ (s.hostQ = [] → step s = .next s)

/-- R5, R163: with a well-formed tree every command runs to its end. -/
def Obligations.EveryCommandCompletes : Prop := ∀ (i : Instr) (s : State), s.tree.WF → ∃ t, exec i s = .next t

/-- R61, R44, R46: which state a command can reach. The host's tables and `WDATA` by none but `SRESET`; the tree by `BUILD` and `REBUILD`;
`IN` by the four reading commands, `OUT` by the six writing ones; the bit buffers by the bit commands; `OUT_SYNC` by `FLUSH`. That the model's record
of the host port (`hostQ`, `resps`) is changed by none, `SRESET` included, is the model's choice (notes/assumptions/3.md) and no rule of the spec. -/
def Obligations.CommandsReachOnlyTheirState : Prop :=
  ∀ (i : Instr) (s t : State), exec i s = .next t →
    t.input = s.input ∧ t.hostQ = s.hostQ ∧ t.resps = s.resps ∧
    (i ≠ .sreset → t.freq = s.freq ∧ t.hdr = s.hdr ∧ t.wdata = s.wdata) ∧
    (i ≠ .sreset → i ≠ .build → (∀ d, i ≠ .rebuild d) → t.tree = s.tree) ∧
    (i ≠ .sreset → (∀ b, i ≠ .writebit b) → (∀ y, i ≠ .encode y) → i ≠ .flush → t.wbuf = s.wbuf ∧ t.wcnt = s.wcnt) ∧
    (i ≠ .sreset → i ≠ .readbit → i ≠ .decode → t.rbuf = s.rbuf ∧ t.rpos = s.rpos) ∧
    (i ≠ .readbit → i ≠ .readbyte → i ≠ .readint → i ≠ .decode → t.inPos = s.inPos) ∧
    ((∀ b, i ≠ .writebit b) → (∀ v, i ≠ .writebyte v) → i ≠ .writeint → i ≠ .flush → i ≠ .store → (∀ y, i ≠ .encode y) → t.out = s.out) ∧
    (i ≠ .flush → t.outSync = s.outSync)

/-- R40, R43, R44: the streams only move forward. `OUT` is only appended to, `IN_POS` never goes back, `OUT_SYNC` never falls. -/
def Obligations.StreamsOnlyMoveForward : Prop :=
  ∀ s t : State, s.StreamsOk → step s = .next t → (∀ input rest, s.hostQ ≠ .reset input :: rest) →
    s.out <+: t.out ∧ t.input = s.input ∧ s.inPos ≤ t.inPos ∧ s.outSync ≤ t.outSync

/-- R172, R177: once `ERR` is set, no access but `SRESET` and hardware reset changes it or `FIRSTERR`. -/
def Obligations.TheErrorLatchIsSticky : Prop :=
  ∀ s t : State, s.err = true → step s = .next t → (∀ input rest, s.hostQ ≠ .reset input :: rest) →
    (∀ rest, s.hostQ ≠ .write 0x800#12 0xFF000000#32 :: rest) → t.err = true ∧ t.firstErr = s.firstErr

/-- R171 and R172: a command that ends `OK` or `EOD` leaves the latch alone; one that ends with an error latches its status if it is the first.
`SRESET` alone clears the latch (R160). -/
def Obligations.OnlyErrorsAreLatched : Prop :=
  ∀ (i : Instr) (s t : State), i ≠ .sreset → exec i s = .next t →
    (t.last.isError = false → t.err = s.err ∧ t.firstErr = s.firstErr) ∧
    (t.last.isError = true → t.err = true ∧ t.firstErr = if s.err then s.firstErr else t.last)

/-- R170: a command ends with no status but those the table gives it, so `BAD_ACCESS` is never in `LAST`; the codes are the numbers 0 to 7.
What `REBUILD` with an operand above 256 does, which no word decodes to, is the model's choice (notes/assumptions/10.md). -/
def Obligations.CommandsEndWithTheirStatuses : Prop :=
  (∀ (i : Instr) (s t : State), exec i s = .next t → MayEndWith t.last i) ∧
  [Status.ok, .eod, .eos, .invalidSymbol, .noTree, .badHeader, .illegalCmd, .badAccess].map (fun c => c.code.toNat) = [0, 1, 2, 3, 4, 5, 6, 7]

/-- R25: which values `RES` takes, and that no other command writes it. -/
def Obligations.ResIsWrittenByTheReadingCommands : Prop :=
  (∀ (i : Instr) (s t : State), exec i s = .next t →
    (i = .readbit → t.last = .ok → t.res = 0#32 ∨ t.res = 1#32) ∧
    (i = .readbyte → t.last = .ok → ∃ v : Byte, t.res = v.setWidth 32) ∧
    (i = .decode → t.last = .ok → ∃ y : Byte, t.res = y.setWidth 32) ∧
    (i = .readbit ∨ i = .readbyte ∨ i = .readint ∨ i = .decode → t.last ≠ .ok → t.res = 0xFFFFFFFF#32) ∧
    (i ≠ .readbit → i ≠ .readbyte → i ≠ .readint → i ≠ .decode → i ≠ .sreset → t.res = s.res) ∧
    (i = .sreset → t.res = 0#32)) ∧
  ∀ (w : Word) (s t : State), commandOf w = none → step (before (.write 0x800#12 w) s) = .next t → t.res = s.res

/-- R163, R177: execution does not depend on the latch: with another latch a command does the same, up to the latch. -/
def Obligations.ExecutionIgnoresTheLatch : Prop :=
  ∀ (i : Instr) (s t : State) (e : Bool) (c : Status), exec i s = .next t →
    ∃ t', exec i { s with err := e, firstErr := c } = .next t' ∧ t' = { t with err := t'.err, firstErr := t'.firstErr }

/-- R33, R209: the tree changes only by `BUILD`, `REBUILD`, `SRESET` and reset: no host read, and no host write but that of `CMD`, changes it,
those of the tables included. -/
def Obligations.TableWritesDoNotChangeTheTree : Prop :=
  ∀ (s t : State) (addr : Addr) (data : Word),
    (step (before (.read addr) s) = .next t → t.tree = s.tree) ∧
    (addr ≠ 0x800#12 → step (before (.write addr data) s) = .next t → t.tree = s.tree)

/-! ## The bit-stream commands -/

/-- R112: `WRITEBIT b` puts bit 0 of `b` into slot `WCNT`; the eighth bit emits the byte and empties the buffer; nothing else changes. -/
def Obligations.WriteBitFillsTheNextSlot : Prop :=
  (∀ b : Byte, decode (0x01000000#32 ||| b.setWidth 32) = .ok (.writebit b)) ∧
  ∀ (s : State) (b : Byte), ∃ v : Byte, (∀ i, i < 8 → v.getLsbD i = if i = s.wcnt.val then b.getLsbD 0 else s.wbuf.getLsbD i) ∧
    (s.wcnt.val < 7 → exec (.writebit b) s = .next { s with wbuf := v, wcnt := Fin.ofNat 8 (s.wcnt.val + 1), last := .ok }) ∧
    (s.wcnt.val = 7 → exec (.writebit b) s = .next { s with out := s.out ++ [v], wbuf := 0, wcnt := 0, last := .ok })

/-- R113: `READBIT` returns the next slot of `RBUF`, taking a byte from `IN` only when none is left; at the end of data it answers `EOD` and changes
nothing but `RES` and `LAST`. -/
def Obligations.ReadBitReturnsTheNextSlot : Prop :=
  decode 0x02000000#32 = .ok .readbit ∧
  ∀ s : State,
    (s.rpos.val < 8 → exec .readbit s = .next { s with
      rpos := Fin.ofNat 9 (s.rpos.val + 1), res := if s.rbuf.getLsbD s.rpos.val then 1 else 0, last := .ok }) ∧
    (∀ v, s.rpos.val = 8 → s.input[s.inPos]? = some v → exec .readbit s = .next { s with
      rbuf := v, rpos := 1, inPos := s.inPos + 1, res := if v.getLsbD 0 then 1 else 0, last := .ok }) ∧
    (s.rpos.val = 8 → s.input.length ≤ s.inPos → exec .readbit s = .next { s with res := 0xFFFFFFFF#32, last := .eod })

/-- R114: `WRITEBYTE v` appends `v` to `OUT`, past the pending bits, and changes nothing else. -/
def Obligations.WriteByteBypassesTheBuffer : Prop :=
  (∀ v : Byte, decode (0x03000000#32 ||| v.setWidth 32) = .ok (.writebyte v)) ∧
  ∀ (s : State) (v : Byte), exec (.writebyte v) s = .next { s with out := s.out ++ [v], last := .ok }

/-- R115: `READBYTE` returns the next byte of `IN`, past the bits of `RBUF`; at the end of data it answers `EOD`. -/
def Obligations.ReadByteBypassesTheBuffer : Prop :=
  decode 0x04000000#32 = .ok .readbyte ∧
  ∀ s : State,
    (∀ v, s.input[s.inPos]? = some v → exec .readbyte s = .next { s with inPos := s.inPos + 1, res := v.setWidth 32, last := .ok }) ∧
    (s.input.length ≤ s.inPos → exec .readbyte s = .next { s with res := 0xFFFFFFFF#32, last := .eod })

/-- R116: `WRITEINT` appends the four bytes of `WDATA`, least significant first, and keeps `WDATA`. -/
def Obligations.WriteIntIsLittleEndian : Prop :=
  decode 0x05000000#32 = .ok .writeint ∧
  ∀ (s : State) (b0 b1 b2 b3 : Byte), s.wdata = b3 ++ b2 ++ b1 ++ b0 →
    exec .writeint s = .next { s with out := s.out ++ [b0, b1, b2, b3], last := .ok }

/-- R117: `READINT` takes four bytes, the first into bits 7 to 0; with fewer than four left it answers `EOD` and consumes none. -/
def Obligations.ReadIntTakesFourBytesOrNone : Prop :=
  decode 0x06000000#32 = .ok .readint ∧
  ∀ s : State,
    (∀ (b0 b1 b2 b3 : Byte) (rest : List Byte), s.input.drop s.inPos = b0 :: b1 :: b2 :: b3 :: rest →
      exec .readint s = .next { s with inPos := s.inPos + 4, res := b3 ++ b2 ++ b1 ++ b0, last := .ok }) ∧
    (s.input.length < s.inPos + 4 → exec .readint s = .next { s with res := 0xFFFFFFFF#32, last := .eod })

/-- R118: `FLUSH` emits the pending bits with 0 in the unfilled slots and empties the buffer; it emits nothing when no bit is pending; it syncs
in both cases. -/
def Obligations.FlushEmitsPendingBitsAndSyncs : Prop :=
  decode 0x07000000#32 = .ok .flush ∧
  ∀ s : State,
    (s.wcnt.val = 0 → exec .flush s = .next { s with outSync := s.out.length, last := .ok }) ∧
    (0 < s.wcnt.val → s.StreamsOk → ∃ v : Byte,
      exec .flush s = .next { s with out := s.out ++ [v], wbuf := 0, wcnt := 0, outSync := s.out.length + 1, last := .ok } ∧
      bitsOf [v] = s.pendingBits ++ List.replicate (8 - s.wcnt.val) false)

/-- R119: the bits `PutBit` takes from an empty buffer, flushed, are `ceil(m/8)` bytes holding bit `8j+i` in bit `i` of byte `j` and 0 beyond, and
any reader with those bytes before it gets exactly the bits back, then the pad bits 0, then whatever follows. -/
def Obligations.BitsComeBackInOrder : Prop :=
  ∀ (s : State) (bits : List Bool), s.StreamsOk → s.wcnt.val = 0 → ∃ (bytes : List Byte) (u : State),
    exec .flush (s.putBits bits) = .next u ∧ u.out = s.out ++ bytes ∧ bytes.length = (bits.length + 7) / 8 ∧
    bitsOf bytes = bits ++ List.replicate (8 * ((bits.length + 7) / 8) - bits.length) false ∧
    ∀ (r : State) (rest : List Byte), r.rpos.val = 8 → r.unread = bytes ++ rest →
      ∃ t, State.Receives (bits ++ List.replicate (8 * ((bits.length + 7) / 8) - bits.length) false) r t ∧
        t.rpos.val = 8 ∧ t.unread = rest ∧ (rest = [] → t.getBit = none)

/-- R120: what `WRITEINT` appends, a reader gets back as one `READINT`, or as four `READBYTE` with the least significant byte first; what
`WRITEBYTE` appends, as one `READBYTE`. -/
def Obligations.IntegersAndBytesComeBack : Prop :=
  ∀ (s r : State) (bytes rest : List Byte),
    (∀ t, exec .writeint s = .next t → t.out = s.out ++ bytes → r.unread = bytes ++ rest →
      (∃ u, exec .readint r = .next u ∧ u.last = .ok ∧ u.res = s.wdata ∧ u.unread = rest) ∧
      ∃ u1 u2 u3 u4, exec .readbyte r = .next u1 ∧ exec .readbyte u1 = .next u2 ∧ exec .readbyte u2 = .next u3 ∧ exec .readbyte u3 = .next u4 ∧
        u4.last = .ok ∧ u4.unread = rest ∧ s.wdata = u4.res.setWidth 8 ++ u3.res.setWidth 8 ++ u2.res.setWidth 8 ++ u1.res.setWidth 8) ∧
    ∀ v t, exec (.writebyte v) s = .next t → t.out = s.out ++ bytes → r.unread = bytes ++ rest →
      ∃ u, exec .readbyte r = .next u ∧ u.last = .ok ∧ u.res = v.setWidth 32 ∧ u.unread = rest

/-! ## BUILD -/

/-- R130, R133 (a) to (d): `BUILD` discards any earlier tree, ends `OK` on every table and changes nothing else; the new tree is well-formed, its leaves
are the symbols of non-zero frequency, and it has `2K-1` nodes. -/
def Obligations.BuildMakesAWellFormedTree : Prop :=
  decode 0x10000000#32 = .ok .build ∧
  ∀ s : State, ∃ t : CodeTree, exec .build s = .next { s with tree := t, last := .ok } ∧ t.WF ∧
    (∀ y, t.leafOf y ≠ none ↔ s.freq.get y.toFin ≠ 0) ∧
    t.nleaf.toNat = usedSymbols s.freq ∧ t.nodes.length = 2 * usedSymbols s.freq - 1

/-- R133 (b), R134: weights are exact sums that never wrap: a leaf weighs its frequency, an internal node the sum of its children, the root the
sum of the table. -/
def Obligations.BuildWeightsAreExactSums : Prop :=
  ∀ (s : State) (t : CodeTree), exec .build s = .next { s with tree := t, last := .ok } →
    (∀ n y, t.isLeaf n = true → t.sym n = some y → t.weight n = some ((s.freq.get y.toFin).setWidth 40)) ∧
    (∀ n a b, t.c0 n = some a → t.c1 n = some b → ∃ w wa wb, t.weight n = some w ∧ t.weight a = some wa ∧ t.weight b = some wb ∧
      w.toNat = wa.toNat + wb.toNat) ∧
    ∀ r, t.root = some r → ∃ w, t.weight r = some w ∧ w.toNat = totalFrequency s.freq

/-- R134: a leaf of a built tree with `K` leaves is no deeper than `K-1`. -/
def Obligations.BuiltDepthIsBounded : Prop :=
  ∀ (s t : State), exec .build s = .next t → ∀ y bits, t.tree.IsCode y bits → bits.length ≤ usedSymbols s.freq - 1

/-- R131: at every moment of the merge loop the nodes in the heap have pairwise different `SYM` values and so different keys. That the heap is a
list in ascending key order (notes/assumptions/6.md) and that an entry carries a copy of the weight and symbol of its node, which has no
parent yet (notes/assumptions/7.md), is the model's choice: R131 leaves the layout open. -/
def Obligations.TheHeapOrderIsStrict : Prop :=
  ∀ (freq : Vector Word 256) (k : Nat), let b := Build.mergeAll k (buildLeaves freq)
    (b.heap.map (·.sym)).Nodup ∧
    b.heap.Pairwise (fun x y => x.weight.toNat < y.weight.toNat ∨ (x.weight = y.weight ∧ x.sym.toNat < y.sym.toNat)) ∧
    ∀ e ∈ b.heap, b.tree.weight e.id = some e.weight ∧ b.tree.sym e.id = some e.sym ∧ b.tree.par e.id = none

/-- R130, R131: in the tree `BUILD` makes, every merge joined the two nodes of least key among those that waited for a merge, the least as child 0 and
the second as child 1. Nodes are numbered in the order they are made, the leaves first (R130). -/
def Obligations.BuildMergesTheTwoLeast : Prop :=
  ∀ s t : State, exec .build s = .next t →
    (∀ l m, t.tree.isLeaf l = true → m < t.tree.nodes.length → t.tree.isLeaf m = false → l < m) ∧
    ∀ m a b, t.tree.c0 m = some a → t.tree.c1 m = some b →
      Waits t.tree m a ∧ Waits t.tree m b ∧ KeyBelow t.tree a b ∧ ∀ n, Waits t.tree m n → n ≠ a → n ≠ b → KeyBelow t.tree b n

/-- R130: the merge loop starts with the leaves of the used symbols in the heap; each pass takes the first two entries out, makes one node with them
as child 0 and child 1, the sum of their weights and the symbol of the first, puts it into the heap and changes nothing else; `BUILD` makes
`K-1` passes and the last node is the root. The heap as a list in key order whose entries copy the key of their node is the model's choice
(notes/assumptions/6.md and 7.md). -/
def Obligations.EachMergePairsTheFirstTwoOfTheHeap : Prop :=
  (∀ freq : Vector Word 256, let b := buildLeaves freq
    (∀ e ∈ b.heap, e.weight = (freq.get e.sym.toFin).setWidth 40 ∧ b.tree.leafOf e.sym = some e.id ∧ b.tree.isLeaf e.id = true) ∧
    (∀ y : Byte, freq.get y.toFin ≠ 0 ↔ ∃ e ∈ b.heap, e.sym = y) ∧ b.heap.length = usedSymbols freq ∧ b.tree.nodes.length = usedSymbols freq) ∧
  (∀ (freq : Vector Word 256) (k : Nat) (x y : HeapEntry) (rest : List HeapEntry),
    let b := Build.mergeAll k (buildLeaves freq)
    let c := Build.mergeAll (k + 1) (buildLeaves freq)
    let m := b.tree.nodes.length
    b.heap = x :: y :: rest →
      c.tree.nodes.length = m + 1 ∧ c.tree.c0 m = some x.id ∧ c.tree.c1 m = some y.id ∧ c.tree.weight m = some (x.weight + y.weight) ∧
      c.tree.sym m = some x.sym ∧ c.tree.par m = none ∧ c.tree.par x.id = some m ∧ c.tree.par y.id = some m ∧
      (∀ n, n < m → c.tree.c0 n = b.tree.c0 n ∧ c.tree.c1 n = b.tree.c1 n ∧ c.tree.weight n = b.tree.weight n ∧ c.tree.sym n = b.tree.sym n ∧
        (n ≠ x.id → n ≠ y.id → c.tree.par n = b.tree.par n)) ∧
      c.tree.leaf = b.tree.leaf ∧ c.tree.nleaf = b.tree.nleaf ∧
      c.heap.Perm ({ id := m, weight := x.weight + y.weight, sym := x.sym } :: rest)) ∧
  ∀ s : State, let b := Build.mergeAll (usedSymbols s.freq - 1) (buildLeaves s.freq)
    b.heap.length ≤ 1 ∧ exec .build s = .next { s with tree := { b.tree with root := b.heap.head?.map (·.id) }, last := .ok }

/-- R132: `BUILD` with no used symbol makes the empty tree, with one the single-leaf tree, with two one merge in which the smaller key is child 0,
with 256 an arena that is exactly full. -/
def Obligations.BuildOfSmallAndFullTables : Prop :=
  (∀ s : State, (∀ y, s.freq.get y = 0) → exec .build s = .next { s with tree := CodeTree.empty, last := .ok }) ∧
  (∀ (s : State) (y : Byte), s.freq.get y.toFin ≠ 0 → (∀ z, z ≠ y.toFin → s.freq.get z = 0) →
    ∃ t : CodeTree, exec .build s = .next { s with tree := t, last := .ok } ∧ t.root = some 0 ∧ t.nleaf = 1 ∧ t.rootLeaf = true ∧
      t.nodes = [{ weight := some ((s.freq.get y.toFin).setWidth 40), sym := some y, c0 := none, c1 := none, par := none }]) ∧
  (∀ (s : State) (x y : Byte), s.freq.get x.toFin ≠ 0 → s.freq.get y.toFin ≠ 0 → (∀ z, z ≠ x.toFin → z ≠ y.toFin → s.freq.get z = 0) →
    ((s.freq.get x.toFin).toNat < (s.freq.get y.toFin).toNat ∨ (s.freq.get x.toFin = s.freq.get y.toFin ∧ x.toNat < y.toNat)) →
    ∃ t : CodeTree, exec .build s = .next { s with tree := t, last := .ok } ∧ t.nodes.length = 3 ∧ t.IsCode x [false] ∧ t.IsCode y [true]) ∧
  ∀ s : State, (∀ y, s.freq.get y ≠ 0) → ∃ t : CodeTree, exec .build s = .next { s with tree := t, last := .ok } ∧ t.nodes.length = 511

/-! ## STORE and REBUILD -/

/-- R140: `STORE` ends `OK`, appends for every leaf in preorder its symbol and its depth (`2*NLEAF` bytes, none for the empty tree), and changes
nothing else. -/
def Obligations.StoreEmitsTheLeavesInPreorder : Prop :=
  decode 0x11000000#32 = .ok .store ∧
  ∀ s : State, s.tree.WF → ∃ leaves : List (List Bool × Byte),
    (∀ p y, (p, y) ∈ leaves ↔ s.tree.IsCode y p) ∧ leaves.Pairwise (fun a b => PathBefore a.1 b.1) ∧ leaves.length = s.tree.nleaf.toNat ∧
    exec .store s = .next { s with
      out := s.out ++ leaves.flatMap (fun l => [l.2, BitVec.ofNat 8 l.1.length]), last := .ok }

/-- R141, R142: on a well-formed header `REBUILD D` ends `OK` with a well-formed tree of the shape the depths describe, `2D-1` nodes (511 for the
largest header, R143), and changes nothing else. -/
def Obligations.RebuildOfAWellFormedHeader : Prop :=
  ∀ (s : State) (d : BitVec 9) (sh : Shape), 1 ≤ d.toNat → d.toNat ≤ 256 →
    ((s.hdr.toList.take d.toNat).map (·.sym)).Nodup →
    (s.hdr.toList.take d.toNat).map (fun p => (p.sym, p.dep.toNat)) = sh.header 0 →
    ∃ t : CodeTree, exec (.rebuild d) s = .next { s with tree := t, last := .ok } ∧ t.WF ∧ t.HasShape sh ∧
      t.nleaf = d ∧ t.nodes.length = 2 * d.toNat - 1

/-- R142, R173: on every other sequence of 1 to 256 pairs `REBUILD` ends `BAD_HEADER`, the earlier tree is gone and the tree is empty, and nothing
else changes. -/
def Obligations.RebuildOfAMalformedHeader : Prop :=
  ∀ (s : State) (d : BitVec 9), 1 ≤ d.toNat → d.toNat ≤ 256 → ¬ WellFormedHeader (s.hdr.toList.take d.toNat) →
    exec (.rebuild d) s = .next (failed .badHeader { s with tree := CodeTree.empty })

/-- R143: `REBUILD 0` makes the empty tree; `REBUILD 1` with depth 0 makes the single-leaf tree and with any other depth is malformed; the
largest legal header, of 256 pairs, makes 511 nodes. -/
def Obligations.RebuildOfDegenerateHeaders : Prop :=
  ∀ s : State,
    exec (.rebuild 0) s = .next { s with tree := CodeTree.empty, last := .ok } ∧
    ((s.hdr.get 0).dep = 0 → ∃ t : CodeTree, exec (.rebuild 1) s = .next { s with tree := t, last := .ok } ∧ t.rootLeaf = true ∧ t.nleaf = 1 ∧
      t.nodes.length = 1 ∧ t.IsCode (s.hdr.get 0).sym []) ∧
    ((s.hdr.get 0).dep ≠ 0 → exec (.rebuild 1) s = .next (failed .badHeader { s with tree := CodeTree.empty })) ∧
    (WellFormedHeader s.hdr.toList → ∃ t : CodeTree, exec (.rebuild 256) s = .next { s with tree := t, last := .ok } ∧ t.nodes.length = 511)

/-- R144: the header `STORE` emits, copied pair by pair into `HDR`, makes `REBUILD NLEAF` end `OK` with a tree of the same shape and the same symbol
at every leaf, so every symbol keeps its codeword; for the empty tree `STORE` emits nothing and `REBUILD 0` makes the empty tree. -/
def Obligations.HeaderRoundTrip : Prop :=
  ∀ s r : State, s.tree.WF →
    (s.tree.root ≠ none → ∃ (t : State) (ps : List HdrPair), exec .store s = .next t ∧ t.out = s.out ++ pairBytes ps ∧
      ps.length = s.tree.nleaf.toNat ∧
      (r.hdr.toList.take s.tree.nleaf.toNat = ps → ∃ u : CodeTree,
        exec (.rebuild s.tree.nleaf) r = .next { r with tree := u, last := .ok } ∧ u.WF ∧ s.tree.SameShape u)) ∧
    (s.tree.root = none → exec .store s = .next { s with last := .ok } ∧ exec (.rebuild 0) r = .next { r with tree := CodeTree.empty, last := .ok })

/-! ## ENCODE and DECODE -/

/-- R150: `ENCODE sym` of a symbol with no leaf raises `INVALID_SYMBOL` and changes nothing else; of a symbol with a leaf it ends `OK` and puts the
codeword, the child numbers from the root to the leaf, behind the pending bits: `floor((WCNT + len) / 8)` bytes go out and the rest stays pending. -/
def Obligations.EncodeEmitsTheCodeword : Prop :=
  (∀ y : Byte, decode (0x20000000#32 ||| y.setWidth 32) = .ok (.encode y)) ∧
  ∀ (s : State) (y : Byte),
    (s.tree.leafOf y = none → exec (.encode y) s = .next (failed .invalidSymbol s)) ∧
    (s.tree.WF → s.tree.leafOf y ≠ none → ∃ bits, s.tree.IsCode y bits ∧ bits.length ≤ 255) ∧
    ∀ bits, s.tree.WF → s.tree.IsCode y bits → ∃ (bytes : List Byte) (t : State), exec (.encode y) s = .next t ∧
      t = { s with wbuf := t.wbuf, wcnt := t.wcnt, out := s.out ++ bytes, last := .ok } ∧
      s.pendingBits ++ bits = bitsOf bytes ++ t.pendingBits ∧
      bytes.length = (s.wcnt.val + bits.length) / 8 ∧ t.wcnt.val = (s.wcnt.val + bits.length) % 8 ∧ (s.StreamsOk → t.StreamsOk)

/-- R151, R111: `DECODE` on the empty tree raises `NO_TREE` and reads no bit; else `GetBit` takes exactly the codeword that stands next in the input,
with no read-ahead, and `DECODE` answers its symbol; if the input ends before a leaf, `GetBit` takes exactly the bits left and `DECODE` raises
`EOS`. One of the two is the case on every input. -/
def Obligations.DecodeReadsOneCodeword : Prop :=
  decode 0x21000000#32 = .ok .decode ∧
  ∀ s : State,
    (s.tree.root = none → exec .decode s = .next (failed .noTree { s with res := 0xFFFFFFFF#32 })) ∧
    (∀ y bits rest, s.tree.WF → s.tree.IsCode y bits → s.bitsLeft = bits ++ rest → ∃ u, State.Receives bits s u ∧
      exec .decode s = .next { u with res := y.setWidth 32, last := .ok } ∧
      u = { s with rbuf := u.rbuf, rpos := u.rpos, inPos := u.inPos } ∧ u.bitsLeft = rest) ∧
    (s.tree.WF → s.tree.lookup s.bitsLeft = some none → ∃ u, State.Receives s.bitsLeft s u ∧
      exec .decode s = .next (failed .eos { u with res := 0xFFFFFFFF#32 }) ∧
      u = { s with rbuf := u.rbuf, rpos := u.rpos, inPos := u.inPos } ∧ u.unread = [] ∧ u.rpos.val = 8) ∧
    (s.tree.WF → s.tree.root ≠ none → s.tree.lookup s.bitsLeft = some none ∨ ∃ y bits rest, s.tree.IsCode y bits ∧ s.bitsLeft = bits ++ rest)

/-- R152: the code of the only symbol of a single-leaf tree is empty: `ENCODE` emits nothing and `DECODE` reads nothing, at the end of data too; on the
empty tree `ENCODE` ends `INVALID_SYMBOL`, `DECODE` ends `NO_TREE`, `STORE` emits nothing. -/
def Obligations.DegenerateTreesReadAndWriteNothing : Prop :=
  ∀ s : State, s.tree.WF →
    (∀ y r, s.tree.root = some r → s.tree.isLeaf r = true → s.tree.sym r = some y →
      exec (.encode y) s = .next { s with last := .ok } ∧ exec .decode s = .next { s with res := y.setWidth 32, last := .ok } ∧
      ∀ z, z ≠ y → exec (.encode z) s = .next (failed .invalidSymbol s)) ∧
    (s.tree.root = none → (∀ y, exec (.encode y) s = .next (failed .invalidSymbol s)) ∧
      exec .decode s = .next (failed .noTree { s with res := 0xFFFFFFFF#32 }) ∧ exec .store s = .next { s with last := .ok })

/-- R153: symbols encoded from an empty bit buffer and flushed are bytes from which any reader holding a tree of the same shape decodes them back in
order, whatever the pad bits are: only the code bits matter. -/
def Obligations.PayloadRoundTrip : Prop :=
  ∀ (s : State) (syms : List Byte), s.tree.WF → s.StreamsOk → s.wcnt.val = 0 → (∀ y ∈ syms, s.tree.leafOf y ≠ none) →
    ∃ (bytes : List Byte) (codes : List (List Bool)) (pad : Nat) (u : State),
      runCommands (syms.map Instr.encode ++ [Instr.flush]) s = .next u ∧ u.out = s.out ++ bytes ∧ u.err = s.err ∧
      List.Forall₂ s.tree.IsCode syms codes ∧ bitsOf bytes = codes.flatten ++ List.replicate pad false ∧ pad < 8 ∧
      ∀ r : State, r.tree.WF → s.tree.SameShape r.tree → (∃ rest, r.bitsLeft = codes.flatten ++ rest) → r.Decodes syms

/-- R111: `GetBit` takes the first of the bits before the reader, and answers the mark `EOD` exactly when there is none; with `RPOS = 8` the bits
before the reader are those of the unread bytes, so the premise of R153 puts the payload's bits first. -/
def Obligations.GetBitTakesTheFirstBitLeft : Prop :=
  ∀ r : State, (r.getBit = none ↔ r.bitsLeft = []) ∧
    (∀ b s1, r.getBit = some (b, s1) → r.bitsLeft = b :: s1.bitsLeft ∧
      s1 = { r with rbuf := s1.rbuf, rpos := s1.rpos, inPos := s1.inPos } ∧ (r.rpos.val < 8 → s1.inPos = r.inPos)) ∧
    ∀ bytes rest, r.rpos.val = 8 → r.unread = bytes ++ rest → r.bitsLeft = bitsOf bytes ++ bitsOf rest

/-! ## SRESET -/

/-- R160: `SRESET` ends `OK` with every element at its reset value but `IN`, `IN_POS`, `OUT` and `OUT_SYNC`, which it leaves alone: pending bits are
dropped, not emitted, and the error latch is clear. That it leaves the model's record of the host port (`hostQ`, `resps`) alone is the model's
choice (notes/assumptions/3.md) and no rule of the spec. -/
def Obligations.SoftResetKeepsOnlyTheStreams : Prop :=
  decode 0xFF000000#32 = .ok .sreset ∧
  ∀ s : State, ∃ t, exec .sreset s = .next t ∧
    (∀ y, t.freq.get y = 0#32) ∧ (∀ i, t.hdr.get i = { sym := 0#8, dep := 0#8 }) ∧ t.wdata = 0#32 ∧ t.res = 0#32 ∧
    t.tree.root = none ∧ t.tree.nodes = [] ∧ t.tree.nleaf = 0#9 ∧ (∀ y, t.tree.leafOf y = none) ∧
    t.wbuf = 0#8 ∧ t.wcnt.val = 0 ∧ t.rbuf = 0#8 ∧ t.rpos.val = 8 ∧ t.err = false ∧ t.firstErr = .ok ∧ t.last = .ok ∧
    t.input = s.input ∧ t.inPos = s.inPos ∧ t.out = s.out ∧ t.outSync = s.outSync ∧ t.hostQ = s.hostQ ∧ t.resps = s.resps
end

