-- ==== Sys2Proof/Laws/State.lean ====
section
/-! SUPPORT. What each named update of the state does to each field: one lemma per field, so that no proof unfolds a record update. -/

namespace Sys2Proof.Machine

/-! ## finish -/

@[simp] theorem State.finish_freq (s : State) (c : Status) : (s.finish c).freq = s.freq := rfl
@[simp] theorem State.finish_hdr (s : State) (c : Status) : (s.finish c).hdr = s.hdr := rfl
@[simp] theorem State.finish_wdata (s : State) (c : Status) : (s.finish c).wdata = s.wdata := rfl
@[simp] theorem State.finish_res (s : State) (c : Status) : (s.finish c).res = s.res := rfl
@[simp] theorem State.finish_last (s : State) (c : Status) : (s.finish c).last = c := rfl
@[simp] theorem State.finish_err (s : State) (c : Status) : (s.finish c).err = s.err := rfl
@[simp] theorem State.finish_firstErr (s : State) (c : Status) : (s.finish c).firstErr = s.firstErr := rfl
@[simp] theorem State.finish_tree (s : State) (c : Status) : (s.finish c).tree = s.tree := rfl
@[simp] theorem State.finish_wbuf (s : State) (c : Status) : (s.finish c).wbuf = s.wbuf := rfl
@[simp] theorem State.finish_wcnt (s : State) (c : Status) : (s.finish c).wcnt = s.wcnt := rfl
@[simp] theorem State.finish_rbuf (s : State) (c : Status) : (s.finish c).rbuf = s.rbuf := rfl
@[simp] theorem State.finish_rpos (s : State) (c : Status) : (s.finish c).rpos = s.rpos := rfl
@[simp] theorem State.finish_input (s : State) (c : Status) : (s.finish c).input = s.input := rfl
@[simp] theorem State.finish_inPos (s : State) (c : Status) : (s.finish c).inPos = s.inPos := rfl
@[simp] theorem State.finish_out (s : State) (c : Status) : (s.finish c).out = s.out := rfl
@[simp] theorem State.finish_outSync (s : State) (c : Status) : (s.finish c).outSync = s.outSync := rfl
@[simp] theorem State.finish_hostQ (s : State) (c : Status) : (s.finish c).hostQ = s.hostQ := rfl
@[simp] theorem State.finish_resps (s : State) (c : Status) : (s.finish c).resps = s.resps := rfl

/-! ## answer -/

@[simp] theorem State.answer_freq (s : State) (v : Word) : (s.answer v).freq = s.freq := rfl
@[simp] theorem State.answer_hdr (s : State) (v : Word) : (s.answer v).hdr = s.hdr := rfl
@[simp] theorem State.answer_wdata (s : State) (v : Word) : (s.answer v).wdata = s.wdata := rfl
@[simp] theorem State.answer_res (s : State) (v : Word) : (s.answer v).res = v := rfl
@[simp] theorem State.answer_last (s : State) (v : Word) : (s.answer v).last = .ok := rfl
@[simp] theorem State.answer_err (s : State) (v : Word) : (s.answer v).err = s.err := rfl
@[simp] theorem State.answer_firstErr (s : State) (v : Word) : (s.answer v).firstErr = s.firstErr := rfl
@[simp] theorem State.answer_tree (s : State) (v : Word) : (s.answer v).tree = s.tree := rfl
@[simp] theorem State.answer_wbuf (s : State) (v : Word) : (s.answer v).wbuf = s.wbuf := rfl
@[simp] theorem State.answer_wcnt (s : State) (v : Word) : (s.answer v).wcnt = s.wcnt := rfl
@[simp] theorem State.answer_rbuf (s : State) (v : Word) : (s.answer v).rbuf = s.rbuf := rfl
@[simp] theorem State.answer_rpos (s : State) (v : Word) : (s.answer v).rpos = s.rpos := rfl
@[simp] theorem State.answer_input (s : State) (v : Word) : (s.answer v).input = s.input := rfl
@[simp] theorem State.answer_inPos (s : State) (v : Word) : (s.answer v).inPos = s.inPos := rfl
@[simp] theorem State.answer_out (s : State) (v : Word) : (s.answer v).out = s.out := rfl
@[simp] theorem State.answer_outSync (s : State) (v : Word) : (s.answer v).outSync = s.outSync := rfl
@[simp] theorem State.answer_hostQ (s : State) (v : Word) : (s.answer v).hostQ = s.hostQ := rfl
@[simp] theorem State.answer_resps (s : State) (v : Word) : (s.answer v).resps = s.resps := rfl

/-! ## sinkPut -/

@[simp] theorem State.sinkPut_freq (s : State) (v : Byte) : (s.sinkPut v).freq = s.freq := rfl
@[simp] theorem State.sinkPut_hdr (s : State) (v : Byte) : (s.sinkPut v).hdr = s.hdr := rfl
@[simp] theorem State.sinkPut_wdata (s : State) (v : Byte) : (s.sinkPut v).wdata = s.wdata := rfl
@[simp] theorem State.sinkPut_res (s : State) (v : Byte) : (s.sinkPut v).res = s.res := rfl
@[simp] theorem State.sinkPut_last (s : State) (v : Byte) : (s.sinkPut v).last = s.last := rfl
@[simp] theorem State.sinkPut_err (s : State) (v : Byte) : (s.sinkPut v).err = s.err := rfl
@[simp] theorem State.sinkPut_firstErr (s : State) (v : Byte) : (s.sinkPut v).firstErr = s.firstErr := rfl
@[simp] theorem State.sinkPut_tree (s : State) (v : Byte) : (s.sinkPut v).tree = s.tree := rfl
@[simp] theorem State.sinkPut_wbuf (s : State) (v : Byte) : (s.sinkPut v).wbuf = s.wbuf := rfl
@[simp] theorem State.sinkPut_wcnt (s : State) (v : Byte) : (s.sinkPut v).wcnt = s.wcnt := rfl
@[simp] theorem State.sinkPut_rbuf (s : State) (v : Byte) : (s.sinkPut v).rbuf = s.rbuf := rfl
@[simp] theorem State.sinkPut_rpos (s : State) (v : Byte) : (s.sinkPut v).rpos = s.rpos := rfl
@[simp] theorem State.sinkPut_input (s : State) (v : Byte) : (s.sinkPut v).input = s.input := rfl
@[simp] theorem State.sinkPut_inPos (s : State) (v : Byte) : (s.sinkPut v).inPos = s.inPos := rfl
@[simp] theorem State.sinkPut_out (s : State) (v : Byte) : (s.sinkPut v).out = s.out ++ [v] := rfl
@[simp] theorem State.sinkPut_outSync (s : State) (v : Byte) : (s.sinkPut v).outSync = s.outSync := rfl
@[simp] theorem State.sinkPut_hostQ (s : State) (v : Byte) : (s.sinkPut v).hostQ = s.hostQ := rfl
@[simp] theorem State.sinkPut_resps (s : State) (v : Byte) : (s.sinkPut v).resps = s.resps := rfl

/-! ## sinkPutAll -/

@[simp] theorem State.sinkPutAll_freq (s : State) (vs : List Byte) : (s.sinkPutAll vs).freq = s.freq := rfl
@[simp] theorem State.sinkPutAll_hdr (s : State) (vs : List Byte) : (s.sinkPutAll vs).hdr = s.hdr := rfl
@[simp] theorem State.sinkPutAll_wdata (s : State) (vs : List Byte) : (s.sinkPutAll vs).wdata = s.wdata := rfl
@[simp] theorem State.sinkPutAll_res (s : State) (vs : List Byte) : (s.sinkPutAll vs).res = s.res := rfl
@[simp] theorem State.sinkPutAll_last (s : State) (vs : List Byte) : (s.sinkPutAll vs).last = s.last := rfl
@[simp] theorem State.sinkPutAll_err (s : State) (vs : List Byte) : (s.sinkPutAll vs).err = s.err := rfl
@[simp] theorem State.sinkPutAll_firstErr (s : State) (vs : List Byte) : (s.sinkPutAll vs).firstErr = s.firstErr := rfl
@[simp] theorem State.sinkPutAll_tree (s : State) (vs : List Byte) : (s.sinkPutAll vs).tree = s.tree := rfl
@[simp] theorem State.sinkPutAll_wbuf (s : State) (vs : List Byte) : (s.sinkPutAll vs).wbuf = s.wbuf := rfl
@[simp] theorem State.sinkPutAll_wcnt (s : State) (vs : List Byte) : (s.sinkPutAll vs).wcnt = s.wcnt := rfl
@[simp] theorem State.sinkPutAll_rbuf (s : State) (vs : List Byte) : (s.sinkPutAll vs).rbuf = s.rbuf := rfl
@[simp] theorem State.sinkPutAll_rpos (s : State) (vs : List Byte) : (s.sinkPutAll vs).rpos = s.rpos := rfl
@[simp] theorem State.sinkPutAll_input (s : State) (vs : List Byte) : (s.sinkPutAll vs).input = s.input := rfl
@[simp] theorem State.sinkPutAll_inPos (s : State) (vs : List Byte) : (s.sinkPutAll vs).inPos = s.inPos := rfl
@[simp] theorem State.sinkPutAll_out (s : State) (vs : List Byte) : (s.sinkPutAll vs).out = s.out ++ vs := rfl
@[simp] theorem State.sinkPutAll_outSync (s : State) (vs : List Byte) : (s.sinkPutAll vs).outSync = s.outSync := rfl
@[simp] theorem State.sinkPutAll_hostQ (s : State) (vs : List Byte) : (s.sinkPutAll vs).hostQ = s.hostQ := rfl
@[simp] theorem State.sinkPutAll_resps (s : State) (vs : List Byte) : (s.sinkPutAll vs).resps = s.resps := rfl

/-! ## sinkSync -/

@[simp] theorem State.sinkSync_freq (s : State) : (s.sinkSync).freq = s.freq := rfl
@[simp] theorem State.sinkSync_hdr (s : State) : (s.sinkSync).hdr = s.hdr := rfl
@[simp] theorem State.sinkSync_wdata (s : State) : (s.sinkSync).wdata = s.wdata := rfl
@[simp] theorem State.sinkSync_res (s : State) : (s.sinkSync).res = s.res := rfl
@[simp] theorem State.sinkSync_last (s : State) : (s.sinkSync).last = s.last := rfl
@[simp] theorem State.sinkSync_err (s : State) : (s.sinkSync).err = s.err := rfl
@[simp] theorem State.sinkSync_firstErr (s : State) : (s.sinkSync).firstErr = s.firstErr := rfl
@[simp] theorem State.sinkSync_tree (s : State) : (s.sinkSync).tree = s.tree := rfl
@[simp] theorem State.sinkSync_wbuf (s : State) : (s.sinkSync).wbuf = s.wbuf := rfl
@[simp] theorem State.sinkSync_wcnt (s : State) : (s.sinkSync).wcnt = s.wcnt := rfl
@[simp] theorem State.sinkSync_rbuf (s : State) : (s.sinkSync).rbuf = s.rbuf := rfl
@[simp] theorem State.sinkSync_rpos (s : State) : (s.sinkSync).rpos = s.rpos := rfl
@[simp] theorem State.sinkSync_input (s : State) : (s.sinkSync).input = s.input := rfl
@[simp] theorem State.sinkSync_inPos (s : State) : (s.sinkSync).inPos = s.inPos := rfl
@[simp] theorem State.sinkSync_out (s : State) : (s.sinkSync).out = s.out := rfl
@[simp] theorem State.sinkSync_outSync (s : State) : (s.sinkSync).outSync = s.out.length := rfl
@[simp] theorem State.sinkSync_hostQ (s : State) : (s.sinkSync).hostQ = s.hostQ := rfl
@[simp] theorem State.sinkSync_resps (s : State) : (s.sinkSync).resps = s.resps := rfl

/-! ## clearWriter -/

@[simp] theorem State.clearWriter_freq (s : State) : (s.clearWriter).freq = s.freq := rfl
@[simp] theorem State.clearWriter_hdr (s : State) : (s.clearWriter).hdr = s.hdr := rfl
@[simp] theorem State.clearWriter_wdata (s : State) : (s.clearWriter).wdata = s.wdata := rfl
@[simp] theorem State.clearWriter_res (s : State) : (s.clearWriter).res = s.res := rfl
@[simp] theorem State.clearWriter_last (s : State) : (s.clearWriter).last = s.last := rfl
@[simp] theorem State.clearWriter_err (s : State) : (s.clearWriter).err = s.err := rfl
@[simp] theorem State.clearWriter_firstErr (s : State) : (s.clearWriter).firstErr = s.firstErr := rfl
@[simp] theorem State.clearWriter_tree (s : State) : (s.clearWriter).tree = s.tree := rfl
@[simp] theorem State.clearWriter_wbuf (s : State) : (s.clearWriter).wbuf = 0 := rfl
@[simp] theorem State.clearWriter_wcnt (s : State) : (s.clearWriter).wcnt = 0 := rfl
@[simp] theorem State.clearWriter_rbuf (s : State) : (s.clearWriter).rbuf = s.rbuf := rfl
@[simp] theorem State.clearWriter_rpos (s : State) : (s.clearWriter).rpos = s.rpos := rfl
@[simp] theorem State.clearWriter_input (s : State) : (s.clearWriter).input = s.input := rfl
@[simp] theorem State.clearWriter_inPos (s : State) : (s.clearWriter).inPos = s.inPos := rfl
@[simp] theorem State.clearWriter_out (s : State) : (s.clearWriter).out = s.out := rfl
@[simp] theorem State.clearWriter_outSync (s : State) : (s.clearWriter).outSync = s.outSync := rfl
@[simp] theorem State.clearWriter_hostQ (s : State) : (s.clearWriter).hostQ = s.hostQ := rfl
@[simp] theorem State.clearWriter_resps (s : State) : (s.clearWriter).resps = s.resps := rfl

/-! ## treeClear -/

@[simp] theorem State.treeClear_freq (s : State) : (s.treeClear).freq = s.freq := rfl
@[simp] theorem State.treeClear_hdr (s : State) : (s.treeClear).hdr = s.hdr := rfl
@[simp] theorem State.treeClear_wdata (s : State) : (s.treeClear).wdata = s.wdata := rfl
@[simp] theorem State.treeClear_res (s : State) : (s.treeClear).res = s.res := rfl
@[simp] theorem State.treeClear_last (s : State) : (s.treeClear).last = s.last := rfl
@[simp] theorem State.treeClear_err (s : State) : (s.treeClear).err = s.err := rfl
@[simp] theorem State.treeClear_firstErr (s : State) : (s.treeClear).firstErr = s.firstErr := rfl
@[simp] theorem State.treeClear_tree (s : State) : (s.treeClear).tree = CodeTree.empty := rfl
@[simp] theorem State.treeClear_wbuf (s : State) : (s.treeClear).wbuf = s.wbuf := rfl
@[simp] theorem State.treeClear_wcnt (s : State) : (s.treeClear).wcnt = s.wcnt := rfl
@[simp] theorem State.treeClear_rbuf (s : State) : (s.treeClear).rbuf = s.rbuf := rfl
@[simp] theorem State.treeClear_rpos (s : State) : (s.treeClear).rpos = s.rpos := rfl
@[simp] theorem State.treeClear_input (s : State) : (s.treeClear).input = s.input := rfl
@[simp] theorem State.treeClear_inPos (s : State) : (s.treeClear).inPos = s.inPos := rfl
@[simp] theorem State.treeClear_out (s : State) : (s.treeClear).out = s.out := rfl
@[simp] theorem State.treeClear_outSync (s : State) : (s.treeClear).outSync = s.outSync := rfl
@[simp] theorem State.treeClear_hostQ (s : State) : (s.treeClear).hostQ = s.hostQ := rfl
@[simp] theorem State.treeClear_resps (s : State) : (s.treeClear).resps = s.resps := rfl

/-! ## endOfData -/

@[simp] theorem State.endOfData_freq (s : State) : (s.endOfData).freq = s.freq := rfl
@[simp] theorem State.endOfData_hdr (s : State) : (s.endOfData).hdr = s.hdr := rfl
@[simp] theorem State.endOfData_wdata (s : State) : (s.endOfData).wdata = s.wdata := rfl
@[simp] theorem State.endOfData_res (s : State) : (s.endOfData).res = Config.failValue := rfl
@[simp] theorem State.endOfData_last (s : State) : (s.endOfData).last = .eod := rfl
@[simp] theorem State.endOfData_err (s : State) : (s.endOfData).err = s.err := rfl
@[simp] theorem State.endOfData_firstErr (s : State) : (s.endOfData).firstErr = s.firstErr := rfl
@[simp] theorem State.endOfData_tree (s : State) : (s.endOfData).tree = s.tree := rfl
@[simp] theorem State.endOfData_wbuf (s : State) : (s.endOfData).wbuf = s.wbuf := rfl
@[simp] theorem State.endOfData_wcnt (s : State) : (s.endOfData).wcnt = s.wcnt := rfl
@[simp] theorem State.endOfData_rbuf (s : State) : (s.endOfData).rbuf = s.rbuf := rfl
@[simp] theorem State.endOfData_rpos (s : State) : (s.endOfData).rpos = s.rpos := rfl
@[simp] theorem State.endOfData_input (s : State) : (s.endOfData).input = s.input := rfl
@[simp] theorem State.endOfData_inPos (s : State) : (s.endOfData).inPos = s.inPos := rfl
@[simp] theorem State.endOfData_out (s : State) : (s.endOfData).out = s.out := rfl
@[simp] theorem State.endOfData_outSync (s : State) : (s.endOfData).outSync = s.outSync := rfl
@[simp] theorem State.endOfData_hostQ (s : State) : (s.endOfData).hostQ = s.hostQ := rfl
@[simp] theorem State.endOfData_resps (s : State) : (s.endOfData).resps = s.resps := rfl

/-! ## respond -/

@[simp] theorem State.respond_freq (s : State) (r : Response) : (s.respond r).freq = s.freq := rfl
@[simp] theorem State.respond_hdr (s : State) (r : Response) : (s.respond r).hdr = s.hdr := rfl
@[simp] theorem State.respond_wdata (s : State) (r : Response) : (s.respond r).wdata = s.wdata := rfl
@[simp] theorem State.respond_res (s : State) (r : Response) : (s.respond r).res = s.res := rfl
@[simp] theorem State.respond_last (s : State) (r : Response) : (s.respond r).last = s.last := rfl
@[simp] theorem State.respond_err (s : State) (r : Response) : (s.respond r).err = s.err := rfl
@[simp] theorem State.respond_firstErr (s : State) (r : Response) : (s.respond r).firstErr = s.firstErr := rfl
@[simp] theorem State.respond_tree (s : State) (r : Response) : (s.respond r).tree = s.tree := rfl
@[simp] theorem State.respond_wbuf (s : State) (r : Response) : (s.respond r).wbuf = s.wbuf := rfl
@[simp] theorem State.respond_wcnt (s : State) (r : Response) : (s.respond r).wcnt = s.wcnt := rfl
@[simp] theorem State.respond_rbuf (s : State) (r : Response) : (s.respond r).rbuf = s.rbuf := rfl
@[simp] theorem State.respond_rpos (s : State) (r : Response) : (s.respond r).rpos = s.rpos := rfl
@[simp] theorem State.respond_input (s : State) (r : Response) : (s.respond r).input = s.input := rfl
@[simp] theorem State.respond_inPos (s : State) (r : Response) : (s.respond r).inPos = s.inPos := rfl
@[simp] theorem State.respond_out (s : State) (r : Response) : (s.respond r).out = s.out := rfl
@[simp] theorem State.respond_outSync (s : State) (r : Response) : (s.respond r).outSync = s.outSync := rfl
@[simp] theorem State.respond_hostQ (s : State) (r : Response) : (s.respond r).hostQ = s.hostQ := rfl
@[simp] theorem State.respond_resps (s : State) (r : Response) : (s.respond r).resps = s.resps ++ [r] := rfl

/-! ## latch and raise -/

/-- The latch after `latch c`: set, with the first error kept (R172). -/
theorem State.latch_eq (s : State) (c : Status) : s.latch c = { s with err := true, firstErr := if s.err then s.firstErr else c } := by
  obtain ⟨_, _, _, _, _, e⟩ := s
  cases e <;> rfl

@[simp] theorem State.latch_freq (s : State) (c : Status) : (s.latch c).freq = s.freq := by rw [State.latch_eq]
@[simp] theorem State.latch_hdr (s : State) (c : Status) : (s.latch c).hdr = s.hdr := by rw [State.latch_eq]
@[simp] theorem State.latch_wdata (s : State) (c : Status) : (s.latch c).wdata = s.wdata := by rw [State.latch_eq]
@[simp] theorem State.latch_res (s : State) (c : Status) : (s.latch c).res = s.res := by rw [State.latch_eq]
@[simp] theorem State.latch_last (s : State) (c : Status) : (s.latch c).last = s.last := by rw [State.latch_eq]
@[simp] theorem State.latch_err (s : State) (c : Status) : (s.latch c).err = true := by rw [State.latch_eq]
@[simp] theorem State.latch_firstErr (s : State) (c : Status) : (s.latch c).firstErr = if s.err then s.firstErr else c := by rw [State.latch_eq]
@[simp] theorem State.latch_tree (s : State) (c : Status) : (s.latch c).tree = s.tree := by rw [State.latch_eq]
@[simp] theorem State.latch_wbuf (s : State) (c : Status) : (s.latch c).wbuf = s.wbuf := by rw [State.latch_eq]
@[simp] theorem State.latch_wcnt (s : State) (c : Status) : (s.latch c).wcnt = s.wcnt := by rw [State.latch_eq]
@[simp] theorem State.latch_rbuf (s : State) (c : Status) : (s.latch c).rbuf = s.rbuf := by rw [State.latch_eq]
@[simp] theorem State.latch_rpos (s : State) (c : Status) : (s.latch c).rpos = s.rpos := by rw [State.latch_eq]
@[simp] theorem State.latch_input (s : State) (c : Status) : (s.latch c).input = s.input := by rw [State.latch_eq]
@[simp] theorem State.latch_inPos (s : State) (c : Status) : (s.latch c).inPos = s.inPos := by rw [State.latch_eq]
@[simp] theorem State.latch_out (s : State) (c : Status) : (s.latch c).out = s.out := by rw [State.latch_eq]
@[simp] theorem State.latch_outSync (s : State) (c : Status) : (s.latch c).outSync = s.outSync := by rw [State.latch_eq]
@[simp] theorem State.latch_hostQ (s : State) (c : Status) : (s.latch c).hostQ = s.hostQ := by rw [State.latch_eq]
@[simp] theorem State.latch_resps (s : State) (c : Status) : (s.latch c).resps = s.resps := by rw [State.latch_eq]

/-- All of what raising an error does (R172). -/
theorem State.raise_eq (s : State) (c : Status) :
    s.raise c = { s with last := c, err := true, firstErr := if s.err then s.firstErr else c } := by
  unfold State.raise; rw [State.latch_eq]

@[simp] theorem State.raise_freq (s : State) (c : Status) : (s.raise c).freq = s.freq := by rw [State.raise_eq]
@[simp] theorem State.raise_hdr (s : State) (c : Status) : (s.raise c).hdr = s.hdr := by rw [State.raise_eq]
@[simp] theorem State.raise_wdata (s : State) (c : Status) : (s.raise c).wdata = s.wdata := by rw [State.raise_eq]
@[simp] theorem State.raise_res (s : State) (c : Status) : (s.raise c).res = s.res := by rw [State.raise_eq]
@[simp] theorem State.raise_last (s : State) (c : Status) : (s.raise c).last = c := by rw [State.raise_eq]
@[simp] theorem State.raise_err (s : State) (c : Status) : (s.raise c).err = true := by rw [State.raise_eq]
@[simp] theorem State.raise_firstErr (s : State) (c : Status) : (s.raise c).firstErr = if s.err then s.firstErr else c := by rw [State.raise_eq]
@[simp] theorem State.raise_tree (s : State) (c : Status) : (s.raise c).tree = s.tree := by rw [State.raise_eq]
@[simp] theorem State.raise_wbuf (s : State) (c : Status) : (s.raise c).wbuf = s.wbuf := by rw [State.raise_eq]
@[simp] theorem State.raise_wcnt (s : State) (c : Status) : (s.raise c).wcnt = s.wcnt := by rw [State.raise_eq]
@[simp] theorem State.raise_rbuf (s : State) (c : Status) : (s.raise c).rbuf = s.rbuf := by rw [State.raise_eq]
@[simp] theorem State.raise_rpos (s : State) (c : Status) : (s.raise c).rpos = s.rpos := by rw [State.raise_eq]
@[simp] theorem State.raise_input (s : State) (c : Status) : (s.raise c).input = s.input := by rw [State.raise_eq]
@[simp] theorem State.raise_inPos (s : State) (c : Status) : (s.raise c).inPos = s.inPos := by rw [State.raise_eq]
@[simp] theorem State.raise_out (s : State) (c : Status) : (s.raise c).out = s.out := by rw [State.raise_eq]
@[simp] theorem State.raise_outSync (s : State) (c : Status) : (s.raise c).outSync = s.outSync := by rw [State.raise_eq]
@[simp] theorem State.raise_hostQ (s : State) (c : Status) : (s.raise c).hostQ = s.hostQ := by rw [State.raise_eq]
@[simp] theorem State.raise_resps (s : State) (c : Status) : (s.raise c).resps = s.resps := by rw [State.raise_eq]

/-! ## reset -/

@[simp] theorem State.resetWith_freq (inp : List Byte) : (State.resetWith inp).freq = Vector.replicate 256 0 := rfl
@[simp] theorem State.resetWith_hdr (inp : List Byte) : (State.resetWith inp).hdr = Vector.replicate 256 ⟨0, 0⟩ := rfl
@[simp] theorem State.resetWith_wdata (inp : List Byte) : (State.resetWith inp).wdata = 0 := rfl
@[simp] theorem State.resetWith_res (inp : List Byte) : (State.resetWith inp).res = 0 := rfl
@[simp] theorem State.resetWith_last (inp : List Byte) : (State.resetWith inp).last = .ok := rfl
@[simp] theorem State.resetWith_err (inp : List Byte) : (State.resetWith inp).err = false := rfl
@[simp] theorem State.resetWith_firstErr (inp : List Byte) : (State.resetWith inp).firstErr = .ok := rfl
@[simp] theorem State.resetWith_tree (inp : List Byte) : (State.resetWith inp).tree = CodeTree.empty := rfl
@[simp] theorem State.resetWith_wbuf (inp : List Byte) : (State.resetWith inp).wbuf = 0 := rfl
@[simp] theorem State.resetWith_wcnt (inp : List Byte) : (State.resetWith inp).wcnt = 0 := rfl
@[simp] theorem State.resetWith_rbuf (inp : List Byte) : (State.resetWith inp).rbuf = 0 := rfl
@[simp] theorem State.resetWith_rpos (inp : List Byte) : (State.resetWith inp).rpos = 8 := rfl
@[simp] theorem State.resetWith_input (inp : List Byte) : (State.resetWith inp).input = inp := rfl
@[simp] theorem State.resetWith_inPos (inp : List Byte) : (State.resetWith inp).inPos = 0 := rfl
@[simp] theorem State.resetWith_out (inp : List Byte) : (State.resetWith inp).out = [] := rfl
@[simp] theorem State.resetWith_outSync (inp : List Byte) : (State.resetWith inp).outSync = 0 := rfl
@[simp] theorem State.resetWith_hostQ (inp : List Byte) : (State.resetWith inp).hostQ = [] := rfl
@[simp] theorem State.resetWith_resps (inp : List Byte) : (State.resetWith inp).resps = [] := rfl

@[simp] theorem State.softReset_freq (s : State) : s.softReset.freq = Vector.replicate 256 0 := rfl
@[simp] theorem State.softReset_hdr (s : State) : s.softReset.hdr = Vector.replicate 256 ⟨0, 0⟩ := rfl
@[simp] theorem State.softReset_wdata (s : State) : s.softReset.wdata = 0 := rfl
@[simp] theorem State.softReset_res (s : State) : s.softReset.res = 0 := rfl
@[simp] theorem State.softReset_last (s : State) : s.softReset.last = .ok := rfl
@[simp] theorem State.softReset_err (s : State) : s.softReset.err = false := rfl
@[simp] theorem State.softReset_firstErr (s : State) : s.softReset.firstErr = .ok := rfl
@[simp] theorem State.softReset_tree (s : State) : s.softReset.tree = CodeTree.empty := rfl
@[simp] theorem State.softReset_wbuf (s : State) : s.softReset.wbuf = 0 := rfl
@[simp] theorem State.softReset_wcnt (s : State) : s.softReset.wcnt = 0 := rfl
@[simp] theorem State.softReset_rbuf (s : State) : s.softReset.rbuf = 0 := rfl
@[simp] theorem State.softReset_rpos (s : State) : s.softReset.rpos = 8 := rfl
@[simp] theorem State.softReset_input (s : State) : s.softReset.input = s.input := rfl
@[simp] theorem State.softReset_inPos (s : State) : s.softReset.inPos = s.inPos := rfl
@[simp] theorem State.softReset_out (s : State) : s.softReset.out = s.out := rfl
@[simp] theorem State.softReset_outSync (s : State) : s.softReset.outSync = s.outSync := rfl
@[simp] theorem State.softReset_hostQ (s : State) : s.softReset.hostQ = s.hostQ := rfl
@[simp] theorem State.softReset_resps (s : State) : s.softReset.resps = s.resps := rfl

@[simp] theorem State.hardReset_freq (s : State) (inp : List Byte) : (s.hardReset inp).freq = Vector.replicate 256 0 := rfl
@[simp] theorem State.hardReset_hdr (s : State) (inp : List Byte) : (s.hardReset inp).hdr = Vector.replicate 256 ⟨0, 0⟩ := rfl
@[simp] theorem State.hardReset_wdata (s : State) (inp : List Byte) : (s.hardReset inp).wdata = 0 := rfl
@[simp] theorem State.hardReset_res (s : State) (inp : List Byte) : (s.hardReset inp).res = 0 := rfl
@[simp] theorem State.hardReset_last (s : State) (inp : List Byte) : (s.hardReset inp).last = .ok := rfl
@[simp] theorem State.hardReset_err (s : State) (inp : List Byte) : (s.hardReset inp).err = false := rfl
@[simp] theorem State.hardReset_firstErr (s : State) (inp : List Byte) : (s.hardReset inp).firstErr = .ok := rfl
@[simp] theorem State.hardReset_tree (s : State) (inp : List Byte) : (s.hardReset inp).tree = CodeTree.empty := rfl
@[simp] theorem State.hardReset_wbuf (s : State) (inp : List Byte) : (s.hardReset inp).wbuf = 0 := rfl
@[simp] theorem State.hardReset_wcnt (s : State) (inp : List Byte) : (s.hardReset inp).wcnt = 0 := rfl
@[simp] theorem State.hardReset_rbuf (s : State) (inp : List Byte) : (s.hardReset inp).rbuf = 0 := rfl
@[simp] theorem State.hardReset_rpos (s : State) (inp : List Byte) : (s.hardReset inp).rpos = 8 := rfl
@[simp] theorem State.hardReset_input (s : State) (inp : List Byte) : (s.hardReset inp).input = inp := rfl
@[simp] theorem State.hardReset_inPos (s : State) (inp : List Byte) : (s.hardReset inp).inPos = 0 := rfl
@[simp] theorem State.hardReset_out (s : State) (inp : List Byte) : (s.hardReset inp).out = [] := rfl
@[simp] theorem State.hardReset_outSync (s : State) (inp : List Byte) : (s.hardReset inp).outSync = 0 := rfl
@[simp] theorem State.hardReset_hostQ (s : State) (inp : List Byte) : (s.hardReset inp).hostQ = s.hostQ := rfl
@[simp] theorem State.hardReset_resps (s : State) (inp : List Byte) : (s.hardReset inp).resps = s.resps := rfl

end Sys2Proof.Machine
end

