-- ==== Sys2Proof/Laws/Streams.lean ====
section
/-! SUPPORT. What the stream primitives and the bit-buffer procedures can do (spec/10_state.md R38 to R44, spec/40_bitstream.md R110, R111). -/

namespace Sys2Proof.Machine

/-! ## The input stream -/

theorem State.unread_eq_nil_iff (s : State) : s.unread = [] ↔ s.input.length ≤ s.inPos := by simp [State.unread]

theorem State.unread_eq_cons_iff (s : State) (v : Byte) :
    (∃ rest, s.unread = v :: rest) ↔ s.input[s.inPos]? = some v := by
  unfold State.unread
  rw [← List.head?_drop]
  cases s.input.drop s.inPos <;> simp

theorem State.srcNext_eq_none_iff (s : State) : s.srcNext = none ↔ s.input.length ≤ s.inPos := by
  rw [← s.unread_eq_nil_iff]
  unfold State.srcNext
  cases s.unread <;> simp

theorem State.srcNext_eq_some_iff (s t : State) (v : Byte) :
    s.srcNext = some (v, t) ↔ s.input[s.inPos]? = some v ∧ t = { s with inPos := s.inPos + 1 } := by
  rw [← s.unread_eq_cons_iff]
  unfold State.srcNext
  cases s.unread <;> simp [eq_comm]

/-- `SrcNext` takes exactly the first unread byte (R42). -/
theorem State.srcNext_unread {s t : State} {v : Byte} (h : s.srcNext = some (v, t)) : s.unread = v :: t.unread := by
  obtain ⟨hv, rfl⟩ := (s.srcNext_eq_some_iff t v).1 h
  obtain ⟨hlt, rfl⟩ := List.getElem?_eq_some_iff.1 hv
  exact List.drop_eq_getElem_cons hlt

/-! ## Slots and bits -/

theorem setSlot_getLsbD (buf : Byte) (i j : Nat) (b : Bool) (hj : j < 8) :
    (setSlot buf i b).getLsbD j = if j = i then b else buf.getLsbD j := by
  have h1 : (1#8 <<< i).getLsbD j = decide (j = i) := by
    simp only [BitVec.getLsbD_shiftLeft, BitVec.getLsbD_one, hj, decide_true, Bool.true_and]
    by_cases h : j = i
    · subst h; simp
    · simp [h]; omega
  unfold setSlot
  cases b
  · simp only [Bool.false_eq_true, if_false, BitVec.getLsbD_and, BitVec.getLsbD_not, h1, hj]
    by_cases h : j = i <;> simp [h]
  · simp only [if_true, BitVec.getLsbD_or, h1]
    by_cases h : j = i <;> simp [h]

@[simp] theorem bitsOf_nil : bitsOf [] = [] := rfl

@[simp] theorem bitsOf_append (xs ys : List Byte) : bitsOf (xs ++ ys) = bitsOf xs ++ bitsOf ys := by simp [bitsOf]

theorem bitsOf_cons (v : Byte) (vs : List Byte) : bitsOf (v :: vs) = (List.range 8).map v.getLsbD ++ bitsOf vs := by simp [bitsOf]

@[simp] theorem bitsOf_length (vs : List Byte) : (bitsOf vs).length = 8 * vs.length := by
  induction vs with
  | nil => rfl
  | cons v vs ih => rw [bitsOf_cons, List.length_append, ih]; simp; omega

@[simp] theorem State.pendingBits_length (s : State) : s.pendingBits.length = s.wcnt.val := by simp [State.pendingBits]

/-! ## PutBit -/

theorem State.putBit_lt {s : State} (b : Bool) (h : s.wcnt.val + 1 < 8) :
    s.putBit b = { s with wbuf := setSlot s.wbuf s.wcnt.val b, wcnt := ⟨s.wcnt.val + 1, h⟩ } := by simp [State.putBit, h]

theorem State.putBit_full {s : State} (b : Bool) (h : s.wcnt.val = 7) :
    s.putBit b = { s with out := s.out ++ [setSlot s.wbuf 7 b], wbuf := 0, wcnt := 0 } := by
  simp [State.putBit, h, State.sinkPut, State.clearWriter]

/-- All of what `PutBit` can do (R110): the writer's buffer and `OUT` may change, nothing else; the bit goes behind the pending ones. -/
theorem State.putBit_spec (s : State) (b : Bool) : ∃ bytes,
    s.putBit b = { s with wbuf := (s.putBit b).wbuf, wcnt := (s.putBit b).wcnt, out := s.out ++ bytes } ∧
    s.pendingBits ++ [b] = bitsOf bytes ++ (s.putBit b).pendingBits := by
  have hw := s.wcnt.isLt
  by_cases h : s.wcnt.val + 1 < 8
  · refine ⟨[], by simp [State.putBit_lt b h], ?_⟩
    simp only [State.putBit_lt b h, State.pendingBits, List.range_succ, List.map_append, List.map_cons, List.map_nil, bitsOf_nil, List.nil_append]
    congr 1
    · refine List.map_congr_left fun i hi => ?_
      rw [List.mem_range] at hi
      rw [setSlot_getLsbD _ _ _ _ (by omega), if_neg (by omega)]
    · rw [setSlot_getLsbD _ _ _ _ (by omega), if_pos rfl]
  · have h7 : s.wcnt.val = 7 := by omega
    refine ⟨[setSlot s.wbuf 7 b], by simp [State.putBit_full b h7], ?_⟩
    simp only [State.putBit_full b h7, State.pendingBits, h7, bitsOf_cons, bitsOf_nil, List.append_nil]
    rw [show ((0 : Fin 8).val) = 0 from rfl, List.range_zero, List.map_nil, List.append_nil, show List.range 8 = List.range 7 ++ [7] from rfl,
      List.map_append, List.map_cons, List.map_nil, setSlot_getLsbD _ _ _ _ (by omega), if_pos rfl]
    congr 1
    refine List.map_congr_left fun i hi => ?_
    rw [List.mem_range] at hi
    rw [setSlot_getLsbD _ _ _ _ (by omega), if_neg (by omega)]

/-- `PutBit` keeps the slots from `WCNT` on at 0 (R38). -/
theorem State.putBit_slots {s : State} (b : Bool) (hs : ∀ i, s.wcnt.val ≤ i → i < 8 → s.wbuf.getLsbD i = false) :
    ∀ i, (s.putBit b).wcnt.val ≤ i → i < 8 → (s.putBit b).wbuf.getLsbD i = false := by
  intro i hi h8
  have hw := s.wcnt.isLt
  by_cases h : s.wcnt.val + 1 < 8
  · rw [State.putBit_lt b h] at hi ⊢
    simp only at hi ⊢
    rw [setSlot_getLsbD _ _ _ _ h8, if_neg (by omega)]
    exact hs i (by omega) h8
  · rw [State.putBit_full b (by omega)]
    simp

@[simp] theorem State.putBits_nil (s : State) : s.putBits [] = s := rfl

@[simp] theorem State.putBits_cons (s : State) (b : Bool) (bs : List Bool) : s.putBits (b :: bs) = (s.putBit b).putBits bs := rfl

/-- All of what a sequence of `PutBit` can do. -/
theorem State.putBits_spec (s : State) (bs : List Bool) : ∃ bytes,
    s.putBits bs = { s with wbuf := (s.putBits bs).wbuf, wcnt := (s.putBits bs).wcnt, out := s.out ++ bytes } ∧
    s.pendingBits ++ bs = bitsOf bytes ++ (s.putBits bs).pendingBits := by
  induction bs generalizing s with
  | nil => exact ⟨[], by simp, by simp⟩
  | cons b bs ih =>
    obtain ⟨x, hx, hxb⟩ := s.putBit_spec b
    obtain ⟨y, hy, hyb⟩ := ih (s.putBit b)
    refine ⟨x ++ y, ?_, ?_⟩
    · rw [State.putBits_cons, ← List.append_assoc]
      generalize (s.putBit b).putBits bs = u at hy
      rw [hy]
      generalize s.putBit b = v at hx
      rw [hx]
    · rw [State.putBits_cons, bitsOf_append, List.append_assoc, ← hyb, ← List.append_assoc, ← hxb]
      simp

theorem State.putBits_slots {s : State} (bs : List Bool) (hs : ∀ i, s.wcnt.val ≤ i → i < 8 → s.wbuf.getLsbD i = false) :
    ∀ i, (s.putBits bs).wcnt.val ≤ i → i < 8 → (s.putBits bs).wbuf.getLsbD i = false := by
  induction bs generalizing s with
  | nil => exact hs
  | cons b bs ih => exact ih (State.putBit_slots b hs)

/-! ## GetBit -/

theorem State.getBit_lt {s : State} (h : s.rpos.val < 8) :
    s.getBit = some (s.rbuf.getLsbD s.rpos.val, { s with rpos := ⟨s.rpos.val + 1, by omega⟩ }) := by simp [State.getBit, h, getSlot]

theorem State.getBit_fetch {s : State} {v : Byte} (h : s.rpos.val = 8) (hv : s.input[s.inPos]? = some v) :
    s.getBit = some (v.getLsbD 0, { s with rbuf := v, rpos := 1, inPos := s.inPos + 1 }) := by
  have := (s.srcNext_eq_some_iff _ v).2 ⟨hv, rfl⟩
  simp [State.getBit, h, this, getSlot]

theorem State.getBit_end {s : State} (h : s.rpos.val = 8) (he : s.input.length ≤ s.inPos) : s.getBit = none := by
  simp [State.getBit, h, (s.srcNext_eq_none_iff).2 he]

/-- All of what `GetBit` can do when it answers a bit (R111): only the reader's buffer and position, and `IN_POS`, change. -/
theorem State.getBit_cases {s t : State} {b : Bool} (h : s.getBit = some (b, t)) :
    (s.rpos.val < 8 ∧ b = s.rbuf.getLsbD s.rpos.val ∧ t.rpos.val = s.rpos.val + 1 ∧ t = { s with rpos := t.rpos }) ∨
    (s.rpos.val = 8 ∧ ∃ v, s.input[s.inPos]? = some v ∧ b = v.getLsbD 0 ∧ t = { s with rbuf := v, rpos := 1, inPos := s.inPos + 1 }) := by
  by_cases hr : s.rpos.val < 8
  · rw [State.getBit_lt hr] at h
    simp only [Option.some.injEq, Prod.mk.injEq] at h
    obtain ⟨rfl, rfl⟩ := h
    exact .inl ⟨hr, rfl, rfl, rfl⟩
  · have h8 : s.rpos.val = 8 := by omega
    cases hv : s.input[s.inPos]? with
    | none => rw [State.getBit_end h8 (by simpa using hv)] at h; simp at h
    | some v =>
      rw [State.getBit_fetch h8 hv] at h
      simp only [Option.some.injEq, Prod.mk.injEq] at h
      exact .inr ⟨h8, v, rfl, h.1.symm, h.2.symm⟩

/-- `GetBit` answers the mark `EOD` only at the end of data, with no bit left (R111). -/
theorem State.getBit_eq_none {s : State} (h : s.getBit = none) : s.rpos.val = 8 ∧ s.input.length ≤ s.inPos := by
  by_cases hr : s.rpos.val < 8
  · rw [State.getBit_lt hr] at h; simp at h
  · have h8 : s.rpos.val = 8 := by omega
    refine ⟨h8, ?_⟩
    cases hv : s.input[s.inPos]? with
    | none => simpa using hv
    | some v => rw [State.getBit_fetch h8 hv] at h; simp at h

end Sys2Proof.Machine
end

