-- ==== Sys2Proof/Laws/Commands.lean ====
section
/-! SUPPORT. What each command can do: one inversion lemma per meaning, "if it answers `next t`, then one of these holds". -/

namespace Sys2Proof.Machine

open Host.Outcome

theorem execWritebit_next {b : Byte} {s t : State} (h : execWritebit b s = .next t) : t = (s.putBit (bitOperand b)).finish .ok := by
  simpa [execWritebit] using h.symm

theorem execReadbit_cases {s t : State} (h : execReadbit s = .next t) :
    (s.getBit = none ∧ t = s.endOfData) ∨ ∃ b s1, s.getBit = some (b, s1) ∧ t = s1.answer (bitWord b) := by
  unfold execReadbit at h
  split at h
  · exact .inl ⟨‹_›, by simpa using h.symm⟩
  · exact .inr ⟨_, _, ‹_›, by simpa using h.symm⟩

theorem execWritebyte_next {v : Byte} {s t : State} (h : execWritebyte v s = .next t) : t = (s.sinkPut v).finish .ok := by
  simpa [execWritebyte] using h.symm

theorem execReadbyte_cases {s t : State} (h : execReadbyte s = .next t) :
    (s.srcNext = none ∧ t = s.endOfData) ∨ ∃ v s1, s.srcNext = some (v, s1) ∧ t = s1.answer (byteWord v) := by
  unfold execReadbyte at h
  split at h
  · exact .inl ⟨‹_›, by simpa using h.symm⟩
  · exact .inr ⟨_, _, ‹_›, by simpa using h.symm⟩

theorem execWriteint_next {s t : State} (h : execWriteint s = .next t) : t = (s.sinkPutAll (wordBytes s.wdata)).finish .ok := by
  simpa [execWriteint] using h.symm

theorem execReadint_cases {s t : State} (h : execReadint s = .next t) :
    (s.unread.length < 4 ∧ t = s.endOfData) ∨
    ∃ b0 b1 b2 b3 rest, s.unread = b0 :: b1 :: b2 :: b3 :: rest ∧
      t = { s with inPos := s.inPos + 4, res := bytesWord b0 b1 b2 b3, last := .ok } := by
  unfold execReadint at h
  split at h
  · exact .inr ⟨_, _, _, _, _, ‹_›, by simpa [State.answer] using h.symm⟩
  · rename_i hn
    refine .inl ⟨?_, by simpa using h.symm⟩
    match hu : s.unread with
    | [] | [_] | [_, _] | [_, _, _] => simp
    | b0 :: b1 :: b2 :: b3 :: rest => exact absurd hu (hn b0 b1 b2 b3 rest)

theorem execFlush_cases {s t : State} (h : execFlush s = .next t) :
    (s.wcnt = 0 ∧ t = s.sinkSync.finish .ok) ∨ (s.wcnt ≠ 0 ∧ t = (s.sinkPut s.wbuf).clearWriter.sinkSync.finish .ok) := by
  unfold execFlush at h
  split at h
  · exact .inl ⟨‹_›, by simpa using h.symm⟩
  · exact .inr ⟨‹_›, by simpa using h.symm⟩

theorem execBuild_next {s t : State} (h : execBuild s = .next t) : t = { s with tree := buildTree s.freq, last := .ok } := by
  simpa [execBuild, State.finish] using h.symm

theorem execStore_cases {s t : State} (h : execStore s = .next t) :
    ∃ bytes, s.tree.storeBytes = some bytes ∧ t = (s.sinkPutAll bytes).finish .ok := by
  unfold execStore at h
  split at h
  · exact ⟨_, ‹_›, by simpa using h.symm⟩
  · simp at h

theorem execRebuild_cases {d : BitVec 9} {s t : State} (h : execRebuild d s = .next t) :
    (256 < d.toNat ∧ t = s.raise .illegalCmd) ∨
    (d.toNat ≤ 256 ∧ rebuildTree (headerOperand d s) = none ∧ t = s.treeClear.raise .badHeader) ∨
    (d.toNat ≤ 256 ∧ ∃ u, rebuildTree (headerOperand d s) = some u ∧ t = { s with tree := u, last := .ok }) := by
  unfold execRebuild at h
  split at h
  · exact .inl ⟨‹_›, by simpa using h.symm⟩
  · rename_i hd
    have hd : d.toNat ≤ 256 := by simpa using hd
    split at h
    · exact .inr (.inr ⟨hd, _, ‹_›, by simpa [State.finish] using h.symm⟩)
    · exact .inr (.inl ⟨hd, ‹_›, by simpa using h.symm⟩)

theorem execEncode_cases {y : Byte} {s t : State} (h : execEncode y s = .next t) :
    (s.tree.leafOf y = none ∧ t = s.raise .invalidSymbol) ∨
    ∃ n bits, s.tree.leafOf y = some n ∧ s.tree.codeword n = some bits ∧ t = (s.putBits bits).finish .ok := by
  unfold execEncode at h
  split at h
  · exact .inl ⟨‹_›, by simpa using h.symm⟩
  · split at h
    · exact .inr ⟨_, _, ‹_›, ‹_›, by simpa using h.symm⟩
    · simp at h

/-- `t` is `s` after some bit reads: only the reader's buffer and position, and `IN_POS`, differ, and `IN_POS` has not gone back. -/
structure State.ReadsTo (s t : State) : Prop where
  same : t = { s with rbuf := t.rbuf, rpos := t.rpos, inPos := t.inPos }
  forward : s.inPos ≤ t.inPos
  bounded : s.inPos ≤ s.input.length → t.inPos ≤ s.input.length

theorem State.ReadsTo.refl (s : State) : s.ReadsTo s := ⟨rfl, le_refl _, id⟩

theorem State.ReadsTo.trans {s t u : State} (h : s.ReadsTo t) (g : t.ReadsTo u) : s.ReadsTo u := by
  have hin : t.input = s.input := by rw [h.same]
  refine ⟨?_, le_trans h.forward g.forward, fun hs => ?_⟩
  · have hg := g.same
    rw [h.same] at hg
    exact hg
  · have := g.bounded (by rw [hin]; exact h.bounded hs)
    rwa [hin] at this

theorem State.ReadsTo.of_getBit {s t : State} {b : Bool} (h : s.getBit = some (b, t)) : s.ReadsTo t := by
  rcases State.getBit_cases h with ⟨-, -, -, e⟩ | ⟨-, v, hv, -, e⟩
  · rw [e]; exact ⟨rfl, le_refl _, id⟩
  · obtain ⟨hlt, -⟩ := List.getElem?_eq_some_iff.1 hv
    rw [e]; exact ⟨rfl, by simp, fun _ => hlt⟩

/-- One level of the walk of `DECODE` (R151). -/
theorem State.decodeFrom_succ {k : Nat} {n : Nat} {s : State} {nd : Node} (hn : s.tree.nodes[n]? = some nd) :
    s.decodeFrom (k + 1) n =
      if nd.c0 = none ∧ nd.c1 = none then
        match nd.sym with
        | some y => .symbol y s
        | none => .lost
      else
        match s.getBit with
        | none => .eos s
        | some (b, s1) =>
          match (if b then nd.c1 else nd.c0) with
          | some c => s1.decodeFrom k c
          | none => .lost := by
  simp only [State.decodeFrom, hn]
  first | done | rfl

/-- How a walk of `DECODE` can end: it has only read bits, and where it ends at the sentinel there is no bit left (R151, R173). -/
theorem State.decodeFrom_cases (k : Nat) (n : Nat) (s : State) :
    (∃ y t, s.decodeFrom k n = .symbol y t ∧ s.ReadsTo t) ∨
    (∃ t, s.decodeFrom k n = .eos t ∧ s.ReadsTo t ∧ t.rpos.val = 8 ∧ t.input.length ≤ t.inPos) ∨ s.decodeFrom k n = .lost := by
  induction k generalizing n s with
  | zero => exact .inr (.inr rfl)
  | succ k ih =>
    cases hn : s.tree.nodes[n]? with
    | none => exact .inr (.inr (by rw [State.decodeFrom, hn]))
    | some nd =>
      rw [State.decodeFrom_succ hn]
      split
      · cases nd.sym with
        | none => exact .inr (.inr rfl)
        | some y => exact .inl ⟨y, s, rfl, .refl s⟩
      · cases hb : s.getBit with
        | none => exact .inr (.inl ⟨s, rfl, .refl s, State.getBit_eq_none hb⟩)
        | some p =>
          obtain ⟨b, s1⟩ := p
          have h1 := State.ReadsTo.of_getBit hb
          dsimp only
          cases (if b = true then nd.c1 else nd.c0) with
          | none => exact .inr (.inr rfl)
          | some c =>
            rcases ih c s1 with ⟨y, t, e, g⟩ | ⟨t, e, g, he⟩ | e
            · exact .inl ⟨y, t, e, h1.trans g⟩
            · exact .inr (.inl ⟨t, e, h1.trans g, he⟩)
            · exact .inr (.inr e)

theorem execDecode_cases {s t : State} (h : execDecode s = .next t) :
    (s.tree.root = none ∧ t = { s with res := Config.failValue }.raise .noTree) ∨
    ∃ r, s.tree.root = some r ∧
      ((∃ y s1, s.decodeFrom Config.maxLevels r = .symbol y s1 ∧ t = s1.answer (byteWord y)) ∨
       ∃ s1, s.decodeFrom Config.maxLevels r = .eos s1 ∧ t = { s1 with res := Config.failValue }.raise .eos) := by
  unfold execDecode at h
  split at h
  · exact .inl ⟨‹_›, by simpa using h.symm⟩
  · refine .inr ⟨_, ‹_›, ?_⟩
    split at h
    · exact .inl ⟨_, _, ‹_›, by simpa using h.symm⟩
    · exact .inr ⟨_, ‹_›, by simpa using h.symm⟩
    · simp at h

theorem execSreset_next {s t : State} (h : execSreset s = .next t) : t = s.softReset := by simpa [execSreset] using h.symm

/-- A command is never refused: every arm has a meaning. -/
theorem exec_ne_refused (i : Instr) (s : State) (r : Refusal) : exec i s ≠ .refused r := by
  cases i <;> simp only [exec, execWritebit, execReadbit, execWritebyte, execReadbyte, execWriteint, execReadint, execFlush, execBuild,
    execStore, execRebuild, execEncode, execDecode, execSreset] <;> (repeat' split) <;> simp

end Sys2Proof.Machine
end

