-- ==== Sys2Proof/Laws/PerInstr.lean ====
section
/-! SUPPORT. Facts about every command as syntax, one lemma per command: where the encoder puts the opcode and the operand. -/

namespace Sys2Proof.Laws.EncodeFields

/-- The word of a command holds its opcode in bits 31 to 24 and its operand bits below (R91). -/
def Statement (i : Instr) : Prop := opField (encode i) = opcode i ∧ (encode i).extractLsb' 0 24 = operandBits i

theorem fields_append (op : BitVec 8) (x : BitVec 24) :
    (op ++ x : BitVec 32).extractLsb' 24 8 = op ∧ (op ++ x : BitVec 32).extractLsb' 0 24 = x :=
  ⟨BitVec.extractLsb'_append_eq_left, BitVec.extractLsb'_append_eq_right⟩

theorem writebit (imm8 : Byte) : Statement (.writebit imm8) := fields_append _ _
theorem readbit : Statement .readbit := fields_append _ _
theorem writebyte (imm8 : Byte) : Statement (.writebyte imm8) := fields_append _ _
theorem readbyte : Statement .readbyte := fields_append _ _
theorem writeint : Statement .writeint := fields_append _ _
theorem readint : Statement .readint := fields_append _ _
theorem flush : Statement .flush := fields_append _ _
theorem build : Statement .build := fields_append _ _
theorem store : Statement .store := fields_append _ _
theorem rebuild (imm9 : BitVec 9) : Statement (.rebuild imm9) := fields_append _ _
theorem encode (imm8 : Byte) : Statement (.encode imm8) := fields_append _ _
theorem decode : Statement .decode := fields_append _ _
theorem sreset : Statement .sreset := fields_append _ _

end Sys2Proof.Laws.EncodeFields
end

