-- ==== Sys2Proof/Laws/Step.lean ====
section
/-! SUPPORT. What a step can do: one access served, said once. -/

namespace Sys2Proof.Machine

theorem step_idle {s : State} (h : s.hostQ = []) : step s = .next s := by simp [step, h]

theorem step_cons {s : State} {e : HostEvent} {rest : List HostEvent} (h : s.hostQ = e :: rest) :
    step s = ({ s with hostQ := rest }).serve e := by simp [step, h]

/-- `FREQ[y]` stands at `4*y` (R62). -/
theorem regAt_freq {addr : Addr} {y : Fin 256} (h : addr.toNat = 4 * y.val) : regAt addr = some (.freq y) := by
  have hy := y.isLt
  simp only [regAt, h]
  rw [if_neg (by omega), if_pos (by omega)]
  congr 2
  apply Fin.ext
  simp

/-- `HDR[i]` stands at `0x400 + 4*i` (R62). -/
theorem regAt_hdr {addr : Addr} {i : Fin 256} (h : addr.toNat = 0x400 + 4 * i.val) : regAt addr = some (.hdr i) := by
  have hi := i.isLt
  simp only [regAt, h]
  rw [if_neg (by omega), if_neg (by omega), if_pos (by omega)]
  congr 2
  apply Fin.ext
  simp

/-- `Execute(w)` (R163): a command, or `ILLEGAL_CMD`. -/
theorem State.execute_cases {w : Word} {s t : State} (h : s.execute w = .next t) :
    (∃ i, decode w = .ok i ∧ exec i s = .next t) ∨ (∃ e, decode w = .error e ∧ t = s.raise .illegalCmd) := by
  unfold State.execute at h
  split at h
  · exact .inl ⟨_, ‹_›, h⟩
  · exact .inr ⟨_, ‹_›, by simpa using h.symm⟩

/-- `HostRead` (R161): a register's word, or `BAD_ACCESS`. -/
theorem State.hostRead_cases (addr : Addr) (s : State) :
    (∃ v, (regAt addr).bind (readReg s) = some v ∧ s.hostRead addr = s.respond { bus := .okay, data := some v }) ∨
    ((regAt addr).bind (readReg s) = none ∧ s.hostRead addr = (s.latch .badAccess).respond { bus := .error, data := some 0 }) := by
  unfold State.hostRead
  cases h : (regAt addr).bind (readReg s) <;> simp

/-- `HostWrite` (R162): a table entry, `WDATA`, a command, or `BAD_ACCESS`. -/
theorem State.hostWrite_cases {addr : Addr} {data : Word} {s t : State} (h : s.hostWrite addr data = .next t) :
    (∃ y, regAt addr = some (.freq y) ∧ t = ({ s with freq := s.freq.set y.val data }).respond { bus := .okay, data := none }) ∨
    (∃ i, regAt addr = some (.hdr i) ∧ t = ({ s with hdr := s.hdr.set i.val { sym := data.extractLsb' 0 8, dep := data.extractLsb' 8 8 } }).respond
      { bus := .okay, data := none }) ∨
    (regAt addr = some .wdata ∧ t = ({ s with wdata := data }).respond { bus := .okay, data := none }) ∨
    (regAt addr = some .cmd ∧ ∃ s1, s.execute data = .next s1 ∧ t = s1.respond { bus := .okay, data := none }) ∨
    t = (s.latch .badAccess).respond { bus := .error, data := none } := by
  unfold State.hostWrite at h
  cases hr : regAt addr with
  | none => rw [hr] at h; simp at h; simp [← h]
  | some r =>
    rw [hr] at h
    cases r with
    | freq y => simp [respondOkay] at h; exact .inl ⟨y, rfl, h.symm⟩
    | hdr i => simp [respondOkay] at h; exact .inr (.inl ⟨i, rfl, h.symm⟩)
    | wdata => simp [respondOkay] at h; exact .inr (.inr (.inl ⟨rfl, h.symm⟩))
    | cmd =>
      simp only [respondOkay] at h
      split at h
      · rename_i s1 hs
        exact .inr (.inr (.inr (.inl ⟨rfl, s1, hs, by simpa using h.symm⟩)))
      · simp at h
      · simp at h
    | res => simp at h; simp [← h]
    | status => simp at h; simp [← h]
    | nleaf => simp at h; simp [← h]
    | wstate => simp at h; simp [← h]
    | rstate => simp at h; simp [← h]

/-- All of what a step can do: nothing, a read, a write, a hardware reset. -/
theorem step_cases {s t : State} (h : step s = .next t) :
    (s.hostQ = [] ∧ t = s) ∨
    (∃ addr rest, s.hostQ = .read addr :: rest ∧ t = ({ s with hostQ := rest }).hostRead addr) ∨
    (∃ addr data rest, s.hostQ = .write addr data :: rest ∧ ({ s with hostQ := rest }).hostWrite addr data = .next t) ∨
    (∃ input rest, s.hostQ = .reset input :: rest ∧ t = ({ s with hostQ := rest }).hardReset input) := by
  unfold step at h
  cases hq : s.hostQ with
  | nil => rw [hq] at h; simp at h; exact .inl ⟨rfl, h.symm⟩
  | cons e rest =>
    rw [hq] at h
    cases e with
    | read addr => simp [State.serve] at h; exact .inr (.inl ⟨addr, rest, rfl, h.symm⟩)
    | write addr data => exact .inr (.inr (.inl ⟨addr, data, rest, rfl, h⟩))
    | reset input => simp [State.serve] at h; exact .inr (.inr (.inr ⟨input, rest, rfl, h.symm⟩))

/-- The word placed by `withFetchWord` is the next one executed. -/
theorem step_withFetchWord (s : State) (nbits w : Nat) :
    step (s.withFetchWord nbits w) = respondOkay (s.execute (BitVec.ofNat 32 (w % 2 ^ nbits))) := by
  have h : regAt Config.cmdAddr = some .cmd := by decide
  simp [step, State.withFetchWord, State.serve, State.hostWrite, h]

end Sys2Proof.Machine
end

