-- ==== Sys2Proof/Laws/Tree.lean ====
section
/-! SUPPORT. The node arena: what the tree operations do to each part of the tree (spec/10_state.md R30 to R35), and the basic facts about
paths, the heap order and the empty tree. -/

namespace Sys2Proof.Machine

/-! ## Updates of the tree, field by field -/

@[simp] theorem CodeTree.addNode_nodes (t : CodeTree) (nd : Node) : (t.addNode nd).nodes = t.nodes ++ [nd] := rfl
@[simp] theorem CodeTree.addNode_root (t : CodeTree) (nd : Node) : (t.addNode nd).root = t.root := rfl
@[simp] theorem CodeTree.addNode_leaf (t : CodeTree) (nd : Node) : (t.addNode nd).leaf = t.leaf := rfl
@[simp] theorem CodeTree.addNode_nleaf (t : CodeTree) (nd : Node) : (t.addNode nd).nleaf = t.nleaf := rfl
@[simp] theorem CodeTree.updateNode_nodes (t : CodeTree) (n : Nat) (f : Node → Node) : (t.updateNode n f).nodes = t.nodes.modify n f := rfl
@[simp] theorem CodeTree.updateNode_root (t : CodeTree) (n : Nat) (f : Node → Node) : (t.updateNode n f).root = t.root := rfl
@[simp] theorem CodeTree.updateNode_leaf (t : CodeTree) (n : Nat) (f : Node → Node) : (t.updateNode n f).leaf = t.leaf := rfl
@[simp] theorem CodeTree.updateNode_nleaf (t : CodeTree) (n : Nat) (f : Node → Node) : (t.updateNode n f).nleaf = t.nleaf := rfl
@[simp] theorem CodeTree.setLeaf_nodes (t : CodeTree) (y : Byte) (n : Nat) : (t.setLeaf y n).nodes = t.nodes := rfl
@[simp] theorem CodeTree.setLeaf_root (t : CodeTree) (y : Byte) (n : Nat) : (t.setLeaf y n).root = t.root := rfl
@[simp] theorem CodeTree.setLeaf_nleaf (t : CodeTree) (y : Byte) (n : Nat) : (t.setLeaf y n).nleaf = t.nleaf := rfl

/-! ## One entry of the arena -/

/-- `Alloc()` gives the entry `NN` and leaves the others (R34). -/
theorem CodeTree.addNode_get (t : CodeTree) (nd : Node) (n : Nat) :
    (t.addNode nd).nodes[n]? = if n = t.nodes.length then some nd else t.nodes[n]? := by
  rw [CodeTree.addNode_nodes]
  by_cases h : n < t.nodes.length
  · rw [List.getElem?_append_left h, if_neg (by omega)]
  · rw [List.getElem?_append_right (by omega)]
    by_cases e : n = t.nodes.length
    · simp [e]
    · rw [if_neg e, List.getElem?_eq_none (by simp; omega), List.getElem?_eq_none (by omega)]

/-- Field writes on entry `n` leave the other entries. -/
theorem CodeTree.updateNode_get (t : CodeTree) (n m : Nat) (f : Node → Node) :
    (t.updateNode n f).nodes[m]? = if n = m then (t.nodes[m]?).map f else t.nodes[m]? := by
  rw [CodeTree.updateNode_nodes, List.getElem?_modify]
  by_cases h : n = m <;> simp [h]

/-- `LEAF[y] <- n` leaves the other symbols (R31). -/
theorem CodeTree.setLeaf_leafOf (t : CodeTree) (y z : Byte) (n : Nat) :
    (t.setLeaf y n).leafOf z = if z = y then some n else t.leafOf z := by
  unfold CodeTree.leafOf CodeTree.setLeaf
  simp only [Vector.get_eq_getElem, Vector.getElem_set]
  by_cases h : z = y
  · simp [h]
  · have : (symIndex y).val ≠ (symIndex z).val := fun e => h (BitVec.eq_of_toNat_eq e.symm)
    simp [h, this]

theorem CodeTree.isLeaf_iff (t : CodeTree) (n : Nat) :
    t.isLeaf n = true ↔ ∃ nd, t.nodes[n]? = some nd ∧ nd.c0 = none ∧ nd.c1 = none := by
  unfold CodeTree.isLeaf
  cases t.nodes[n]? <;> simp

theorem CodeTree.isLeaf_lt {t : CodeTree} {n : Nat} (h : t.isLeaf n = true) : n < t.nodes.length := by
  obtain ⟨nd, hn, -⟩ := (t.isLeaf_iff n).1 h
  exact (List.getElem?_eq_some_iff.1 hn).1

@[simp] theorem CodeTree.empty_nodes : CodeTree.empty.nodes = [] := rfl
@[simp] theorem CodeTree.empty_root : CodeTree.empty.root = none := rfl
@[simp] theorem CodeTree.empty_nleaf : CodeTree.empty.nleaf = 0 := rfl
@[simp] theorem CodeTree.empty_leafOf (y : Byte) : CodeTree.empty.leafOf y = none := by
  simp [CodeTree.leafOf, CodeTree.empty, Vector.get_eq_getElem]

/-! ## Paths -/

@[simp] theorem CodeTree.follow_nil (t : CodeTree) (n : Nat) : t.follow n [] = if n < t.nodes.length then some n else none := rfl

@[simp] theorem CodeTree.follow_cons (t : CodeTree) (n : Nat) (b : Bool) (p : List Bool) :
    t.follow n (b :: p) = (t.child n b).bind fun m => t.follow m p := rfl

theorem CodeTree.follow_append (t : CodeTree) (n : Nat) (p q : List Bool) (h : n < t.nodes.length) :
    t.follow n (p ++ q) = (t.follow n p).bind fun m => t.follow m q := by
  induction p generalizing n with
  | nil => simp [h]
  | cons b p ih =>
    simp only [List.cons_append, CodeTree.follow_cons]
    cases hc : t.child n b with
    | none => rfl
    | some m =>
      simp only [Option.bind_some]
      by_cases hm : m < t.nodes.length
      · exact ih m hm
      · have : ∀ r, t.follow m r = none := by
          intro r
          cases r with
          | nil => simp [hm]
          | cons c r =>
            have hn : t.nodes[m]? = none := List.getElem?_eq_none (by omega)
            simp [CodeTree.child, CodeTree.c0, CodeTree.c1, hn]
        simp [this]

/-! ## The heap order of BUILD -/

/-- `Key(x) < Key(y)` as R131 says it. -/
theorem HeapEntry.before_iff (x y : HeapEntry) :
    x.before y = true ↔ x.weight.toNat < y.weight.toNat ∨ (x.weight = y.weight ∧ x.sym.toNat < y.sym.toNat) := by
  simp [HeapEntry.before, BitVec.lt_def]

theorem HeapEntry.before_trans {x y z : HeapEntry} (h : x.before y = true) (g : y.before z = true) : x.before z = true := by
  rw [HeapEntry.before_iff] at *
  rcases h with h | ⟨h, h'⟩ <;> rcases g with g | ⟨g, g'⟩
  · exact .inl (by omega)
  · exact .inl (by rw [← g]; exact h)
  · exact .inl (by rw [h]; exact g)
  · exact .inr ⟨h.trans g, by omega⟩

/-- Two entries with different symbols are ordered one way or the other (R131). -/
theorem HeapEntry.before_total {x y : HeapEntry} (h : x.sym ≠ y.sym) : x.before y = true ∨ y.before x = true := by
  rw [HeapEntry.before_iff, HeapEntry.before_iff]
  have hs : x.sym.toNat ≠ y.sym.toNat := fun e => h (BitVec.eq_of_toNat_eq e)
  rcases Nat.lt_trichotomy x.weight.toNat y.weight.toNat with hw | hw | hw
  · exact .inl (.inl hw)
  · have := BitVec.eq_of_toNat_eq hw
    rcases Nat.lt_or_gt_of_ne hs with h1 | h1
    · exact .inl (.inr ⟨this, h1⟩)
    · exact .inr (.inr ⟨this.symm, h1⟩)
  · exact .inr (.inl hw)

theorem heapInsert_perm (e : HeapEntry) (h : List HeapEntry) : (heapInsert e h).Perm (e :: h) := by
  induction h with
  | nil => exact .refl _
  | cons x xs ih =>
    unfold heapInsert
    split
    · exact .refl _
    · exact (ih.cons x).trans (.swap e x xs)

/-- Inserting an entry whose symbol is new keeps the heap in key order, so `ExtractMin` is its head (R131). -/
theorem heapInsert_sorted {e : HeapEntry} {h : List HeapEntry} (hs : h.Pairwise fun x y => x.before y = true)
    (hn : ∀ x ∈ h, x.sym ≠ e.sym) : (heapInsert e h).Pairwise fun x y => x.before y = true := by
  induction h with
  | nil => simp [heapInsert]
  | cons x xs ih =>
    obtain ⟨hx, hxs⟩ := List.pairwise_cons.1 hs
    unfold heapInsert
    split
    · rename_i hb
      refine List.pairwise_cons.2 ⟨fun y hy => ?_, hs⟩
      rcases List.mem_cons.1 hy with rfl | hy
      · exact hb
      · exact HeapEntry.before_trans hb (hx y hy)
    · rename_i hb
      refine List.pairwise_cons.2 ⟨fun y hy => ?_, ih hxs fun z hz => hn z (List.mem_cons_of_mem _ hz)⟩
      rcases List.mem_cons.1 ((heapInsert_perm e xs).subset hy) with rfl | hy
      · exact (HeapEntry.before_total (hn x (List.mem_cons_self ..))).resolve_right hb
      · exact hx y hy

/-! ## The empty tree -/

/-- The empty tree is well-formed (R33, R35). -/
theorem CodeTree.empty_wf : CodeTree.empty.WF where
  rooted := .inl ⟨rfl, rfl, CodeTree.empty_leafOf⟩
  twoChildren n := by simp [CodeTree.c0, CodeTree.c1]
  parents n b m h := by cases b <;> simp [CodeTree.child, CodeTree.c0, CodeTree.c1] at h
  leafSym n h := absurd (CodeTree.isLeaf_lt h) (by simp)
  leafIndex y n h := by simp at h
  leaves := by decide
  nodeCount h := by simp at h
  depth p y h := by simp [CodeTree.IsCode, CodeTree.lookup] at h

/-! ## What a tree's shape depends on -/

theorem CodeTree.isLeaf_congr {t u : CodeTree} (hn : t.nodes = u.nodes) (n : Nat) : t.isLeaf n = u.isLeaf n := by
  simp only [CodeTree.isLeaf, hn]

theorem CodeTree.follow_congr {t u : CodeTree} (hn : t.nodes = u.nodes) (n : Nat) (p : List Bool) : t.follow n p = u.follow n p := by
  induction p generalizing n with
  | nil => simp only [CodeTree.follow, hn]
  | cons b p ih => simp only [CodeTree.follow, CodeTree.child, CodeTree.c0, CodeTree.c1, hn, ih]

/-- Codewords are read off the nodes and the root alone: the leaf index has no part in them. -/
theorem CodeTree.lookup_congr {t u : CodeTree} (hn : t.nodes = u.nodes) (hr : t.root = u.root) (p : List Bool) : t.lookup p = u.lookup p := by
  simp only [CodeTree.lookup, hr, CodeTree.follow_congr hn, CodeTree.isLeaf_congr hn, CodeTree.sym, hn]

/-! ## The loops of BUILD and REBUILD -/

/-- What one merge keeps, the merge loop of `BUILD` keeps (R130). -/
theorem Build.mergeAll_keeps {P : Build → Prop} (hm : ∀ x y rest t, P { tree := t, heap := x :: y :: rest } → P (Build.merge x y rest t)) (k : Nat) :
    ∀ b, P b → P (Build.mergeAll k b) := by
  induction k with
  | zero => exact fun b h => h
  | succ k ih =>
    intro b h
    obtain ⟨t, heap⟩ := b
    match heap, h with
    | [], h => exact h
    | [_], h => exact h
    | x :: y :: rest, h => exact ih _ (hm x y rest t h)

/-- The merge loop ends with at most one node in the heap (R130). -/
theorem Build.mergeAll_heap_length (k : Nat) : ∀ b : Build, b.heap.length ≤ k → (Build.mergeAll k b).heap.length = min 1 b.heap.length := by
  induction k with
  | zero => intro b h; simp only [Build.mergeAll]; omega
  | succ k ih =>
    intro b h
    obtain ⟨t, heap⟩ := b
    match heap, h with
    | [], _ => simp [Build.mergeAll]
    | [_], _ => simp [Build.mergeAll]
    | x :: y :: rest, h =>
      have hl : (Build.merge x y rest t).heap.length = rest.length + 1 := (heapInsert_perm _ _).length_eq
      have hk : (Build.merge x y rest t).heap.length ≤ k := by
        simp only [List.length_cons] at h
        omega
      show (Build.mergeAll k (Build.merge x y rest t)).heap.length = _
      rw [ih _ hk, hl]
      simp only [List.length_cons]
      omega

/-- The tree of `BUILD` is that of the merge loop with the last node as its root (R130). -/
theorem buildTree_eq (freq : Vector Word 256) : let b := Build.mergeAll (buildLeaves freq).heap.length (buildLeaves freq)
    (buildTree freq).nodes = b.tree.nodes ∧ (buildTree freq).leaf = b.tree.leaf ∧ (buildTree freq).nleaf = b.tree.nleaf ∧
    ∀ e, b.heap = [e] → (buildTree freq).root = some e.id := by
  simp only [buildTree]
  split
  · rename_i e he
    exact ⟨rfl, rfl, rfl, fun e' he' => by rw [he] at he'; simp only [List.cons.injEq, and_true] at he'; rw [he']⟩
  · rename_i hn
    exact ⟨rfl, rfl, rfl, fun e he => absurd he (hn e)⟩

/-- What one symbol's pass keeps, the first loop of `BUILD` keeps (R130). -/
theorem Build.foldl_addLeaf_keeps {P : Build → Prop} {freq : Vector Word 256} (ha : ∀ b s, P b → P (Build.addLeaf freq b s)) (l : List (Fin 256)) :
    ∀ b, P b → P (l.foldl (Build.addLeaf freq) b) := by
  induction l with
  | nil => exact fun b h => h
  | cons s l ih => exact fun b h => ih _ (ha b s h)

/-- An unused symbol makes no leaf (R130). -/
theorem Build.addLeaf_unused {freq : Vector Word 256} {s : Fin 256} (h : freq.get s = 0) (b : Build) : Build.addLeaf freq b s = b := by
  simp [Build.addLeaf, h]

/-- The first loop of `BUILD` may pass over any list of symbols, in ascending order, that holds all the used ones (R130). -/
theorem buildLeaves_of_used {freq : Vector Word 256} {syms : List (Fin 256)} (hs : (List.finRange 256).filter (fun s => decide (s ∈ syms)) = syms)
    (hu : ∀ s, s ∉ syms → freq.get s = 0) :
    buildLeaves freq =
      let b := syms.foldl (Build.addLeaf freq) { tree := CodeTree.empty, heap := [] }
      { b with tree := { b.tree with nleaf := BitVec.ofNat 9 b.heap.length } } := by
  have key (l : List (Fin 256)) : ∀ b, l.foldl (Build.addLeaf freq) b = (l.filter fun s => decide (s ∈ syms)).foldl (Build.addLeaf freq) b := by
    induction l with
    | nil => exact fun b => rfl
    | cons s l ih =>
      intro b
      by_cases h : s ∈ syms
      · simp only [List.foldl_cons, List.filter_cons, decide_eq_true h, if_true, ih]
      · simp only [List.foldl_cons, List.filter_cons, decide_eq_false h, Bool.false_eq_true, if_false, Build.addLeaf_unused (hu s h), ih]
  unfold buildLeaves
  rw [key, hs]

/-- What one pair keeps, the loop of `REBUILD` keeps (R141). -/
theorem Rebuild.addPairs_keeps {P : Rebuild → Prop} (hp : ∀ r p r', P r → r.addPair p = some r' → P r') (ps : List HdrPair) :
    ∀ r r', P r → r.addPairs ps = some r' → P r' := by
  induction ps with
  | nil => intro r r' h e; simp only [Rebuild.addPairs, Option.some.injEq] at e; exact e ▸ h
  | cons p ps ih =>
    intro r r' h e
    simp only [Rebuild.addPairs] at e
    split at e
    · simp at e
    · rename_i r1 h1
      exact ih r1 r' (hp r p r1 h h1) e

theorem Rebuild.addPairs_append (r : Rebuild) (ps qs : List HdrPair) :
    r.addPairs (ps ++ qs) = (r.addPairs ps).bind fun r' => r'.addPairs qs := by
  induction ps generalizing r with
  | nil => rfl
  | cons p ps ih =>
    simp only [List.cons_append, Rebuild.addPairs]
    cases r.addPair p with
    | none => rfl
    | some r1 => exact ih r1

/-- The descent of `REBUILD` (R141) makes `k` nodes, leaves `ROOT`, `LEAF` and `NLEAF` alone, and ends at the last node it made. -/
theorem CodeTree.descend_spec {k cur n : Nat} {t u : CodeTree} (h : t.descend k cur = some (n, u)) :
    u.root = t.root ∧ u.leaf = t.leaf ∧ u.nleaf = t.nleaf ∧ u.nodes.length = t.nodes.length + k ∧
    (k = 0 → n = cur ∧ u = t) ∧ (0 < k → n + 1 = t.nodes.length + k) := by
  induction k generalizing cur t with
  | zero =>
    simp only [CodeTree.descend, Option.some.injEq, Prod.mk.injEq] at h
    obtain ⟨rfl, rfl⟩ := h
    simp
  | succ k ih =>
    simp only [CodeTree.descend] at h
    split at h
    · simp at h
    · obtain ⟨h1, h2, h3, h4, h5, h6⟩ := ih h
      simp only [CodeTree.updateNode_nodes, List.length_modify, CodeTree.addNode_nodes, List.length_append, List.length_singleton] at h4 h6
      refine ⟨h1, h2, h3, by omega, by omega, fun _ => ?_⟩
      rcases Nat.eq_zero_or_pos k with rfl | hk
      · have := (h5 rfl).1
        omega
      · have := h6 hk
        omega

/-- All of what one pair can do (R141): it finds the cursor with a place for its depth, its symbol has no leaf yet, and the tree descends to it. -/
theorem Rebuild.addPair_cases {r r' : Rebuild} {p : HdrPair} (h : r.addPair p = some r') :
    ∃ cur n t, r.cur = some cur ∧ ¬ (r.tree.c0 cur ≠ none ∧ p.dep.toNat ≤ r.cd) ∧ r.tree.descend (p.dep.toNat - r.cd) cur = some (n, t) ∧
      t.leafOf p.sym = none ∧
      r'.tree = (t.updateNode n fun nd => { nd with sym := some p.sym }).setLeaf p.sym n ∧
      (r'.cur, r'.cd) = r'.tree.climb r'.tree.nodes.length (r'.tree.par n) (max r.cd p.dep.toNat - 1) := by
  simp only [Rebuild.addPair] at h
  split at h
  · simp at h
  · rename_i cur hc
    split at h
    · simp at h
    · rename_i hd
      split at h
      · simp at h
      · rename_i n t ht
        split at h
        · simp at h
        · rename_i hl
          simp only [Option.some.injEq] at h
          subst h
          exact ⟨cur, n, t, hc, hd, ht, by simpa using hl, rfl, rfl⟩

/-- All of what the climb can find (R141): no ancestor, or one with its slot 1 free. -/
theorem CodeTree.climb_cases (t : CodeTree) (k : Nat) (a : Option Nat) (ad : Nat) :
    (t.climb k a ad).1 = none ∨ ∃ n, (t.climb k a ad).1 = some n ∧ t.c1 n = none := by
  induction k generalizing a ad with
  | zero => exact .inl rfl
  | succ k ih =>
    cases a with
    | none => exact .inl rfl
    | some a =>
      simp only [CodeTree.climb]
      split
      · rename_i h
        exact .inr ⟨a, rfl, h⟩
      · exact ih _ _

end Sys2Proof.Machine
end

