-- ==== Sys2Proof/Laws/Walks.lean ====
section
/-! SUPPORT. The walk of `ENCODE` in a well-formed tree: from a leaf up to the root it reads the path down to the leaf
(spec/43_encdec.md R150, spec/10_state.md R33). -/

namespace Sys2Proof.Machine

/-- The walk ends at a node with no parent. -/
theorem CodeTree.pathUp_root {t : CodeTree} {k n : Nat} (h : n < t.nodes.length) (hp : t.par n = none) : t.pathUp (k + 1) n = some [] := by
  have hp : t.nodes[n].par = none := by simpa [CodeTree.par, h] using hp
  simp [CodeTree.pathUp, h, hp]

/-- One level of the walk: the child number, then the path from the parent. -/
theorem CodeTree.pathUp_child {t : CodeTree} {k n p : Nat} (h : n < t.nodes.length) (hp : t.par n = some p) :
    t.pathUp (k + 1) n = (t.pathUp k p).map fun path => (t.c0 p != some n) :: path := by
  have hp : t.nodes[n].par = some p := by simpa [CodeTree.par, h] using hp
  simp [CodeTree.pathUp, h, hp]

/-- The walk from the end of a path reads the path backwards. -/
theorem CodeTree.WF.pathUp_follow {t : CodeTree} (hw : t.WF) {r : Nat} (hr : t.root = some r) (p : List Bool) :
    ∀ n, t.follow r p = some n → ∀ k, p.length < k → t.pathUp k n = some p.reverse := by
  obtain ⟨h0, -⟩ | ⟨r', hr', hlt, hpar, hu⟩ := hw.rooted
  · rw [h0] at hr; simp at hr
  rw [hr] at hr'
  obtain rfl : r = r' := by simpa using hr'
  induction p using List.reverseRecOn with
  | nil =>
    intro n hn k hk
    obtain ⟨k, rfl⟩ := Nat.exists_eq_add_of_lt hk
    simp only [CodeTree.follow_nil, if_pos hlt, Option.some.injEq] at hn
    subst hn
    rw [show [].length + k + 1 = k + 1 by simp, CodeTree.pathUp_root hlt hpar]
    rfl
  | append_singleton q b ih =>
    intro n hn k hk
    obtain ⟨k, rfl⟩ := Nat.exists_eq_add_of_lt hk
    have hn0 := hn
    rw [CodeTree.follow_append _ _ _ _ hlt] at hn
    obtain ⟨m, hm, hmn⟩ := Option.bind_eq_some_iff.1 hn
    simp only [CodeTree.follow_cons, CodeTree.follow_nil] at hmn
    obtain ⟨n', hc, hn'⟩ := Option.bind_eq_some_iff.1 hmn
    split at hn'
    · obtain rfl : n' = n := by simpa using hn'
      obtain ⟨hl, hp⟩ := hw.parents m b n' hc
      rw [show (q ++ [b]).length + k + 1 = (q.length + k + 1) + 1 by simp; omega, CodeTree.pathUp_child hl hp]
      rw [ih m hm _ (by omega)]
      simp only [Option.map_some, List.reverse_append, List.reverse_singleton, List.singleton_append, Option.some.injEq, List.cons.injEq, and_true]
      cases b with
      | false =>
        have : t.c0 m = some n' := hc
        simp [this]
      | true =>
        have : t.c0 m ≠ some n' := by
          intro e
          have h2 : t.follow r (q ++ [false]) = some n' := by
            rw [CodeTree.follow_append _ _ _ _ hlt, hm]
            simp [CodeTree.child, e, hl]
          have := (hu n' hl).unique hn0 h2
          simp at this
        simpa using this
    · simp at hn'

/-- Under `TreeWF` a symbol's codeword is what `ENCODE` finds from its leaf. -/
theorem CodeTree.WF.isCode_iff {t : CodeTree} (hw : t.WF) (y : Byte) (p : List Bool) :
    t.IsCode y p ↔ ∃ n, t.leafOf y = some n ∧ t.codeword n = some p := by
  constructor
  · intro h
    have hd := hw.depth p y h
    simp only [CodeTree.IsCode, CodeTree.lookup, Option.map_eq_some_iff, Option.bind_eq_some_iff] at h
    obtain ⟨n, ⟨r, hr, hf⟩, hs⟩ := h
    split at hs
    · rename_i hl
      obtain ⟨y', hy', hl'⟩ := hw.leafSym n hl
      obtain rfl : y' = y := by rw [hs] at hy'; simpa using hy'.symm
      refine ⟨n, hl', ?_⟩
      rw [CodeTree.codeword, hw.pathUp_follow hr p n hf _ (by simp only [Config.maxLevels]; omega)]
      simp
    · simp at hs
  · rintro ⟨n, hn, hc⟩
    obtain ⟨hl, hs⟩ := hw.leafIndex y n hn
    have hlt := CodeTree.isLeaf_lt hl
    obtain ⟨-, h0, -⟩ | ⟨r, hr, hrl, hpar, hu⟩ := hw.rooted
    · rw [h0] at hlt; simp at hlt
    · obtain ⟨q, hq, -⟩ := hu n hlt
      have hI : t.IsCode y q := by
        simp [CodeTree.IsCode, CodeTree.lookup, hr, hq, hl, hs]
      have hd := hw.depth q y hI
      rw [CodeTree.codeword, hw.pathUp_follow hr q n hq _ (by simp only [Config.maxLevels]; omega)] at hc
      obtain rfl : q = p := by simpa using hc
      exact hI

end Sys2Proof.Machine
end

