-- ==== Sys2Proof/Tests/Slice0.lean ====
section
/-! SUPPORT. Tests: the smoke test of WellFormed, words written out from the encodings, one step at a time against the vectors of
spec/95_test_vectors.md, and a witness for the hypotheses of every statement. -/

namespace Sys2Proof.Tests

-- One test at a time: side by side, each would hold a thread's stack while it waits for the kernel.
set_option Elab.async false

open Sys2Proof.Machine Sys2Proof.Claims

/-! ## WellFormed refuses what has no encoding -/

/-- R96: `REBUILD 257` (the word of V-R15). -/
theorem test_wellFormed_refuses_rebuild_257 : WellFormed (.rebuild 257#9) = false := by decide
theorem test_wellFormed_refuses_rebuild_511 : WellFormed (.rebuild 511#9) = false := by decide
theorem test_wellFormed_accepts_rebuild_256 : WellFormed (.rebuild 256#9) = true := by decide

/-! ## Every command's word, written out bit by bit from R91 and R93 -/

theorem test_decode_writebit : decode 0b00000001_00000000_00000000_11111110#32 = .ok (.writebit 0xFE#8) := by decide
theorem test_decode_readbit : decode 0b00000010_00000000_00000000_00000000#32 = .ok .readbit := by decide
theorem test_decode_writebyte : decode 0b00000011_00000000_00000000_10101010#32 = .ok (.writebyte 0xAA#8) := by decide
theorem test_decode_readbyte : decode 0b00000100_00000000_00000000_00000000#32 = .ok .readbyte := by decide
theorem test_decode_writeint : decode 0b00000101_00000000_00000000_00000000#32 = .ok .writeint := by decide
theorem test_decode_readint : decode 0b00000110_00000000_00000000_00000000#32 = .ok .readint := by decide
theorem test_decode_flush : decode 0b00000111_00000000_00000000_00000000#32 = .ok .flush := by decide
theorem test_decode_build : decode 0b00010000_00000000_00000000_00000000#32 = .ok .build := by decide
theorem test_decode_store : decode 0b00010001_00000000_00000000_00000000#32 = .ok .store := by decide
theorem test_decode_rebuild : decode 0b00010010_00000000_00000001_00000000#32 = .ok (.rebuild 256#9) := by decide
theorem test_decode_encode : decode 0b00100000_00000000_00000000_01000001#32 = .ok (.encode 0x41#8) := by decide
theorem test_decode_decode : decode 0b00100001_00000000_00000000_00000000#32 = .ok .decode := by decide
theorem test_decode_sreset : decode 0b11111111_00000000_00000000_00000000#32 = .ok .sreset := by decide

/-- V-X7: zero fields set, a bit in the zero field of D9, reserved opcodes; V-R15: the range of `REBUILD`. -/
theorem test_decode_refuses :
    [0x00000000#32, 0x02000001#32, 0x01FFFF01#32, 0x12000200#32, 0x08000000#32, 0xFE000000#32, 0x12000101#32].map decode =
      [.error .unknownOpcode, .error .zeroFieldSet, .error .zeroFieldSet, .error .zeroFieldSet, .error .unknownOpcode, .error .unknownOpcode,
       .error .rebuildRange] := by decide

theorem test_decodeTableWord : decodeTableWord 32 0x20000041 = some (.encode 0x41#8) := by decide

/-! ## Small states -/

/-- The state a command leaves, where it answers one. -/
def result (o : Host.Outcome State Fault Refusal) : Option State :=
  match o with
  | .next t => some t
  | .fault _ => none
  | .refused _ => none

/-- Reset with an input. -/
def withIn (input : List Byte) : State := State.resetWith input

/-- A node made by `REBUILD`. -/
def bare (sym : Option Byte) (c0 c1 par : Option Nat) : Node := { weight := none, sym := sym, c0 := c0, c1 := c1, par := par }

/-- The tree of V-R3: `a` = 0, `b` = 1. -/
def twoLeaves : CodeTree where
  nodes := [bare none (some 1) (some 2) none, bare (some 0x61) none none (some 0), bare (some 0x62) none none (some 0)]
  root := some 0
  leaf := ((Vector.replicate 256 none).set 0x61 (some 1)).set 0x62 (some 2)
  nleaf := 2

/-- The tree of V-R4: the single leaf `5A`. -/
def oneLeaf : CodeTree where
  nodes := [bare (some 0x5A) none none none]
  root := some 0
  leaf := (Vector.replicate 256 none).set 0x5A (some 0)
  nleaf := 1

/-- Reset with an input and a tree. -/
def withTree (tree : CodeTree) (input : List Byte) : State := { State.resetWith input with tree := tree }

/-- A table with the entries listed. -/
def table (entries : List (Fin 256 × Word)) : Vector Word 256 := entries.foldl (fun f e => f.set e.1.val e.2) (Vector.replicate 256 0)

/-- Reset with header pairs. -/
def withHdr (pairs : List HdrPair) : State :=
  { State.reset with hdr := (pairs.zipIdx.foldl (fun h e => h.setIfInBounds e.2 e.1) (Vector.replicate 256 ⟨0, 0⟩)) }

/-- The pairs of V-R1. -/
def pairsR1 : List HdrPair := [⟨0x42, 2⟩, ⟨0x43, 3⟩, ⟨0x44, 3⟩, ⟨0x41, 1⟩]

/-- The frequencies of V-T1. -/
def stateT1 : State := { State.reset with freq := table [(0x41, 5), (0x42, 2), (0x43, 1), (0x44, 1)] }

/-- A node made by `BUILD`. -/
def weighed (w : Weight) (sym : Byte) (c0 c1 par : Option Nat) : Node := { weight := some w, sym := some sym, c0 := c0, c1 := c1, par := par }

/-- The tree of V-T1, as R135 lists it. -/
def treeT1 : CodeTree where
  nodes := [weighed 5 0x41 none none (some 6), weighed 2 0x42 none none (some 5), weighed 1 0x43 none none (some 4),
    weighed 1 0x44 none none (some 4), weighed 2 0x43 (some 2) (some 3) (some 5), weighed 4 0x42 (some 1) (some 4) (some 6),
    weighed 9 0x42 (some 5) (some 0) none]
  root := some 6
  leaf := ((((Vector.replicate 256 none).set 0x41 (some 0)).set 0x42 (some 1)).set 0x43 (some 2)).set 0x44 (some 3)
  nleaf := 4

/-! ## One step against the vectors -/

/-- V-B1, its eighth command: the first seven bits 1,0,1,1,0,0,1 are pending. -/
theorem test_writebit_eighth :
    (result (exec (.writebit 0) { State.reset with wbuf := 0x4D, wcnt := 7 })).map (fun t => (t.out, t.wbuf, t.wcnt)) = some ([0x4D], 0, 0) := by
  decide +kernel
/-- V-B5, its last command: only bit 0 of the operand 3 counts. -/
theorem test_writebit_low_bit :
    (result (exec (.writebit 3) { State.reset with wbuf := 0x01, wcnt := 2 })).map (fun t => (t.out, t.wbuf, t.wcnt)) = some ([], 0x05, 3) := by
  decide +kernel
/-- V-B19, step 1. -/
theorem test_readbit_fetches :
    (result (exec .readbit (withIn [0x4D, 0xAA]))).map (fun t => (t.res, t.last, t.rpos, t.rbuf, t.inPos)) = some (1, .ok, 1, 0x4D, 1) := by
  decide +kernel
/-- V-B14: the end of data. -/
theorem test_readbit_eod :
    (result (exec .readbit { withIn [0x80] with inPos := 1, rbuf := 0x80 })).map (fun t => (t.res, t.last, t.err, t.rpos, t.rbuf)) =
      some (0xFFFFFFFF, .eod, false, 8, 0x80) := by decide +kernel
/-- V-B20: the byte overtakes three pending bits. -/
theorem test_writebyte_overtakes :
    (result (exec (.writebyte 0xAA) { State.reset with wbuf := 7, wcnt := 3 })).map (fun t => (t.out, t.wbuf, t.wcnt)) = some ([0xAA], 7, 3) := by
  decide +kernel
/-- V-B19, step 3. -/
theorem test_readbyte_bypasses :
    (result (exec .readbyte { withIn [0x4D, 0xAA] with inPos := 1, rbuf := 0x4D, rpos := 2 })).map (fun t => (t.res, t.last, t.rpos, t.inPos)) =
      some (0xAA, .ok, 2, 2) := by decide +kernel
/-- V-B10. -/
theorem test_writeint_little_endian :
    (result (exec .writeint { State.reset with wdata := 0x80000001 })).map (·.out) = some [0x01, 0x00, 0x00, 0x80] := by decide +kernel
/-- V-B18. -/
theorem test_readint : (result (exec .readint (withIn [0x78, 0x56, 0x34, 0x12]))).map (fun t => (t.res, t.last, t.inPos)) =
    some (0x12345678, .ok, 4) := by decide +kernel
/-- V-B16: a partial integer is not consumed. -/
theorem test_readint_partial : (result (exec .readint (withIn [1, 2, 3]))).map (fun t => (t.res, t.last, t.inPos)) =
    some (0xFFFFFFFF, .eod, 0) := by decide +kernel
/-- V-B6. -/
theorem test_flush_pads : (result (exec .flush { State.reset with wbuf := 5, wcnt := 3 })).map (fun t => (t.out, t.wbuf, t.wcnt, t.outSync)) =
    some ([5], 0, 0, 1) := by decide +kernel
/-- V-B7. -/
theorem test_flush_empty : (result (exec .flush { State.reset with out := [5], outSync := 0 })).map (fun t => (t.out, t.outSync)) =
    some ([5], 1) := by decide +kernel
/-- V-S4 on the tree of V-R3's shape: symbol byte, depth byte, child 0 first. -/
theorem test_store : (result (exec .store { withTree twoLeaves [] with wbuf := 1, wcnt := 1 })).map (fun t => (t.out, t.wcnt)) =
    some ([0x61, 1, 0x62, 1], 1) := by decide +kernel
/-- V-S5. -/
theorem test_store_single : (result (exec .store (withTree oneLeaf []))).map (·.out) = some [0x5A, 0] := by decide +kernel
/-- V-R1: the nodes. -/
theorem test_rebuild_example :
    ((rebuildTree pairsR1).map (·.nodes)) =
      some [bare none (some 1) (some 6) none, bare none (some 2) (some 3) (some 0), bare (some 0x42) none none (some 1),
        bare none (some 4) (some 5) (some 1), bare (some 0x43) none none (some 3), bare (some 0x44) none none (some 3),
        bare (some 0x41) none none (some 0)] := by decide +kernel
/-- V-R6 to V-R10 and V-R17: checks 5, 5, 1, 2, 2, 1, 4, 4. -/
theorem test_rebuild_malformed :
    ([[⟨0x61, 1⟩], [⟨0x61, 2⟩, ⟨0x62, 2⟩], [⟨0x61, 1⟩, ⟨0x62, 1⟩, ⟨0x63, 1⟩], [⟨0x61, 2⟩, ⟨0x62, 1⟩], [⟨0x61, 1⟩, ⟨0x62, 0⟩],
      [⟨0x61, 0⟩, ⟨0x62, 1⟩], [⟨0x61, 1⟩, ⟨0x61, 1⟩], [⟨0x61, 1⟩, ⟨0x62, 2⟩, ⟨0x61, 2⟩]] : List (List HdrPair)).map rebuildTree =
      List.replicate 8 none := by decide +kernel
/-- V-E1, its seventh command: the code 00 of `B` crosses the byte boundary. -/
theorem test_encode_crosses_a_byte :
    (result (exec (.encode 0x42) { State.reset with tree := treeT1, wbuf := 0x1F, wcnt := 7 })).map (fun t => (t.out, t.wbuf, t.wcnt)) =
      some ([0x1F], 0, 1) := by decide +kernel
/-- V-E6. -/
theorem test_encode_invalid : (result (exec (.encode 0x5B) (withTree oneLeaf []))).map (fun t => (t.last, t.statusWord, t.out)) =
    some (.invalidSymbol, 0x733, []) := by decide +kernel
/-- V-E2, its tenth command on the tree of V-R1. -/
theorem test_decode_eos :
    (result (exec .decode { State.reset with tree := treeT1, input := [0x1F, 0x64], inPos := 2, rbuf := 0x64, rpos := 7 })).map
      (fun t => (t.res, t.rpos, t.statusWord)) = some (0xFFFFFFFF, 8, 0x322) := by decide +kernel
/-- V-E7: nothing is read for a single-leaf tree. -/
theorem test_decode_single : (result (exec .decode (withTree oneLeaf []))).map (fun t => (t.res, t.last, t.inPos, t.rpos)) =
    some (0x5A, .ok, 0, 8) := by decide +kernel
/-- V-X11: the streams stay, the latch and the buffers are cleared. -/
theorem test_sreset :
    (result (exec .sreset { withIn [1, 2] with inPos := 2, err := true, firstErr := .eos, rpos := 3, wcnt := 2, out := [9] })).map
      (fun t => (t.statusWord, t.rpos, t.wcnt, t.inPos, t.out)) = some (0, 8, 0, 2, [9]) := by decide +kernel
/-- V-X3: a misaligned read from reset. -/
theorem test_bad_read :
    (result (step (before (.read 0x802) State.reset))).map (fun t => (t.resps, t.statusWord)) = some ([⟨.error, some 0⟩], 0x170) := by
  decide +kernel
/-- V-X2: `RSTATE` after reset. -/
theorem test_read_rstate :
    (result (step (before (.read 0x818) State.reset))).map (·.resps) = some [⟨.okay, some 0x800⟩] := by decide +kernel
/-- V-R18: the upper half of a header word is dropped. -/
theorem test_write_hdr :
    (result (step (before (.write 0x400 0xABCD0261) State.reset))).map (fun t => (readReg t (.hdr 0), t.last)) = some (some 0x261, .ok) := by
  decide +kernel
/-- V-X6: the all-zero command word. -/
theorem test_illegal_word : (result (step (State.reset.withFetchWord 32 0))).map (·.statusWord) = some 0x166 := by decide +kernel
/-- R21, R90: the placed word is the next command served. -/
theorem test_withFetchWord_runs :
    (result (step (State.reset.withFetchWord 32 0x03000041))).map (fun t => (t.out, t.resps, t.hostQ)) = some ([0x41], [⟨.okay, none⟩], []) := by
  decide +kernel

/-! ## Two concrete trees satisfy `TreeWF` -/

theorem twoLeaves_leafOf (y : Byte) :
    twoLeaves.leafOf y = none ∨ y = 0x61 ∧ twoLeaves.leafOf y = some 1 ∨ y = 0x62 ∧ twoLeaves.leafOf y = some 2 := by
  by_cases h1 : y = 0x61#8
  · subst h1; exact .inr (.inl ⟨rfl, rfl⟩)
  · by_cases h2 : y = 0x62#8
    · subst h2; exact .inr (.inr ⟨rfl, rfl⟩)
    · have n1 : ¬ 0x61 = (symIndex y).val := fun e => h1 (BitVec.eq_of_toNat_eq e.symm)
      have n2 : ¬ 0x62 = (symIndex y).val := fun e => h2 (BitVec.eq_of_toNat_eq e.symm)
      exact .inl (by simp [CodeTree.leafOf, twoLeaves, Vector.get_eq_getElem, n1, n2])

theorem twoLeaves_beyond (n : Nat) : twoLeaves.nodes[n + 3]? = none := List.getElem?_eq_none (by simp [twoLeaves])

theorem witness_twoLeaves_wf : twoLeaves.WF where
  rooted := by
    refine .inr ⟨0, rfl, by decide, by decide, fun n hn => ?_⟩
    have key : ∀ p, twoLeaves.follow 0 p = match p with | [] => some 0 | [false] => some 1 | [true] => some 2 | _ => none := by
      intro p
      match p with
      | [] => rfl
      | [false] => rfl
      | [true] => rfl
      | false :: false :: _ => rfl
      | false :: true :: _ => rfl
      | true :: false :: _ => rfl
      | true :: true :: _ => rfl
    have hn : n < 3 := hn
    match n, hn with
    | 0, _ => exact ⟨[], rfl, fun q hq => by simp only [key] at hq; split at hq <;> simp_all⟩
    | 1, _ => exact ⟨[false], rfl, fun q hq => by simp only [key] at hq; split at hq <;> simp_all⟩
    | 2, _ => exact ⟨[true], rfl, fun q hq => by simp only [key] at hq; split at hq <;> simp_all⟩
  twoChildren n := by
    match n with
    | 0 | 1 | 2 => decide
    | n + 3 => simp [CodeTree.c0, CodeTree.c1, twoLeaves_beyond]
  parents n b m h := by
    match n, b with
    | 0, false => obtain rfl : (1 : Nat) = m := by simpa [CodeTree.child, CodeTree.c0, twoLeaves, bare] using h
                  decide
    | 0, true => obtain rfl : (2 : Nat) = m := by simpa [CodeTree.child, CodeTree.c1, twoLeaves, bare] using h
                 decide
    | 1, false | 1, true | 2, false | 2, true => simp [CodeTree.child, CodeTree.c0, CodeTree.c1, twoLeaves, bare] at h
    | n + 3, b => cases b <;> simp [CodeTree.child, CodeTree.c0, CodeTree.c1, twoLeaves_beyond] at h
  leafSym n h := by
    match n with
    | 0 => exact absurd h (by decide)
    | 1 => exact ⟨0x61, by decide, by decide +kernel⟩
    | 2 => exact ⟨0x62, by decide, by decide +kernel⟩
    | n + 3 => simp [CodeTree.isLeaf, twoLeaves_beyond] at h
  leafIndex y n h := by
    rcases twoLeaves_leafOf y with e | ⟨rfl, e⟩ | ⟨rfl, e⟩
    · rw [e] at h; simp at h
    · rw [e] at h; obtain rfl : 1 = n := by simpa using h
      decide
    · rw [e] at h; obtain rfl : 2 = n := by simpa using h
      decide
  leaves := by decide
  nodeCount _ := by decide
  depth p y h := by
    match p with
    | [] | [_] => simp
    | false :: _ :: _ => exact absurd h (by simp [CodeTree.IsCode, CodeTree.lookup, CodeTree.child, CodeTree.c0, twoLeaves, bare, CodeTree.c1])
    | true :: _ :: _ => exact absurd h (by simp [CodeTree.IsCode, CodeTree.lookup, CodeTree.child, CodeTree.c0, twoLeaves, bare, CodeTree.c1])

theorem oneLeaf_leafOf (y : Byte) : oneLeaf.leafOf y = none ∨ y = 0x5A ∧ oneLeaf.leafOf y = some 0 := by
  by_cases h : y = 0x5A#8
  · subst h; exact .inr ⟨rfl, rfl⟩
  · have n : ¬ 0x5A = (symIndex y).val := fun e => h (BitVec.eq_of_toNat_eq e.symm)
    exact .inl (by simp [CodeTree.leafOf, oneLeaf, Vector.get_eq_getElem, n])

theorem oneLeaf_beyond (n : Nat) : oneLeaf.nodes[n + 1]? = none := List.getElem?_eq_none (by simp [oneLeaf])

theorem witness_oneLeaf_wf : oneLeaf.WF where
  rooted := by
    refine .inr ⟨0, rfl, by decide, by decide, fun n hn => ?_⟩
    have hn : n < 1 := hn
    obtain rfl : n = 0 := by omega
    refine ⟨[], rfl, fun q hq => ?_⟩
    match q with
    | [] => rfl
    | false :: _ => simp [CodeTree.child, CodeTree.c0, oneLeaf, bare] at hq
    | true :: _ => simp [CodeTree.child, CodeTree.c1, oneLeaf, bare] at hq
  twoChildren n := by
    match n with
    | 0 => decide
    | n + 1 => simp [CodeTree.c0, CodeTree.c1, oneLeaf_beyond]
  parents n b m h := by
    match n with
    | 0 => cases b <;> simp [CodeTree.child, CodeTree.c0, CodeTree.c1, oneLeaf, bare] at h
    | n + 1 => cases b <;> simp [CodeTree.child, CodeTree.c0, CodeTree.c1, oneLeaf_beyond] at h
  leafSym n h := by
    match n with
    | 0 => exact ⟨0x5A, by decide, by decide +kernel⟩
    | n + 1 => simp [CodeTree.isLeaf, oneLeaf_beyond] at h
  leafIndex y n h := by
    rcases oneLeaf_leafOf y with e | ⟨rfl, e⟩
    · rw [e] at h; simp at h
    · rw [e] at h; obtain rfl : 0 = n := by simpa using h
      decide
  leaves := by decide
  nodeCount _ := by decide
  depth p y h := by
    match p with
    | [] => simp
    | false :: _ => exact absurd h (by simp [CodeTree.IsCode, CodeTree.lookup, CodeTree.child, CodeTree.c0, oneLeaf, bare])
    | true :: _ => exact absurd h (by simp [CodeTree.IsCode, CodeTree.lookup, CodeTree.child, CodeTree.c1, oneLeaf, bare])

theorem test_code_of_twoLeaves : twoLeaves.IsCode 0x61 [false] ∧ twoLeaves.IsCode 0x62 [true] := by
  constructor <;> (unfold CodeTree.IsCode; decide)

/-! ## A state for the witnesses -/

/-- The tree of V-R3 with an input: it satisfies the invariant. -/
def demo : State := withTree twoLeaves [0x02, 0x07]

theorem demo_streams : demo.StreamsOk := ⟨by simp [demo, withTree], by simp [demo, withTree], by simp [demo, withTree]⟩

theorem demo_status : demo.StatusOk :=
  ⟨by simp [demo, withTree], by simp [demo, withTree], by simp [demo, withTree], by simp [demo, withTree, Status.isError]⟩

theorem demo_inv : demo.Inv := ⟨witness_twoLeaves_wf, demo_streams, demo_status⟩

/-- `demo` after an earlier error. -/
def latched : State := { demo with err := true, firstErr := .eos }

/-! ## A witness for the hypotheses of each statement -/

theorem witness_DecodeOfEncodeIsTheCommand : WellFormed (.rebuild 256) = true := by decide

theorem witness_DecodedWordIsTheEncodedCommand : decode 0x12000100#32 = .ok (.rebuild 256) := by decide

theorem witness_DecodeFollowsTheOpcodeMap :
    commandOf 0x12000100#32 = some (.rebuild 256) ∧ commandOf 0x12000101#32 = none ∧ commandOf 0#32 = none := by decide

theorem witness_ReservedOpcodesAreIllegal : ∀ op ∈ [0x00, 0x08, 0x0F, 0x13, 0x1F, 0x22, 0xFE],
    op = ((BitVec.ofNat 8 op ++ 0#24 : BitVec 32).extractLsb' 24 8).toNat ∧
    (op = 0x00 ∨ (0x08 ≤ op ∧ op ≤ 0x0F) ∨ (0x13 ≤ op ∧ op ≤ 0x1F) ∨ (0x22 ≤ op ∧ op ≤ 0xFE)) := by decide

theorem witness_SetZeroFieldsAreIllegal :
    ((0x02000001#32).extractLsb' 24 8).toNat = 0x02 ∧ (0x02000001#32).extractLsb' 0 24 ≠ 0#24 ∧
    ((0x01FFFF01#32).extractLsb' 24 8).toNat = 0x01 ∧ (0x01FFFF01#32).extractLsb' 8 16 ≠ 0#16 ∧
    ((0x12000200#32).extractLsb' 24 8).toNat = 0x12 ∧ (0x12000200#32).extractLsb' 9 15 ≠ 0#15 := by decide

theorem witness_StepRunsTheDecodedCommand : decode 0x200000FF#32 = .ok (.encode 0xFF) := by decide

theorem witness_BadAccessesOnlyLatch :
    BadRead 0x001#12 ∧ BadRead 0x81C#12 ∧ BadRead 0xFFC#12 ∧ BadRead 0x800#12 ∧ ¬ BadRead 0x818#12 ∧ ¬ BadRead 0x7FC#12 ∧
    BadWrite 0x801#12 ∧ BadWrite 0x808#12 ∧ BadWrite 0x818#12 ∧ BadWrite 0x81C#12 ∧ ¬ BadWrite 0x800#12 ∧ ¬ BadWrite 0x7FC#12 ∧
    demo.tree.WF := by
  refine ⟨?_, ?_, ?_, ?_, ?_, ?_, ?_, ?_, ?_, ?_, ?_, ?_, witness_twoLeaves_wf⟩ <;> simp [BadRead, BadWrite]

theorem witness_HostReadsAnswerTheRegisters :
    (0x3FC#12).toNat = 4 * (255 : Fin 256).val ∧ (0x000#12).toNat = 4 * (0 : Fin 256).val ∧
    (0x400#12).toNat = 0x400 + 4 * (0 : Fin 256).val ∧ (0x7FC#12).toNat = 0x400 + 4 * (255 : Fin 256).val := by decide

theorem witness_HostReadsAnswerTheRegisters_status :
    twoLeaves.root = some 0 ∧ twoLeaves.isLeaf 0 = false ∧ oneLeaf.isLeaf 0 = true := by decide

theorem witness_HostWritesStoreOneWord :
    (0x3FC#12).toNat = 4 * (255 : Fin 256).val ∧ (0x7FC#12).toNat = 0x400 + 4 * (255 : Fin 256).val ∧ (254 : Fin 256) ≠ 255 := by decide

theorem witness_HostWritesStoreOneWord_cmd : BadWrite 0x818#12 ∧ BadRead 0x81C#12 ∧ (∃ t, decode 0x01000001#32 = .ok (.writebit 1) ∧
    exec (.writebit 1) demo = .next t) ∧ decode 0x12000101#32 = .error .rebuildRange :=
  ⟨by simp [BadWrite], by simp [BadRead], ⟨_, by decide, rfl⟩, by decide⟩

/-- At the last header word, whose bits 31 to 16 are dropped, and at `WDATA`. -/
theorem witness_ReadAfterWriteReturnsTheWord : ∀ addr ∈ [0x000#12, 0x3FC#12, 0x400#12, 0x7FC#12, 0x804#12],
    (addr.toNat < 0x800 ∨ addr = 0x804#12) ∧ addr.toNat % 4 = 0 ∧
    ∃ t u, step (before (.write addr 0xABCD0261#32) demo) = .next t ∧ step (before (.read addr) t) = .next u := by
  intro addr h
  simp only [List.mem_cons, List.not_mem_nil, or_false] at h
  rcases h with rfl | rfl | rfl | rfl | rfl <;> exact ⟨by decide, by decide, _, _, rfl, rfl⟩

theorem witness_StepKeepsTheInvariant :
    (before (.write 0x800#12 0x20000061#32) demo).Inv ∧ ∃ t, step (before (.write 0x800#12 0x10000000#32) demo) = .next t :=
  ⟨⟨demo_inv.tree, ⟨demo_streams.slots, demo_streams.inPos, demo_streams.outSync⟩,
    ⟨demo_status.last, demo_status.clear, demo_status.latched, demo_status.recorded⟩⟩, _, rfl⟩

theorem witness_StepKeepsStreamsAndStatus : demo.StreamsOk ∧ demo.StatusOk ∧ ∃ t, step demo = .next t := ⟨demo_streams, demo_status, _, rfl⟩

theorem witness_NothingStopsTheEngine : demo.tree.WF ∧ demo.hostQ = [] := ⟨witness_twoLeaves_wf, rfl⟩

theorem witness_EveryCommandCompletes : demo.tree.WF := witness_twoLeaves_wf

theorem witness_CommandsReachOnlyTheirState : ∃ t, exec .writeint demo = .next t ∧ Instr.writeint ≠ .sreset ∧ Instr.writeint ≠ .build ∧
    (∀ d, Instr.writeint ≠ .rebuild d) ∧ (∀ b, Instr.writeint ≠ .writebit b) ∧ (∀ y, Instr.writeint ≠ .encode y) ∧ Instr.writeint ≠ .flush ∧
    Instr.writeint ≠ .readbit ∧ Instr.writeint ≠ .readbyte ∧ Instr.writeint ≠ .readint ∧ Instr.writeint ≠ .decode :=
  ⟨_, rfl, by simp, by simp, by simp, by simp, by simp, by simp, by simp, by simp, by simp, by simp⟩

/-- The clause on `OUT`: `READINT` writes none. -/
theorem witness_CommandsReachOnlyTheirState_out : ∃ t, exec .readint demo = .next t ∧ (∀ b, Instr.readint ≠ .writebit b) ∧
    (∀ v, Instr.readint ≠ .writebyte v) ∧ Instr.readint ≠ .writeint ∧ Instr.readint ≠ .flush ∧ Instr.readint ≠ .store ∧
    (∀ y, Instr.readint ≠ .encode y) := ⟨_, rfl, by simp, by simp, by simp, by simp, by simp, by simp⟩

theorem witness_StreamsOnlyMoveForward : (before (.write 0x800#12 0x07000000#32) demo).StreamsOk ∧
    (∃ t, step (before (.write 0x800#12 0x07000000#32) demo) = .next t) ∧
    ∀ input rest, (before (.write 0x800#12 0x07000000#32) demo).hostQ ≠ .reset input :: rest :=
  ⟨⟨demo_streams.slots, demo_streams.inPos, demo_streams.outSync⟩, ⟨_, rfl⟩, by simp [before]⟩

theorem witness_TheErrorLatchIsSticky : (before (.write 0x800#12 0x00000000#32) latched).err = true ∧
    (∃ t, step (before (.write 0x800#12 0x00000000#32) latched) = .next t) ∧
    (∀ input rest, (before (.write 0x800#12 0x00000000#32) latched).hostQ ≠ .reset input :: rest) ∧
    ∀ rest, (before (.write 0x800#12 0x00000000#32) latched).hostQ ≠ .write 0x800#12 0xFF000000#32 :: rest :=
  ⟨rfl, ⟨_, rfl⟩, by simp [before], by simp [before]⟩

theorem witness_OnlyErrorsAreLatched :
    (∃ t, exec .readint demo = .next t ∧ t.last.isError = false) ∧ ∃ t, exec (.encode 0x63#8) demo = .next t ∧ t.last.isError = true := by
  refine ⟨⟨_, rfl, rfl⟩, ⟨demo.raise .invalidSymbol, ?_, by simp [Status.isError]⟩⟩
  have : demo.tree.leafOf 0x63#8 = none := by decide +kernel
  simp only [exec, execEncode, this]

theorem witness_CommandsEndWithTheirStatuses : ∃ t, exec .readint demo = .next t := ⟨_, rfl⟩

/-- A good `READBIT`, `READBYTE` and `DECODE`, a failed `READINT`, a command that does not write `RES`, `SRESET`, an illegal word. -/
theorem witness_ResIsWrittenByTheReadingCommands :
    (∃ t, exec .readbit demo = .next t ∧ t.last = .ok) ∧ (∃ t, exec .readbyte demo = .next t ∧ t.last = .ok) ∧
    (∃ t, exec .decode (withTree oneLeaf []) = .next t ∧ t.last = .ok) ∧ (∃ t, exec .readint demo = .next t ∧ t.last ≠ .ok) ∧
    (∃ t, exec .flush demo = .next t) ∧ (∃ t, exec .sreset demo = .next t) ∧
    commandOf 0x12000101#32 = none ∧ ∃ t, step (before (.write 0x800#12 0x12000101#32) demo) = .next t := by
  refine ⟨⟨_, rfl, rfl⟩, ⟨_, rfl, rfl⟩, ⟨_, rfl, rfl⟩, ⟨_, rfl, by simp [State.endOfData]⟩, ⟨_, rfl⟩, ⟨_, rfl⟩, by decide, ⟨_, rfl⟩⟩

theorem witness_ExecutionIgnoresTheLatch : ∃ t, exec (.writebit 1) demo = .next t := ⟨_, rfl⟩

theorem witness_TableWritesDoNotChangeTheTree :
    (∃ t, step (before (.read 0x80C#12) demo) = .next t) ∧ (0x3FC#12 : Addr) ≠ 0x800#12 ∧
    ∃ t, step (before (.write 0x3FC#12 7#32) demo) = .next t := ⟨⟨_, rfl⟩, by decide, ⟨_, rfl⟩⟩

theorem witness_WriteBitFillsTheNextSlot :
    State.reset.wcnt.val < 7 ∧ ({ State.reset with wcnt := 6 } : State).wcnt.val < 7 ∧ ({ State.reset with wcnt := 7 } : State).wcnt.val = 7 := by
  decide

theorem witness_ReadBitReturnsTheNextSlot :
    ({ demo with rpos := 7 } : State).rpos.val < 8 ∧ (demo.rpos.val = 8 ∧ demo.input[demo.inPos]? = some 0x02) ∧
    State.reset.rpos.val = 8 ∧ State.reset.input.length ≤ State.reset.inPos := by decide

theorem witness_ReadByteBypassesTheBuffer :
    ({ demo with inPos := 1 } : State).input[1]? = some 0x07 ∧ State.reset.input.length ≤ State.reset.inPos := by decide

theorem witness_WriteIntIsLittleEndian :
    ({ State.reset with wdata := 0x80000001#32 } : State).wdata = 0x80#8 ++ 0x00#8 ++ 0x00#8 ++ 0x01#8 := by decide

theorem witness_ReadIntTakesFourBytesOrNone :
    (withIn [0x78, 0x56, 0x34, 0x12]).input.drop 0 = 0x78#8 :: 0x56#8 :: 0x34#8 :: 0x12#8 :: [] ∧
    (withIn [1, 2, 3]).input.length < (withIn [1, 2, 3]).inPos + 4 := by decide

theorem witness_FlushEmitsPendingBitsAndSyncs :
    State.reset.wcnt.val = 0 ∧ 0 < ({ State.reset with wbuf := 5, wcnt := 3 } : State).wcnt.val ∧
    ({ State.reset with wbuf := 5, wcnt := 3 } : State).StreamsOk := by
  refine ⟨by decide, by decide, ⟨fun i h1 h2 => ?_, by decide, by decide⟩⟩
  have h1 : 3 ≤ i := h1
  have : ∀ i, i < 8 → 3 ≤ i → (5#8).getLsbD i = false := by decide
  exact this i h2 h1

/-- The writer's premises, and a reader with any bytes before it. -/
theorem witness_BitsComeBackInOrder : State.reset.StreamsOk ∧ State.reset.wcnt.val = 0 ∧
    ∀ bytes rest, (withIn (bytes ++ rest)).rpos.val = 8 ∧ (withIn (bytes ++ rest)).unread = bytes ++ rest :=
  ⟨⟨by simp [State.reset], by simp [State.reset], by simp [State.reset]⟩, rfl, fun _ _ => ⟨rfl, rfl⟩⟩

theorem witness_IntegersAndBytesComeBack :
    (∃ t, exec .writeint State.reset = .next t ∧ t.out = State.reset.out ++ [0, 0, 0, 0] ∧
      (withIn [0, 0, 0, 0, 9]).unread = [0, 0, 0, 0] ++ [9]) ∧
    ∃ t, exec (.writebyte 7) State.reset = .next t ∧ t.out = State.reset.out ++ [7] ∧ (withIn [7, 9]).unread = [7] ++ [9] :=
  ⟨⟨_, rfl, by decide, rfl⟩, ⟨_, rfl, by decide, rfl⟩⟩

theorem build_next (s : State) : exec .build s = .next { s with tree := buildTree s.freq, last := .ok } := rfl

theorem table_other (e : List (Fin 256 × Word)) (z : Fin 256) (h : ∀ p ∈ e, p.1 ≠ z) : (table e).get z = 0 := by
  unfold table
  suffices H : ∀ f : Vector Word 256, f.get z = 0 → (e.foldl (fun f e => f.set e.1.val e.2) f).get z = 0 from
    H _ (by simp [Vector.get_eq_getElem])
  induction e with
  | nil => exact fun f hf => hf
  | cons p e ih =>
    refine fun f hf => ih (fun q hq => h q (List.mem_cons_of_mem _ hq)) _ ?_
    have hp : ¬ p.1.val = z.val := fun e => h p (List.mem_cons_self) (Fin.ext e)
    simpa [Vector.get_eq_getElem, Vector.getElem_set, hp] using hf

theorem witness_BuildOfSmallAndFullTables_none : ∀ y, State.reset.freq.get y = 0 := fun y => by simp [State.reset, Vector.get_eq_getElem]

theorem witness_BuildOfSmallAndFullTables_one :
    (table [(0x5A, 3)]).get (0x5A#8).toFin ≠ 0 ∧ ∀ z, z ≠ (0x5A#8).toFin → (table [(0x5A, 3)]).get z = 0 := by
  refine ⟨by decide +kernel, fun z hz => table_other _ z fun p hp e => ?_⟩
  simp only [List.mem_singleton] at hp
  exact hz (by rw [← e, hp]; rfl)

/-- Equal frequencies, and frequencies that differ. -/
theorem witness_BuildOfSmallAndFullTables_two :
    (table [(0, 7), (255, 7)]).get (0x00#8).toFin ≠ 0 ∧ (table [(0, 7), (255, 7)]).get (0xFF#8).toFin ≠ 0 ∧
    ((table [(0, 7), (255, 7)]).get (0x00#8).toFin = (table [(0, 7), (255, 7)]).get (0xFF#8).toFin ∧ (0x00#8).toNat < (0xFF#8).toNat) ∧
    (table [(0, 9), (255, 7)]).get (0xFF#8).toFin < (table [(0, 9), (255, 7)]).get (0x00#8).toFin := by
  simp [table, Vector.get_eq_getElem]

theorem witness_BuildOfSmallAndFullTables_two_others (v w : Word) (z : Fin 256) (h0 : z ≠ (0x00#8).toFin) (h1 : z ≠ (0xFF#8).toFin) :
    (table [(0, v), (255, w)]).get z = 0 := by
  refine table_other _ z fun p hp e => ?_
  simp only [List.mem_cons, List.not_mem_nil, or_false] at hp
  rcases hp with hp | hp
  · exact h0 (by rw [← e, hp]; rfl)
  · exact h1 (by rw [← e, hp]; rfl)

theorem witness_BuildOfSmallAndFullTables_full (y : Fin 256) : (Vector.replicate 256 (1 : Word)).get y ≠ 0 := by
  simp [Vector.get_eq_getElem]

theorem witness_StoreEmitsTheLeavesInPreorder : demo.tree.WF := witness_twoLeaves_wf

/-- V-R1 and its shape. -/
theorem witness_RebuildOfAWellFormedHeader :
    1 ≤ (4#9).toNat ∧ (4#9).toNat ≤ 256 ∧ (((withHdr pairsR1).hdr.toList.take 4).map (·.sym)).Nodup ∧
    ((withHdr pairsR1).hdr.toList.take 4).map (fun p => (p.sym, p.dep.toNat)) =
      (Shape.node (.node (.leaf 0x42) (.node (.leaf 0x43) (.leaf 0x44))) (.leaf 0x41)).header 0 :=
  ⟨by decide, by decide, by decide +kernel, by decide +kernel⟩

/-- The full tree of `k` levels whose leaves from `y` on carry the symbols in order. -/
def fullShape : Nat → Nat → Shape
  | 0, y => .leaf (BitVec.ofNat 8 y)
  | k + 1, y => .node (fullShape k y) (fullShape k (y + 2 ^ k))

/-- V-R12, the largest header: 256 pairs of depth 8. -/
def largest : State := { State.reset with hdr := Vector.ofFn fun i => ⟨BitVec.ofFin i, 8⟩ }

theorem witness_RebuildOfAWellFormedHeader_largest : (256#9).toNat ≤ 256 ∧ ((largest.hdr.toList.take 256).map (·.sym)).Nodup ∧
    (largest.hdr.toList.take 256).map (fun p => (p.sym, p.dep.toNat)) = (fullShape 8 0).header 0 := by
  have e : largest.hdr.toList.take 256 = (List.finRange 256).map fun i => ⟨BitVec.ofFin i, 8⟩ := by
    rw [List.take_of_length_le (by simp [largest])]
    simp only [largest, Vector.toList_ofFn, List.ofFn_eq_map]
  refine ⟨by decide, ?_, ?_⟩ <;> rw [e, List.map_map]
  · exact (List.nodup_finRange 256).map fun i j h => BitVec.ofFin.inj h
  · decide +kernel

theorem header_ne_nil (sh : Shape) : ∀ d, sh.header d ≠ [] := by
  induction sh with
  | leaf y => simp [Shape.header]
  | node l r hl _ => intro d; simp [Shape.header, hl]

/-- V-R6: a single pair with depth 1. -/
theorem witness_RebuildOfAMalformedHeader :
    1 ≤ (1#9).toNat ∧ (1#9).toNat ≤ 256 ∧ ¬ WellFormedHeader ((withHdr [⟨0x61, 1⟩]).hdr.toList.take 1) := by
  refine ⟨by decide, by decide, fun ⟨_, sh, h⟩ => ?_⟩
  have e : ((withHdr [⟨0x61, 1⟩]).hdr.toList.take 1).map (fun p => (p.sym, p.dep.toNat)) = [(0x61, 1)] := by decide +kernel
  rw [e] at h
  cases sh with
  | leaf y => simp [Shape.header] at h
  | node l r =>
    have hl := List.length_pos_iff.2 (header_ne_nil l 1)
    have hr := List.length_pos_iff.2 (header_ne_nil r 1)
    have := congrArg List.length h
    simp [Shape.header] at this
    omega

theorem witness_RebuildOfDegenerateHeaders :
    ((withHdr [⟨0x5A, 0⟩]).hdr.get 0).dep = 0 ∧ ((withHdr [⟨0x5A, 1⟩]).hdr.get 0).dep ≠ 0 := by decide +kernel

theorem witness_RebuildOfDegenerateHeaders_largest : WellFormedHeader largest.hdr.toList := by
  have h := witness_RebuildOfAWellFormedHeader_largest.2
  rw [List.take_of_length_le (by simp)] at h
  exact ⟨h.1, _, h.2⟩

theorem witness_HeaderRoundTrip : demo.tree.WF ∧ demo.tree.root ≠ none ∧
    (withHdr [⟨0x61, 1⟩, ⟨0x62, 1⟩]).hdr.toList.take demo.tree.nleaf.toNat = [⟨0x61, 1⟩, ⟨0x62, 1⟩] ∧
    pairBytes [⟨0x61, 1⟩, ⟨0x62, 1⟩] = [0x61, 1, 0x62, 1] ∧ State.reset.tree.WF ∧ State.reset.tree.root = none :=
  ⟨witness_twoLeaves_wf, by decide, by decide +kernel, by decide, CodeTree.empty_wf, rfl⟩

theorem witness_EncodeEmitsTheCodeword : demo.tree.leafOf 0x63 = none ∧ demo.tree.WF ∧ demo.tree.leafOf 0x61 ≠ none ∧
    demo.tree.IsCode 0x62 [true] ∧ demo.StreamsOk :=
  ⟨by decide +kernel, witness_twoLeaves_wf, by decide +kernel, test_code_of_twoLeaves.2, demo_streams⟩

/-- The empty tree; a codeword next in the input; an input that ends at an internal node. -/
theorem witness_DecodeReadsOneCodeword : State.reset.tree.root = none ∧
    (demo.tree.WF ∧ demo.tree.IsCode 0x61 [false] ∧ demo.bitsLeft = [false] ++ (bitsOf [0x02, 0x07]).tail) ∧
    (withTree twoLeaves []).tree.lookup (withTree twoLeaves []).bitsLeft = some none ∧ demo.tree.root ≠ none :=
  ⟨rfl, ⟨witness_twoLeaves_wf, test_code_of_twoLeaves.1, by decide⟩, by decide, by decide⟩

theorem witness_DegenerateTreesReadAndWriteNothing : (withTree oneLeaf []).tree.WF ∧ oneLeaf.root = some 0 ∧ oneLeaf.isLeaf 0 = true ∧
    oneLeaf.sym 0 = some 0x5A ∧ (0x5B : Byte) ≠ 0x5A ∧ State.reset.tree.WF ∧ State.reset.tree.root = none :=
  ⟨witness_oneLeaf_wf, rfl, by decide, by decide, by decide, CodeTree.empty_wf, rfl⟩

/-- The payload of `a`, `b`: bits 0, 1, in a reader with other pad bits. -/
theorem witness_PayloadRoundTrip : demo.tree.WF ∧ demo.StreamsOk ∧ demo.wcnt.val = 0 ∧ (∀ y ∈ [0x61#8, 0x62#8], demo.tree.leafOf y ≠ none) ∧
    demo.tree.SameShape demo.tree ∧ ∃ rest, (withTree twoLeaves [0xFE]).bitsLeft = [[false], [true]].flatten ++ rest :=
  ⟨witness_twoLeaves_wf, demo_streams, rfl, by decide +kernel, fun _ => rfl, _, rfl⟩

theorem witness_GetBitTakesTheFirstBitLeft : (∃ b s1, demo.getBit = some (b, s1)) ∧ ({ demo with rpos := 7 } : State).rpos.val < 8 ∧
    demo.rpos.val = 8 ∧ demo.unread = [0x02] ++ [0x07] := ⟨⟨_, _, rfl⟩, by decide, rfl, rfl⟩

/-! ## BUILD -/

/-- `BUILD` of a table with few entries, listed in ascending order. -/
theorem buildLeaves_table (e : List (Fin 256 × Word)) (hs : (List.finRange 256).filter (fun s => decide (s ∈ e.map (·.1))) = e.map (·.1)) :
    buildLeaves (table e) =
      let b := (e.map (·.1)).foldl (Build.addLeaf (table e)) { tree := CodeTree.empty, heap := [] }
      { b with tree := { b.tree with nleaf := BitVec.ofNat 9 b.heap.length } } :=
  buildLeaves_of_used hs fun s h => table_other e s fun p hp he => h (List.mem_map.2 ⟨p, hp, he⟩)

/-- The leaves of V-T1. -/
def leavesT1 : Build :=
  let b := [0x41, 0x42, 0x43, 0x44].foldl (Build.addLeaf stateT1.freq) { tree := CodeTree.empty, heap := [] }
  { b with tree := { b.tree with nleaf := BitVec.ofNat 9 b.heap.length } }

theorem test_buildLeaves : buildLeaves stateT1.freq = leavesT1 :=
  buildLeaves_table [(0x41, 5), (0x42, 2), (0x43, 1), (0x44, 1)] (by decide +kernel)

theorem test_buildLeaves_heap : leavesT1.heap.length = 4 := by decide +kernel

/-- V-T1, the nodes of R135. -/
theorem test_build_nodes : (buildTree stateT1.freq).nodes = treeT1.nodes := by
  rw [(buildTree_eq stateT1.freq).1, test_buildLeaves, test_buildLeaves_heap]
  decide +kernel

theorem test_build_root : (buildTree stateT1.freq).root = treeT1.root := by
  refine (buildTree_eq stateT1.freq).2.2.2 { id := 6, weight := 9, sym := 0x42 } ?_
  rw [test_buildLeaves, test_buildLeaves_heap]
  decide +kernel

/-- `BUILD` from a table, and a leaf and an internal node of its tree. -/
theorem witness_BuildWeightsAreExactSums :
    exec .build stateT1 = .next { stateT1 with tree := buildTree stateT1.freq, last := .ok } ∧
    (buildTree stateT1.freq).isLeaf 3 = true ∧ (buildTree stateT1.freq).sym 3 = some 0x44 ∧ (buildTree stateT1.freq).c0 6 = some 5 ∧
    (buildTree stateT1.freq).c1 6 = some 0 ∧ (buildTree stateT1.freq).root = some 6 :=
  have hn := test_build_nodes
  ⟨build_next _, (CodeTree.isLeaf_congr hn 3).trans rfl, by unfold CodeTree.sym; rw [hn]; rfl,
    by unfold CodeTree.c0; rw [hn]; rfl, by unfold CodeTree.c1; rw [hn]; rfl, test_build_root⟩

theorem witness_BuiltDepthIsBounded : (∃ t, exec .build stateT1 = .next t) ∧
    (buildTree stateT1.freq).IsCode 0x43 [false, true, false] := by
  refine ⟨⟨_, build_next _⟩, ?_⟩
  exact (CodeTree.lookup_congr test_build_nodes test_build_root _).trans (by decide)

/-- The merge that makes node 5 of V-T1: nodes 1 and 4 at weight 2, while node 0 waits. -/
theorem witness_BuildMergesTheTwoLeast : (∃ t, exec .build stateT1 = .next t) ∧ (buildTree stateT1.freq).c0 5 = some 1 ∧
    (buildTree stateT1.freq).c1 5 = some 4 ∧ Waits (buildTree stateT1.freq) 5 0 ∧ (buildTree stateT1.freq).isLeaf 3 = true ∧
    (buildTree stateT1.freq).isLeaf 4 = false := by
  have hn := test_build_nodes
  refine ⟨⟨_, build_next _⟩, by unfold CodeTree.c0; rw [hn]; rfl, by unfold CodeTree.c1; rw [hn]; rfl, ⟨by decide, ?_⟩,
    (CodeTree.isLeaf_congr hn 3).trans rfl, (CodeTree.isLeaf_congr hn 4).trans rfl⟩
  unfold CodeTree.par
  rw [hn]
  intro p hp
  simp [treeT1, weighed] at hp
  omega

/-- The leaves of V-T10. -/
def leavesT10 : Build :=
  let b := [1, 2, 3, 4].foldl (Build.addLeaf (table [(1, 1), (2, 1), (3, 2), (4, 2)])) { tree := CodeTree.empty, heap := [] }
  { b with tree := { b.tree with nleaf := BitVec.ofNat 9 b.heap.length } }

/-- V-T10: ties at weight 2 between a merge node and leaves; the children of n4, n5 and n6. -/
theorem test_build_ties : ((buildTree (table [(1, 1), (2, 1), (3, 2), (4, 2)])).nodes.drop 4).map (fun nd => (nd.c0, nd.c1)) =
    [(some 0, some 1), (some 4, some 2), (some 3, some 5)] := by
  have h : buildLeaves (table [(1, 1), (2, 1), (3, 2), (4, 2)]) = leavesT10 := buildLeaves_table _ (by decide +kernel)
  have hl : leavesT10.heap.length = 4 := by decide +kernel
  rw [(buildTree_eq _).1, h, hl]
  decide +kernel

theorem witness_EachMergePairsTheFirstTwoOfTheHeap : ∃ x y rest, (Build.mergeAll 0 (buildLeaves stateT1.freq)).heap = x :: y :: rest := by
  have two (l : List HeapEntry) (h : l.length = 4) : ∃ x y rest, l = x :: y :: rest := by
    match l, h with
    | x :: y :: rest, _ => exact ⟨x, y, rest, rfl⟩
  rw [test_buildLeaves]
  exact two _ test_buildLeaves_heap

end Sys2Proof.Tests
end

section
namespace Sys2Proof.Machine

/-! ## Walks in a well-formed tree

`TreeWF` bounds the depth of leaves only (R33 (f)). `CodeTree.WF.follow_length_le` carries the bound over to every node; the walks of
`STORE` and `DECODE`, and the climb of `ENCODE`, then end within their 256 levels. -/

/-- What R33 (a) says of a tree with a root. -/
theorem CodeTree.WF.rooted_at {t : CodeTree} (hw : t.WF) {r : Nat} (hr : t.root = some r) :
    r < t.nodes.length ∧ t.par r = none ∧ ∀ n, n < t.nodes.length → ∃! p, t.follow r p = some n := by
  obtain ⟨h0, -⟩ | ⟨r', hr', h⟩ := hw.rooted
  · simp [h0] at hr
  · obtain rfl : r = r' := by simpa [hr] using hr'
    exact h

/-- The empty path ends at the root. -/
theorem CodeTree.WF.follow_root {t : CodeTree} (hw : t.WF) {r : Nat} (hr : t.root = some r) : t.follow r [] = some r := by
  simp [(hw.rooted_at hr).1]

/-- A tree with a leaf is not the empty tree (R33 (a)). -/
theorem CodeTree.WF.root_of_isLeaf {t : CodeTree} (hw : t.WF) {n : Nat} (hl : t.isLeaf n = true) : ∃ r, t.root = some r := by
  obtain ⟨-, h0, -⟩ | ⟨r, hr, -⟩ := hw.rooted
  · simpa [h0] using CodeTree.isLeaf_lt hl
  · exact ⟨r, hr⟩

/-- A path ends at a node of the arena. -/
theorem CodeTree.follow_lt {t : CodeTree} {p : List Bool} : ∀ {n m : Nat}, t.follow n p = some m → m < t.nodes.length := by
  induction p with
  | nil =>
    intro n m h
    obtain ⟨hn, rfl⟩ : n < t.nodes.length ∧ n = m := by simpa using h
    exact hn
  | cons b p ih =>
    intro n m h
    obtain ⟨c, -, hc⟩ := Option.bind_eq_some_iff.1 h
    exact ih hc

/-- One more child link lengthens a path by its number. -/
theorem CodeTree.WF.follow_concat {t : CodeTree} (hw : t.WF) {r n c : Nat} {p : List Bool} {b : Bool} (hr : t.root = some r)
    (hp : t.follow r p = some n) (hc : t.child n b = some c) : t.follow r (p ++ [b]) = some c := by
  rw [CodeTree.follow_append _ _ _ _ (hw.rooted_at hr).1, hp]
  simp [hc, (hw.parents n b c hc).1]

/-- R33 (b) and (d): a node is a leaf with a symbol, or it has two children. -/
theorem CodeTree.WF.node_cases {t : CodeTree} (hw : t.WF) {n : Nat} (hn : n < t.nodes.length) :
    ∃ nd, t.nodes[n]? = some nd ∧
      ((t.isLeaf n = true ∧ nd.c0 = none ∧ nd.c1 = none ∧ ∃ y, nd.sym = some y) ∨
       ∃ a b, nd.c0 = some a ∧ nd.c1 = some b ∧ t.child n false = some a ∧ t.child n true = some b) := by
  have hnd : t.nodes[n]? = some t.nodes[n] := List.getElem?_eq_getElem hn
  refine ⟨_, hnd, ?_⟩
  have h0 : t.c0 n = t.nodes[n].c0 := by simp [CodeTree.c0, hnd]
  have h1 : t.c1 n = t.nodes[n].c1 := by simp [CodeTree.c1, hnd]
  have h2 := hw.twoChildren n
  rw [h0, h1] at h2
  cases e0 : t.nodes[n].c0 with
  | none =>
    have hl : t.isLeaf n = true := (t.isLeaf_iff n).2 ⟨_, hnd, e0, h2.1 e0⟩
    obtain ⟨y, hy, -⟩ := hw.leafSym n hl
    exact .inl ⟨hl, rfl, h2.1 e0, y, by simpa [CodeTree.sym, hnd] using hy⟩
  | some a =>
    obtain ⟨b, e1⟩ := Option.ne_none_iff_exists'.1 fun e => by simp [h2.2 e] at e0
    exact .inr ⟨a, b, rfl, e1, h0.trans e0, h1.trans e1⟩

/-- R33 (f), said of every node: a node at the end of a longest path is a leaf, so no path is longer than those to the leaves. -/
theorem CodeTree.WF.follow_length_le {t : CodeTree} (hw : t.WF) {r n : Nat} {p : List Bool} (hr : t.root = some r)
    (hp : t.follow r p = some n) : p.length ≤ 255 := by
  obtain ⟨hlt, -, hu⟩ := hw.rooted_at hr
  choose! path hpath huniq using hu
  obtain ⟨m, hm, hmax⟩ := (Finset.range t.nodes.length).exists_max_image (fun n => (path n).length) ⟨r, Finset.mem_range.2 hlt⟩
  simp only [Finset.mem_range] at hm hmax
  have hlongest : ∀ {q c}, t.follow r q = some c → q.length ≤ (path m).length := fun {q c} hq =>
    huniq c (CodeTree.follow_lt hq) q hq ▸ hmax c (CodeTree.follow_lt hq)
  refine (hlongest hp).trans ?_
  obtain ⟨nd, hnd, ⟨hl, -, -, y, hy⟩ | ⟨a, -, -, -, ha, -⟩⟩ := hw.node_cases hm
  · exact hw.depth _ y (by simp [CodeTree.IsCode, CodeTree.lookup, CodeTree.sym, hr, hpath m hm, hl, hnd, hy])
  · simpa using hlongest (hw.follow_concat hr (hpath m hm) ha)

/-- The walk of `STORE` (R140) ends, from every node and with the levels left below it. -/
theorem CodeTree.WF.storeFrom_completes {t : CodeTree} (hw : t.WF) {r : Nat} (hr : t.root = some r) (k : Nat) :
    ∀ p n d, t.follow r p = some n → 255 < p.length + k → ∃ bytes, t.storeFrom k n d = some bytes := by
  induction k with
  | zero =>
    intro p n d hp hk
    have := hw.follow_length_le hr hp
    omega
  | succ k ih =>
    intro p n d hp hk
    have below : ∀ {b c}, t.child n b = some c → ∃ bytes, t.storeFrom k c (d + 1) = some bytes := fun {b c} hc =>
      ih (p ++ [b]) c (d + 1) (hw.follow_concat hr hp hc) (by simp; omega)
    obtain ⟨nd, hnd, ⟨-, h0, h1, y, hy⟩ | ⟨a, b, h0, h1, ha, hb⟩⟩ := hw.node_cases (CodeTree.follow_lt hp)
    · simp [CodeTree.storeFrom, hnd, h0, h1, hy]
    · obtain ⟨xs, hxs⟩ := below ha
      obtain ⟨ys, hys⟩ := below hb
      simp [CodeTree.storeFrom, hnd, h0, h1, hxs, hys]

/-- Under `TreeWF` the header of the tree exists (R140). -/
theorem CodeTree.WF.storeBytes_completes {t : CodeTree} (hw : t.WF) : ∃ bytes, t.storeBytes = some bytes := by
  cases hr : t.root with
  | none => exact ⟨[], by simp [CodeTree.storeBytes, hr]⟩
  | some r =>
    simpa [CodeTree.storeBytes, hr] using hw.storeFrom_completes hr Config.maxLevels [] r 0 (hw.follow_root hr) (by decide)

/-- The walk of `DECODE` (R151) stays in a well-formed tree, from every node and with the levels left below it. -/
theorem State.decodeFrom_ne_lost {t : CodeTree} (hw : t.WF) {r : Nat} (hr : t.root = some r) (k : Nat) :
    ∀ p n (s : State), s.tree = t → t.follow r p = some n → 255 < p.length + k → s.decodeFrom k n ≠ .lost := by
  induction k with
  | zero =>
    intro p n s _ hp hk
    have := hw.follow_length_le hr hp
    omega
  | succ k ih =>
    intro p n s ht hp hk
    obtain ⟨nd, hnd, ⟨-, h0, h1, y, hy⟩ | ⟨a, b, h0, h1, ha, hb⟩⟩ := hw.node_cases (CodeTree.follow_lt hp) <;>
      rw [State.decodeFrom_succ (ht ▸ hnd)]
    · simp [h0, h1, hy]
    · cases hg : s.getBit with
      | none => simp [h0]
      | some q =>
        obtain ⟨v, s1⟩ := q
        have ht1 : s1.tree = t := by rw [(State.ReadsTo.of_getBit hg).same]; exact ht
        have below : ∀ {c}, t.child n v = some c → s1.decodeFrom k c ≠ .lost := fun {c} hc =>
          ih (p ++ [v]) c s1 ht1 (hw.follow_concat hr hp hc) (by simp; omega)
        cases v with
        | false => simpa [h0, h1] using below ha
        | true => simpa [h0, h1] using below hb

/-- Under `TreeWF` the leaf of a symbol has a codeword (R150). -/
theorem CodeTree.WF.codeword_completes {t : CodeTree} (hw : t.WF) {y : Byte} {n : Nat} (hn : t.leafOf y = some n) :
    ∃ bits, t.codeword n = some bits := by
  obtain ⟨hl, -⟩ := hw.leafIndex y n hn
  obtain ⟨r, hr⟩ := hw.root_of_isLeaf hl
  obtain ⟨p, hp, -⟩ := (hw.rooted_at hr).2.2 n (CodeTree.isLeaf_lt hl)
  have hk : p.length < Config.maxLevels := Nat.lt_succ_of_le (hw.follow_length_le hr hp)
  exact ⟨p, by simp [CodeTree.codeword, hw.pathUp_follow hr p n hp _ hk]⟩

/-! ## Every command ends in a next state -/

theorem execReadbit_completes (s : State) : ∃ t, execReadbit s = .next t := by
  unfold execReadbit
  split <;> exact ⟨_, rfl⟩

theorem execReadbyte_completes (s : State) : ∃ t, execReadbyte s = .next t := by
  unfold execReadbyte
  split <;> exact ⟨_, rfl⟩

theorem execReadint_completes (s : State) : ∃ t, execReadint s = .next t := by
  unfold execReadint
  split <;> exact ⟨_, rfl⟩

theorem execFlush_completes (s : State) : ∃ t, execFlush s = .next t := by
  unfold execFlush
  split <;> exact ⟨_, rfl⟩

theorem execRebuild_completes (d : BitVec 9) (s : State) : ∃ t, execRebuild d s = .next t := by
  unfold execRebuild
  split
  · exact ⟨_, rfl⟩
  · split <;> exact ⟨_, rfl⟩

theorem execStore_completes {s : State} (hw : s.tree.WF) : ∃ t, execStore s = .next t := by
  obtain ⟨bytes, h⟩ := hw.storeBytes_completes
  simp [execStore, h]

theorem execEncode_completes {s : State} (hw : s.tree.WF) (y : Byte) : ∃ t, execEncode y s = .next t := by
  cases hn : s.tree.leafOf y with
  | none => simp [execEncode, hn]
  | some n =>
    obtain ⟨bits, h⟩ := hw.codeword_completes hn
    simp [execEncode, hn, h]

theorem execDecode_completes {s : State} (hw : s.tree.WF) : ∃ t, execDecode s = .next t := by
  cases hr : s.tree.root with
  | none => simp [execDecode, hr]
  | some r =>
    have hne := State.decodeFrom_ne_lost hw hr Config.maxLevels [] r s rfl (hw.follow_root hr) (by decide)
    obtain ⟨y, t, h, -⟩ | ⟨t, h, -⟩ | h := State.decodeFrom_cases Config.maxLevels r s
    · simp [execDecode, hr, h]
    · simp [execDecode, hr, h]
    · exact absurd h hne

end Sys2Proof.Machine

namespace Sys2Proof.Proofs

open Sys2Proof.Machine

/-- Settles O19: only `STORE`, `ENCODE` and `DECODE` can fault, when their walk leaves the tree, and in a well-formed tree every walk
from the root ends within 256 levels. -/
theorem everyCommandCompletes : Obligations.EveryCommandCompletes := by
  intro i s hw
  cases i with
  | writebit imm8 => exact ⟨_, rfl⟩
  | readbit => exact execReadbit_completes s
  | writebyte imm8 => exact ⟨_, rfl⟩
  | readbyte => exact execReadbyte_completes s
  | writeint => exact ⟨_, rfl⟩
  | readint => exact execReadint_completes s
  | flush => exact execFlush_completes s
  | build => exact ⟨_, rfl⟩
  | store => exact execStore_completes hw
  | rebuild imm9 => exact execRebuild_completes imm9 s
  | encode imm8 => exact execEncode_completes hw imm8
  | decode => exact execDecode_completes hw
  | sreset => exact ⟨_, rfl⟩

end Sys2Proof.Proofs
end

section
namespace Sys2Proof.Machine

/-! ## From links to `TreeWF`

`TreeWF` speaks of paths (R33 (a), (f)); the loops of `BUILD` and `REBUILD` write links. `CodeTree.Linked` is what both keep while they work;
`CodeTree.Linked.wf` turns it into `TreeWF`. -/

/-- Child and parent links agree, and the two children of a node differ. It holds of the forest `BUILD` merges as well as of a tree. -/
structure CodeTree.Linked (t : CodeTree) : Prop where
  parents : ∀ n b m, t.child n b = some m → m < t.nodes.length ∧ t.par m = some n
  hasParent : ∀ n m, t.par n = some m → ∃ b, t.child m b = some n
  distinct : ∀ n m, t.child n false = some m → t.child n true ≠ some m

theorem CodeTree.lt_of_child {t : CodeTree} {n m : Nat} {b : Bool} (h : t.child n b = some m) : n < t.nodes.length := by
  by_contra hn
  have he : t.nodes[n]? = none := List.getElem?_eq_none (by omega)
  cases b <;> simp [CodeTree.child, CodeTree.c0, CodeTree.c1, he] at h

theorem CodeTree.lt_of_par {t : CodeTree} {n m : Nat} (h : t.par n = some m) : n < t.nodes.length := by
  obtain ⟨nd, hn, -⟩ := Option.bind_eq_some_iff.1 h
  exact (List.getElem?_eq_some_iff.1 hn).1

/-- A leaf is a node with no child (R32). -/
theorem CodeTree.isLeaf_iff_child {t : CodeTree} {n : Nat} :
    t.isLeaf n = true ↔ n < t.nodes.length ∧ t.child n false = none ∧ t.child n true = none := by
  rw [CodeTree.isLeaf_iff]
  by_cases hn : n < t.nodes.length <;> simp [CodeTree.child, CodeTree.c0, CodeTree.c1, hn]

theorem CodeTree.Linked.child_number_unique {t : CodeTree} (hl : t.Linked) {n m : Nat} {b c : Bool} (hb : t.child n b = some m)
    (hc : t.child n c = some m) : b = c := by
  cases b <;> cases c
  · rfl
  · exact absurd hc (hl.distinct n m hb)
  · exact absurd hb (hl.distinct n m hc)
  · rfl

/-- Node `r` is the only one without a parent. -/
structure CodeTree.SoleRoot (t : CodeTree) (r : Nat) : Prop where
  lt : r < t.nodes.length
  par : t.par r = none
  only : ∀ n, n < t.nodes.length → t.par n = none → n = r

theorem CodeTree.Linked.follow_concat_iff {t : CodeTree} (hl : t.Linked) {r n : Nat} {p : List Bool} {b : Bool} (hr : r < t.nodes.length) :
    t.follow r (p ++ [b]) = some n ↔ ∃ m, t.follow r p = some m ∧ t.child m b = some n := by
  rw [CodeTree.follow_append _ _ _ _ hr, Option.bind_eq_some_iff]
  refine exists_congr fun m => and_congr_right fun _ => ?_
  simp only [CodeTree.follow_cons, CodeTree.follow_nil, Option.bind_eq_some_iff]
  constructor
  · rintro ⟨c, hc, h⟩
    obtain ⟨-, rfl⟩ : c < t.nodes.length ∧ c = n := by simpa using h
    exact hc
  · intro h
    exact ⟨n, h, by simp [(hl.parents _ _ _ h).1]⟩

/-- Parent links say which child link a path took last, so no two paths from the root end at one node. -/
theorem CodeTree.Linked.follow_unique {t : CodeTree} (hl : t.Linked) {r : Nat} (h : t.SoleRoot r) (p : List Bool) :
    ∀ q n, t.follow r p = some n → t.follow r q = some n → p = q := by
  obtain ⟨hr, hp, -⟩ := h
  have atRoot : ∀ {q : List Bool} {b}, t.follow r (q ++ [b]) ≠ some r := by
    intro q b h
    obtain ⟨m, -, hm⟩ := (hl.follow_concat_iff hr).1 h
    simp [(hl.parents _ _ _ hm).2] at hp
  induction p using List.reverseRecOn with
  | nil =>
    intro q n hn hq
    obtain rfl : r = n := by simpa [hr] using hn
    rcases q.eq_nil_or_concat with rfl | ⟨q, b, rfl⟩
    · rfl
    · exact absurd hq (by simpa using atRoot)
  | append_singleton p b ih =>
    intro q n hn hq
    rcases q.eq_nil_or_concat with rfl | ⟨q, c, rfl⟩
    · obtain rfl : r = n := by simpa [hr] using hq
      exact absurd hn atRoot
    · rw [List.concat_eq_append] at hq ⊢
      obtain ⟨m, hm, hmb⟩ := (hl.follow_concat_iff hr).1 hn
      obtain ⟨k, hk, hkc⟩ := (hl.follow_concat_iff hr).1 hq
      obtain rfl : m = k := by simpa [(hl.parents _ _ _ hmb).2] using (hl.parents _ _ _ hkc).2
      rw [ih q m hm hk, hl.child_number_unique hmb hkc]

/-- With no cycle of parents, every node is reached from the one node that has no parent. -/
theorem CodeTree.Linked.exists_follow {t : CodeTree} (hl : t.Linked) {r : Nat} (h : t.SoleRoot r) {rank : Nat → Nat}
    (hrank : ∀ n m, t.par n = some m → rank m < rank n) (n : Nat) (hn : n < t.nodes.length) : ∃ p, t.follow r p = some n := by
  induction hk : rank n using Nat.strong_induction_on generalizing n with
  | _ k ih =>
    cases hp : t.par n with
    | none => exact ⟨[], by simp [h.only n hn hp, h.lt]⟩
    | some m =>
      obtain ⟨b, hb⟩ := hl.hasParent n m hp
      obtain ⟨p, hpm⟩ := ih _ (hk ▸ hrank n m hp) m (CodeTree.lt_of_child hb) rfl
      exact ⟨p ++ [b], (hl.follow_concat_iff h.lt).2 ⟨m, hpm, hb⟩⟩

/-! ### Counting leaves -/

/-- The symbols with a `LEAF` entry (R31). -/
def CodeTree.symbols (t : CodeTree) : Finset Byte := Finset.univ.filter fun y => t.leafOf y ≠ none

theorem CodeTree.mem_symbols {t : CodeTree} {y : Byte} : y ∈ t.symbols ↔ t.leafOf y ≠ none := by simp [CodeTree.symbols]

theorem CodeTree.symbols_congr {t u : CodeTree} (h : t.leaf = u.leaf) : t.symbols = u.symbols := by
  ext y
  simp [CodeTree.mem_symbols, CodeTree.leafOf, h]

@[simp] theorem CodeTree.symbols_empty : CodeTree.empty.symbols = ∅ := by simp [CodeTree.symbols]

theorem CodeTree.card_symbols_le (t : CodeTree) : t.symbols.card ≤ 256 :=
  (Finset.card_le_univ _).trans_eq FinEnum.card_eq_fintypeCard.symm

theorem CodeTree.card_symbols_setLeaf {t : CodeTree} {y : Byte} {n : Nat} (h : t.leafOf y = none) :
    (t.setLeaf y n).symbols.card = t.symbols.card + 1 := by
  have hi : (t.setLeaf y n).symbols = insert y t.symbols := by
    ext z
    rw [Finset.mem_insert, CodeTree.mem_symbols, CodeTree.mem_symbols, CodeTree.setLeaf_leafOf]
    by_cases hz : z = y <;> simp [hz]
  rw [hi, Finset.card_insert_of_notMem (by simp [CodeTree.mem_symbols, h])]

theorem CodeTree.leafCount_eq_card (t : CodeTree) : t.leafCount = ((Finset.range t.nodes.length).filter fun n => t.isLeaf n = true).card := by
  rw [← Nat.count_eq_card_filter_range, Nat.count]
  simp [CodeTree.leafCount]

/-- The nodes in `L` and the `LEAF` entries name each other: R33 (d), where `L` are the leaves. -/
structure CodeTree.Named (t : CodeTree) (L : Nat → Prop) : Prop where
  leafSym : ∀ n, L n → ∃ y, t.sym n = some y ∧ t.leafOf y = some n
  leafIndex : ∀ y n, t.leafOf y = some n → L n ∧ t.sym n = some y

/-- A write that changes no name keeps the names. -/
theorem CodeTree.Named.congr {t u : CodeTree} {L L' : Nat → Prop} (h : t.Named L) (hl : ∀ n, L' n ↔ L n) (hleaf : ∀ y, u.leafOf y = t.leafOf y)
    (hs : ∀ n, L n → u.sym n = t.sym n) : u.Named L' where
  leafSym n hn := by
    rw [hl] at hn
    simpa [hs n hn, hleaf] using h.leafSym n hn
  leafIndex y n hy := by
    obtain ⟨hn, hsym⟩ := h.leafIndex y n (hleaf y ▸ hy)
    exact ⟨(hl n).2 hn, (hs n hn).trans hsym⟩

/-- A node that takes a new symbol, and the `LEAF` entry of that symbol, name each other. -/
theorem CodeTree.Named.insert {t u : CodeTree} {L L' : Nat → Prop} (h : t.Named L) {y : Byte} {n : Nat} (hy : t.leafOf y = none)
    (hl : ∀ m, L' m ↔ m = n ∨ L m) (hleaf : ∀ z, u.leafOf z = if z = y then some n else t.leafOf z)
    (hn : u.sym n = some y) (hs : ∀ m, L m → u.sym m = t.sym m) : u.Named L' where
  leafSym m hm := by
    rcases (hl m).1 hm with rfl | hm
    · exact ⟨y, hn, by simp [hleaf]⟩
    · obtain ⟨z, hz, hzm⟩ := h.leafSym m hm
      have hne : z ≠ y := fun e => by simp [← e, hzm] at hy
      exact ⟨z, (hs m hm).trans hz, by simp [hleaf, hne, hzm]⟩
  leafIndex z m hm := by
    rw [hleaf] at hm
    split at hm
    · next e =>
      obtain rfl : n = m := by simpa using hm
      exact ⟨(hl n).2 (.inl rfl), e ▸ hn⟩
    · obtain ⟨hm', hz⟩ := h.leafIndex z m hm
      exact ⟨(hl m).2 (.inr hm'), (hs m hm').trans hz⟩

/-- There are as many leaves as symbols with a `LEAF` entry. -/
theorem CodeTree.Named.leafCount_eq {t : CodeTree} (h : t.Named fun n => t.isLeaf n = true) : t.leafCount = t.symbols.card := by
  rw [CodeTree.leafCount_eq_card]
  refine (Finset.card_bij (fun y _ => (t.leafOf y).getD 0) ?_ ?_ ?_).symm
  · intro y hy
    obtain ⟨n, hn⟩ := Option.ne_none_iff_exists'.1 (CodeTree.mem_symbols.1 hy)
    have hl := (h.leafIndex y n hn).1
    simpa [hn] using ⟨CodeTree.isLeaf_lt hl, hl⟩
  · intro y hy z hz e
    obtain ⟨n, hn⟩ := Option.ne_none_iff_exists'.1 (CodeTree.mem_symbols.1 hy)
    obtain ⟨m, hm⟩ := Option.ne_none_iff_exists'.1 (CodeTree.mem_symbols.1 hz)
    obtain rfl : n = m := by simpa [hn, hm] using e
    simpa [(h.leafIndex z n hm).2] using (h.leafIndex y n hn).2.symm
  · intro n hn
    obtain ⟨y, -, hy⟩ := h.leafSym n (Finset.mem_filter.1 hn).2
    exact ⟨y, by simp [CodeTree.mem_symbols, hy], by simp [hy]⟩

/-- The nodes that are no leaf. -/
def CodeTree.inner (t : CodeTree) : Finset Nat := (Finset.range t.nodes.length).filter fun n => ¬ t.isLeaf n = true

theorem CodeTree.leafCount_add_card_inner (t : CodeTree) : t.leafCount + t.inner.card = t.nodes.length := by
  rw [CodeTree.leafCount_eq_card, CodeTree.inner, Finset.card_filter_add_card_filter_not, Finset.card_range]

/-- With no child or two (R33 (b)), the nodes that are no leaf have both. -/
theorem CodeTree.mem_inner_iff {t : CodeTree} (htwo : ∀ n, t.c0 n = none ↔ t.c1 n = none) {n : Nat} :
    n ∈ t.inner ↔ ∀ b, ∃ m, t.child n b = some m := by
  simp only [CodeTree.inner, Finset.mem_filter, Finset.mem_range, CodeTree.isLeaf_iff_child, ← Option.ne_none_iff_exists', Bool.forall_bool]
  have h2 : t.child n false = none ↔ t.child n true = none := htwo n
  constructor
  · rintro ⟨hlt, hnl⟩
    exact ⟨fun e => hnl ⟨hlt, e, h2.1 e⟩, fun e => hnl ⟨hlt, h2.2 e, e⟩⟩
  · rintro ⟨h, -⟩
    obtain ⟨m, hm⟩ := Option.ne_none_iff_exists'.1 h
    exact ⟨CodeTree.lt_of_child hm, fun ⟨_, e, _⟩ => h e⟩

/-- Every node but the root is one of the two children of an internal node: `NN - 1 = 2*(NN - NLEAF)`. -/
theorem CodeTree.Linked.length_eq {t : CodeTree} (hl : t.Linked) {r : Nat} (h : t.SoleRoot r) (htwo : ∀ n, t.c0 n = none ↔ t.c1 n = none) :
    t.nodes.length + 1 = 2 * t.leafCount := by
  obtain ⟨hr, hp, honly⟩ := h
  have hcount : (t.inner ×ˢ (Finset.univ : Finset Bool)).card = ((Finset.range t.nodes.length).erase r).card := by
    have hchild : ∀ {n b} {x : Finset Bool}, (n, b) ∈ t.inner ×ˢ x → ∃ m, t.child n b = some m := fun h =>
      (CodeTree.mem_inner_iff htwo).1 (Finset.mem_product.1 h).1 _
    refine Finset.card_bij (fun x _ => (t.child x.1 x.2).getD 0) ?_ ?_ ?_
    · rintro ⟨n, b⟩ hx
      obtain ⟨m, hm⟩ := hchild hx
      obtain ⟨hlt, hpar⟩ := hl.parents n b m hm
      have : m ≠ r := fun e => by simp [← e, hpar] at hp
      simpa [hm] using ⟨this, hlt⟩
    · rintro ⟨n, b⟩ hx ⟨k, c⟩ hy e
      obtain ⟨m, hm⟩ := hchild hx
      obtain ⟨m', hm'⟩ := hchild hy
      obtain rfl : m = m' := by simpa [hm, hm'] using e
      obtain rfl : n = k := by simpa [(hl.parents n b m hm).2] using (hl.parents k c m hm').2
      rw [hl.child_number_unique hm hm']
    · intro m hm
      obtain ⟨hmr, hlt⟩ := Finset.mem_erase.1 hm
      obtain ⟨n, hn⟩ := Option.ne_none_iff_exists'.1 fun e => hmr (honly m (Finset.mem_range.1 hlt) e)
      obtain ⟨b, hb⟩ := hl.hasParent m n hn
      have hin : n ∈ t.inner := Finset.mem_filter.2 ⟨Finset.mem_range.2 (CodeTree.lt_of_child hb), fun h => by
        obtain ⟨-, h0, h1⟩ := CodeTree.isLeaf_iff_child.1 h
        cases b <;> simp_all⟩
      exact ⟨(n, b), Finset.mem_product.2 ⟨hin, Finset.mem_univ b⟩, by simp [hb]⟩
  have hsplit := t.leafCount_add_card_inner
  rw [Finset.card_product, Finset.card_erase_of_mem (Finset.mem_range.2 hr), Finset.card_range] at hcount
  simp only [Finset.card_univ, Fintype.card_bool] at hcount
  omega

/-- `TreeWF` from the links: one node without a parent, which is the root, and no cycle of parents. -/
theorem CodeTree.Linked.wf {t : CodeTree} (hl : t.Linked) {r : Nat} (hroot : t.root = some r) (h : t.SoleRoot r) {rank : Nat → Nat}
    (hrank : ∀ n m, t.par n = some m → rank m < rank n) (htwo : ∀ n, t.c0 n = none ↔ t.c1 n = none)
    (hnamed : t.Named fun n => t.isLeaf n = true) (hc : t.nleaf.toNat = t.symbols.card)
    (hd : ∀ p n, t.follow r p = some n → p.length ≤ 255) : t.WF where
  rooted := .inr ⟨r, hroot, h.lt, h.par, fun n hn =>
    let ⟨p, hp⟩ := hl.exists_follow h hrank n hn
    ⟨p, hp, fun q hq => hl.follow_unique h q p n hq hp⟩⟩
  twoChildren := htwo
  parents := hl.parents
  leafSym := hnamed.leafSym
  leafIndex := hnamed.leafIndex
  leaves := by rw [hnamed.leafCount_eq, hc]
  nodeCount _ := by
    have := hl.length_eq h htwo
    rw [hnamed.leafCount_eq, ← hc] at this
    omega
  depth p y hy := by
    simp only [CodeTree.IsCode, CodeTree.lookup, hroot, Option.bind_some, Option.map_eq_some_iff] at hy
    obtain ⟨n, hn, -⟩ := hy
    exact hd p n hn

/-- A tree with nothing in it is the empty tree. -/
theorem CodeTree.eq_empty {t : CodeTree} (hn : t.nodes = []) (hr : t.root = none) (hs : t.symbols = ∅) (hc : t.nleaf = 0) :
    t = CodeTree.empty := by
  obtain ⟨nodes, root, leaf, nleaf⟩ := t
  have hleaf : leaf = Vector.replicate 256 none := by
    ext1 i hlt
    have : BitVec.ofNat 8 i ∉ (CodeTree.mk nodes root leaf nleaf).symbols := by simp [hs]
    simpa [CodeTree.mem_symbols, CodeTree.leafOf, symIndex, Vector.get_eq_getElem, Nat.mod_eq_of_lt hlt] using this
  simp_all [CodeTree.empty]

end Sys2Proof.Machine
end

section
namespace Sys2Proof.Machine

/-! ## What the writes of the arena do to links

One rule per write and link, so that the loops of `BUILD` and `REBUILD` are followed without unfolding the arena. -/

theorem CodeTree.child_eq_bind (t : CodeTree) (n : Nat) (b : Bool) :
    t.child n b = t.nodes[n]?.bind fun nd => if b then nd.c1 else nd.c0 := by cases b <;> rfl

@[simp] theorem CodeTree.child_length (t : CodeTree) (b : Bool) : t.child t.nodes.length b = none := by simp [CodeTree.child_eq_bind]
@[simp] theorem CodeTree.par_length (t : CodeTree) : t.par t.nodes.length = none := by simp [CodeTree.par]

theorem CodeTree.addNode_child (t : CodeTree) (nd : Node) (n : Nat) (b : Bool) :
    (t.addNode nd).child n b = if n = t.nodes.length then (if b then nd.c1 else nd.c0) else t.child n b := by
  rw [CodeTree.child_eq_bind, CodeTree.child_eq_bind, CodeTree.addNode_get]
  split <;> rfl

theorem CodeTree.addNode_par (t : CodeTree) (nd : Node) (n : Nat) :
    (t.addNode nd).par n = if n = t.nodes.length then nd.par else t.par n := by
  rw [CodeTree.par, CodeTree.par, CodeTree.addNode_get]
  split <;> rfl

theorem CodeTree.addNode_sym (t : CodeTree) (nd : Node) (n : Nat) :
    (t.addNode nd).sym n = if n = t.nodes.length then nd.sym else t.sym n := by
  rw [CodeTree.sym, CodeTree.sym, CodeTree.addNode_get]
  split <;> rfl

@[simp] theorem CodeTree.setLeaf_child (t : CodeTree) (y : Byte) (n m : Nat) (b : Bool) : (t.setLeaf y n).child m b = t.child m b := rfl
@[simp] theorem CodeTree.setLeaf_par (t : CodeTree) (y : Byte) (n m : Nat) : (t.setLeaf y n).par m = t.par m := rfl
@[simp] theorem CodeTree.setLeaf_sym (t : CodeTree) (y : Byte) (n m : Nat) : (t.setLeaf y n).sym m = t.sym m := rfl

theorem CodeTree.updateNode_child (t : CodeTree) (n m : Nat) (f : Node → Node) (b : Bool) (hf : ∀ nd, (f nd).c0 = nd.c0 ∧ (f nd).c1 = nd.c1) :
    (t.updateNode n f).child m b = t.child m b := by
  rw [CodeTree.child_eq_bind, CodeTree.child_eq_bind, CodeTree.updateNode_get]
  cases t.nodes[m]? <;> split <;> simp [hf]

theorem CodeTree.updateNode_par (t : CodeTree) (n m : Nat) (f : Node → Node) (hf : ∀ nd, (f nd).par = nd.par) :
    (t.updateNode n f).par m = t.par m := by
  rw [CodeTree.par, CodeTree.par, CodeTree.updateNode_get]
  cases t.nodes[m]? <;> split <;> simp [hf]

theorem CodeTree.updateNode_sym (t : CodeTree) (n m : Nat) (f : Node → Node) (hf : ∀ nd, (f nd).sym = nd.sym) :
    (t.updateNode n f).sym m = t.sym m := by
  rw [CodeTree.sym, CodeTree.sym, CodeTree.updateNode_get]
  cases t.nodes[m]? <;> split <;> simp [hf]

theorem CodeTree.updateNode_par_set {t : CodeTree} {n : Nat} (h : n < t.nodes.length) (m : Nat) (p : Option Nat) :
    (t.updateNode n fun nd => { nd with par := p }).par m = if m = n then p else t.par m := by
  rw [CodeTree.par, CodeTree.par, CodeTree.updateNode_get]
  by_cases e : m = n
  · simp [e, h]
  · simp [e, Ne.symm e]

theorem CodeTree.updateNode_sym_set {t : CodeTree} {n : Nat} (h : n < t.nodes.length) (m : Nat) (y : Option Byte) :
    (t.updateNode n fun nd => { nd with sym := y }).sym m = if m = n then y else t.sym m := by
  rw [CodeTree.sym, CodeTree.sym, CodeTree.updateNode_get]
  by_cases e : m = n
  · simp [e, h]
  · simp [e, Ne.symm e]

/-! ## BUILD makes a well-formed tree (R130, R133) -/

/-- What the loops of `BUILD` keep: a forest whose roots are the nodes in the heap, in which every link goes to a node made later and all
leaves were made first. -/
structure Build.Inv (b : Build) : Prop where
  linked : b.tree.Linked
  order : ∀ n m, b.tree.par n = some m → n < m
  two : ∀ n, b.tree.c0 n = none ↔ b.tree.c1 n = none
  named : b.tree.Named fun n => b.tree.isLeaf n = true
  leavesFirst : ∀ n m i, b.tree.child n i = some m → b.tree.symbols.card ≤ n
  heapNodup : (b.heap.map (·.id)).Nodup
  mem_heap : ∀ n, n ∈ b.heap.map (·.id) ↔ n < b.tree.nodes.length ∧ b.tree.par n = none
  rootless : b.tree.root = none

/-! ### One merge -/

section Merge
variable {x y : HeapEntry} {rest : List HeapEntry} {t : CodeTree}

@[simp] theorem Build.merge_length : (Build.merge x y rest t).tree.nodes.length = t.nodes.length + 1 := by simp [Build.merge]
@[simp] theorem Build.merge_leaf : (Build.merge x y rest t).tree.leaf = t.leaf := rfl
@[simp] theorem Build.merge_nleaf : (Build.merge x y rest t).tree.nleaf = t.nleaf := rfl

theorem Build.merge_child (n : Nat) (i : Bool) :
    (Build.merge x y rest t).tree.child n i = if n = t.nodes.length then some (if i then y.id else x.id) else t.child n i := by
  rw [Build.merge, CodeTree.updateNode_child, CodeTree.updateNode_child, CodeTree.addNode_child]
  · cases i <;> rfl
  all_goals exact fun _ => ⟨rfl, rfl⟩

theorem Build.merge_par (hx : x.id < t.nodes.length) (hy : y.id < t.nodes.length) (n : Nat) :
    (Build.merge x y rest t).tree.par n = if n = x.id ∨ n = y.id then some t.nodes.length else t.par n := by
  rw [Build.merge, CodeTree.updateNode_par_set (by simp; omega), CodeTree.updateNode_par_set (by simp; omega), CodeTree.addNode_par]
  by_cases h1 : n = x.id <;> by_cases h2 : n = y.id <;> simp [h1, h2]
  intro e
  rw [e, CodeTree.par_length]

theorem Build.merge_sym {n : Nat} (hn : n < t.nodes.length) : (Build.merge x y rest t).tree.sym n = t.sym n := by
  rw [Build.merge, CodeTree.updateNode_sym, CodeTree.updateNode_sym, CodeTree.addNode_sym, if_neg (by omega)]
  all_goals exact fun _ => rfl

theorem Build.merge_isLeaf (n : Nat) : (Build.merge x y rest t).tree.isLeaf n = t.isLeaf n := by
  rw [Bool.eq_iff_iff, CodeTree.isLeaf_iff_child, CodeTree.isLeaf_iff_child, Build.merge_child, Build.merge_child, Build.merge_length]
  by_cases h : n = t.nodes.length
  · simp [h]
  · simp [h, Nat.lt_iff_le_and_ne]

theorem Build.merge_heap_ids : ((Build.merge x y rest t).heap.map (·.id)).Perm (t.nodes.length :: rest.map (·.id)) :=
  (heapInsert_perm _ rest).map _

/-- Joining two nodes without a parent keeps child and parent links in step. -/
theorem Build.merge_linked (hl : t.Linked) (hx : x.id < t.nodes.length) (hpx : t.par x.id = none) (hy : y.id < t.nodes.length)
    (hpy : t.par y.id = none) (hxy : x.id ≠ y.id) : (Build.merge x y rest t).tree.Linked where
  parents n i m hc := by
    rw [Build.merge_par hx hy, Build.merge_length]
    rw [Build.merge_child] at hc
    split at hc
    · next hn =>
      obtain rfl : (if i then y.id else x.id) = m := by simpa using hc
      cases i <;> simp [hn] <;> omega
    · obtain ⟨hm, hp⟩ := hl.parents n i m hc
      refine ⟨by omega, ?_⟩
      rw [if_neg, hp]
      rintro (rfl | rfl)
      · simp [hp] at hpx
      · simp [hp] at hpy
  hasParent n m hp := by
    rw [Build.merge_par hx hy] at hp
    split at hp
    · next hn =>
      obtain rfl : t.nodes.length = m := by simpa using hp
      rcases hn with rfl | rfl
      · exact ⟨false, by simp [Build.merge_child]⟩
      · exact ⟨true, by simp [Build.merge_child]⟩
    · obtain ⟨i, hi⟩ := hl.hasParent n m hp
      exact ⟨i, by rw [Build.merge_child, if_neg (CodeTree.lt_of_child hi).ne, hi]⟩
  distinct n m := by
    rw [Build.merge_child, Build.merge_child]
    split
    · simp only [Bool.false_eq_true, if_false, if_true, Option.some.injEq]
      exact fun ex ey => hxy (ex.trans (Option.some.inj ey).symm)
    · exact hl.distinct n m

/-- A merge keeps the heap the list of the nodes without a parent. -/
theorem Build.merge_mem_heap (hx : x.id < t.nodes.length) (hy : y.id < t.nodes.length) (hxr : x.id ∉ rest.map (·.id)) (hyr : y.id ∉ rest.map (·.id))
    (hmem : ∀ n, n ∈ (x :: y :: rest).map (·.id) ↔ n < t.nodes.length ∧ t.par n = none) (n : Nat) :
    n ∈ (Build.merge x y rest t).heap.map (·.id) ↔
      n < (Build.merge x y rest t).tree.nodes.length ∧ (Build.merge x y rest t).tree.par n = none := by
  rw [Build.merge_heap_ids.mem_iff, Build.merge_par hx hy, Build.merge_length, List.mem_cons]
  by_cases h : n = x.id ∨ n = y.id
  · have hn : n ∉ rest.map (·.id) := by rcases h with rfl | rfl <;> assumption
    rw [if_pos h]
    simp only [hn, or_false, reduceCtorEq, and_false, iff_false]
    omega
  · have hm := hmem n
    simp only [List.map_cons, List.mem_cons, ← or_assoc, h, false_or] at hm
    rw [if_neg h, hm]
    constructor
    · rintro (rfl | ⟨hlt, hp⟩)
      · simp
      · exact ⟨by omega, hp⟩
    · rintro ⟨hlt, hp⟩
      by_cases hN : n = t.nodes.length
      · exact .inl hN
      · exact .inr ⟨by omega, hp⟩

theorem Build.merge_keeps_inv (h : Build.Inv { tree := t, heap := x :: y :: rest }) : Build.Inv (Build.merge x y rest t) := by
  obtain ⟨linked, order, two, named, first, nodup, mem, rootless⟩ := h
  dsimp only at linked order two named first nodup mem rootless
  obtain ⟨hx, hpx⟩ := (mem x.id).1 (by simp)
  obtain ⟨hy, hpy⟩ := (mem y.id).1 (by simp)
  obtain ⟨hx', hrest⟩ := List.nodup_cons.1 nodup
  obtain ⟨hyr, nodup'⟩ := List.nodup_cons.1 hrest
  obtain ⟨hxy, hxr⟩ := not_or.1 (mt List.mem_cons.2 hx')
  refine ⟨Build.merge_linked linked hx hpx hy hpy hxy, ?_, ?_, ?_, ?_, ?_, Build.merge_mem_heap hx hy hxr hyr mem, rootless⟩
  · intro n m hp
    rw [Build.merge_par hx hy] at hp
    split at hp
    · obtain rfl : t.nodes.length = m := by simpa using hp
      rcases ‹n = x.id ∨ n = y.id› with rfl | rfl <;> assumption
    · exact order n m hp
  · intro n
    show (Build.merge x y rest t).tree.child n false = none ↔ (Build.merge x y rest t).tree.child n true = none
    rw [Build.merge_child, Build.merge_child]
    split
    · simp
    · exact two n
  · exact named.congr (fun n => by rw [Build.merge_isLeaf]) (fun _ => rfl) fun n hn => Build.merge_sym (CodeTree.isLeaf_lt hn)
  · intro n m i hc
    rw [CodeTree.symbols_congr Build.merge_leaf]
    rw [Build.merge_child] at hc
    split at hc
    · next hn =>
      rw [hn, ← named.leafCount_eq, ← t.leafCount_add_card_inner]
      exact Nat.le_add_right _ _
    · exact first n m i hc
  · refine Build.merge_heap_ids.nodup_iff.2 (List.nodup_cons.2 ⟨fun hN => ?_, nodup'⟩)
    exact Nat.lt_irrefl _ ((mem _).1 (List.mem_cons_of_mem _ (List.mem_cons_of_mem _ hN))).1

end Merge

end Sys2Proof.Machine
end

section
namespace Sys2Proof.Machine

/-! ### One leaf -/

section AddLeaf
variable {freq : Vector Word 256} {s : Fin 256} (hf : freq.get s ≠ 0) (b : Build)
include hf

theorem Build.addLeaf_used : Build.addLeaf freq b s =
    { tree := (b.tree.addNode { weight := some ((freq.get s).setWidth 40), sym := some (BitVec.ofFin s), c0 := none, c1 := none, par := none }).setLeaf
        (BitVec.ofFin s) b.tree.nodes.length
      heap := heapInsert { id := b.tree.nodes.length, weight := (freq.get s).setWidth 40, sym := BitVec.ofFin s } b.heap } := by
  simp only [Build.addLeaf]
  exact if_neg hf

theorem Build.addLeaf_length : (Build.addLeaf freq b s).tree.nodes.length = b.tree.nodes.length + 1 := by
  simp [Build.addLeaf_used hf]

theorem Build.addLeaf_child (n : Nat) (i : Bool) : (Build.addLeaf freq b s).tree.child n i = b.tree.child n i := by
  rw [Build.addLeaf_used hf, CodeTree.setLeaf_child, CodeTree.addNode_child]
  split
  · next h => simp [h]
  · rfl

theorem Build.addLeaf_par (n : Nat) : (Build.addLeaf freq b s).tree.par n = b.tree.par n := by
  rw [Build.addLeaf_used hf, CodeTree.setLeaf_par, CodeTree.addNode_par]
  split
  · next h => simp [h]
  · rfl

theorem Build.addLeaf_sym (n : Nat) :
    (Build.addLeaf freq b s).tree.sym n = if n = b.tree.nodes.length then some (BitVec.ofFin s) else b.tree.sym n := by
  rw [Build.addLeaf_used hf, CodeTree.setLeaf_sym, CodeTree.addNode_sym]

theorem Build.addLeaf_leafOf (y : Byte) :
    (Build.addLeaf freq b s).tree.leafOf y = if y = BitVec.ofFin s then some b.tree.nodes.length else b.tree.leafOf y := by
  rw [Build.addLeaf_used hf, CodeTree.setLeaf_leafOf]
  rfl

theorem Build.addLeaf_isLeaf (n : Nat) :
    (Build.addLeaf freq b s).tree.isLeaf n = true ↔ n = b.tree.nodes.length ∨ b.tree.isLeaf n = true := by
  rw [CodeTree.isLeaf_iff_child, CodeTree.isLeaf_iff_child, Build.addLeaf_length hf, Build.addLeaf_child hf, Build.addLeaf_child hf]
  by_cases h : n = b.tree.nodes.length
  · simp [h]
  · simp [h, Nat.lt_iff_le_and_ne]

theorem Build.addLeaf_heap_ids : ((Build.addLeaf freq b s).heap.map (·.id)).Perm (b.tree.nodes.length :: b.heap.map (·.id)) := by
  rw [Build.addLeaf_used hf]
  exact (heapInsert_perm _ _).map _

end AddLeaf

/-- What the first loop of `BUILD` keeps: all nodes are leaves in the heap, one for each symbol met so far. -/
structure Build.LeavesOnly (b : Build) : Prop where
  inv : b.Inv
  childless : ∀ n i, b.tree.child n i = none
  length : b.tree.nodes.length = b.tree.symbols.card
  heapLength : b.heap.length = b.tree.nodes.length

theorem Build.leavesOnly_start : Build.LeavesOnly { tree := CodeTree.empty, heap := [] } where
  inv := {
    linked := ⟨by simp [CodeTree.child_eq_bind], by simp [CodeTree.par], by simp [CodeTree.child_eq_bind]⟩
    order := by simp [CodeTree.par]
    two := by simp [CodeTree.c0, CodeTree.c1]
    named := ⟨CodeTree.empty_wf.leafSym, CodeTree.empty_wf.leafIndex⟩
    leavesFirst := by simp
    heapNodup := by simp
    mem_heap := by simp
    rootless := rfl }
  childless := by simp [CodeTree.child_eq_bind]
  length := by simp
  heapLength := rfl

theorem Build.LeavesOnly.addLeaf {freq : Vector Word 256} {b : Build} (h : b.LeavesOnly) {s : Fin 256}
    (hs : b.tree.leafOf (BitVec.ofFin s) = none) : (Build.addLeaf freq b s).LeavesOnly := by
  by_cases hf : freq.get s = 0
  · rwa [Build.addLeaf_unused hf]
  obtain ⟨⟨linked, order, two, named, -, nodup, mem, rootless⟩, childless, hlen, hheap⟩ := h
  have hchild : ∀ n i, (Build.addLeaf freq b s).tree.child n i = none := fun n i => (Build.addLeaf_child hf b n i).trans (childless n i)
  have hpar : ∀ n, b.tree.par n = none := fun n => Option.eq_none_iff_forall_ne_some.2 fun m hp => by
    obtain ⟨i, hi⟩ := linked.hasParent n m hp
    simp [childless] at hi
  have hcard : (Build.addLeaf freq b s).tree.symbols.card = b.tree.symbols.card + 1 := by
    rw [Build.addLeaf_used hf]
    exact CodeTree.card_symbols_setLeaf hs
  have hids := Build.addLeaf_heap_ids hf b
  refine ⟨⟨⟨by simp [hchild], by simp [Build.addLeaf_par hf, hpar], by simp [hchild]⟩, by simp [Build.addLeaf_par hf, hpar], fun n => ?_, ?_,
    by simp [hchild], ?_, fun n => ?_, ?_⟩, hchild, ?_, ?_⟩
  · exact iff_of_true (hchild n false) (hchild n true)
  · exact named.insert hs (Build.addLeaf_isLeaf hf b) (Build.addLeaf_leafOf hf b) (by simp [Build.addLeaf_sym hf])
      fun m hm => by rw [Build.addLeaf_sym hf, if_neg (CodeTree.isLeaf_lt hm).ne]
  · refine hids.nodup_iff.2 (List.nodup_cons.2 ⟨fun hN => ?_, nodup⟩)
    exact Nat.lt_irrefl _ ((mem _).1 hN).1
  · rw [hids.mem_iff, List.mem_cons, mem, Build.addLeaf_length hf, Build.addLeaf_par hf]
    simp only [hpar, and_true]
    omega
  · rw [Build.addLeaf_used hf]
    exact rootless
  · rw [Build.addLeaf_length hf, hcard, hlen]
  · have := hids.length_eq
    simp only [List.length_map, List.length_cons] at this
    rw [this, Build.addLeaf_length hf, hheap]

/-- A pass leaves the entries of the other symbols alone. -/
theorem Build.addLeaf_leafOf_other {freq : Vector Word 256} {b : Build} {s z : Fin 256} (h : z ≠ s) :
    (Build.addLeaf freq b s).tree.leafOf (BitVec.ofFin z) = b.tree.leafOf (BitVec.ofFin z) := by
  by_cases hf : freq.get s = 0
  · rw [Build.addLeaf_unused hf]
  · rw [Build.addLeaf_leafOf hf, if_neg fun e => h (congrArg BitVec.toFin e)]

theorem Build.LeavesOnly.foldl {freq : Vector Word 256} {l : List (Fin 256)} (hl : l.Nodup) {b : Build} (h : b.LeavesOnly)
    (hn : ∀ s ∈ l, b.tree.leafOf (BitVec.ofFin s) = none) : (l.foldl (Build.addLeaf freq) b).LeavesOnly := by
  induction l generalizing b with
  | nil => exact h
  | cons s l ih =>
    obtain ⟨hs, hl⟩ := List.nodup_cons.1 hl
    refine ih hl (h.addLeaf (hn s List.mem_cons_self)) fun z hz => ?_
    rw [Build.addLeaf_leafOf_other (ne_of_mem_of_not_mem hz hs)]
    exact hn z (List.mem_cons_of_mem s hz)

/-- The register `NLEAF` has no part in what the loops of `BUILD` keep. -/
theorem Build.LeavesOnly.withNleaf {b : Build} (h : b.LeavesOnly) (c : BitVec 9) :
    Build.LeavesOnly { b with tree := { b.tree with nleaf := c } } := by
  obtain ⟨⟨⟨parents, hasParent, distinct⟩, order, two, ⟨leafSym, leafIndex⟩, first, nodup, mem, rootless⟩, childless, hlen, hheap⟩ := h
  exact ⟨⟨⟨parents, hasParent, distinct⟩, order, two, ⟨leafSym, leafIndex⟩, first, nodup, mem, rootless⟩, childless, hlen, hheap⟩

theorem buildLeaves_leavesOnly (freq : Vector Word 256) : (buildLeaves freq).LeavesOnly :=
  (Build.leavesOnly_start.foldl (List.nodup_finRange 256) (by simp)).withNleaf _

/-- After its first loop `BUILD` has counted its leaves (R130). -/
theorem buildLeaves_nleaf (freq : Vector Word 256) : (buildLeaves freq).tree.nleaf.toNat = (buildLeaves freq).tree.symbols.card := by
  have h := buildLeaves_leavesOnly freq
  have hcard := (buildLeaves freq).tree.card_symbols_le
  have hn : (buildLeaves freq).tree.nleaf = BitVec.ofNat 9 (buildLeaves freq).heap.length := rfl
  rw [hn, h.heapLength, h.length, BitVec.toNat_ofNat, Nat.mod_eq_of_lt (by omega)]

/-- Along a path in a tree of `BUILD` the nodes are numbered downwards, and those that are no leaf are numbered from the number of leaves on. -/
theorem Build.Inv.follow_length_le {b : Build} (h : b.Inv) (p : List Bool) :
    ∀ n m, b.tree.follow n p = some m → p = [] ∨ p.length + b.tree.symbols.card ≤ n + 1 := by
  induction p with
  | nil => exact fun _ _ _ => .inl rfl
  | cons i p ih =>
    intro n m hp
    obtain ⟨c, hc, hp⟩ := Option.bind_eq_some_iff.1 hp
    have hfirst := h.leavesFirst n c i hc
    have hlt : c < n := h.order c n (h.linked.parents n i c hc).2
    right
    rcases ih c m hp with rfl | hlen
    · simp; omega
    · simp only [List.length_cons]; omega

/-- The root is the only node the merges leave without a parent, so the tree is well-formed (R133). -/
theorem Build.Inv.wf_of_last {b : Build} (h : b.Inv) {e : HeapEntry} (he : b.heap = [e]) (hc : b.tree.nleaf.toNat = b.tree.symbols.card) :
    CodeTree.WF { b.tree with root := some e.id } := by
  have hmem : ∀ n, n = e.id ↔ n < b.tree.nodes.length ∧ b.tree.par n = none := fun n => by simpa [he] using h.mem_heap n
  have hsole : b.tree.SoleRoot e.id := ⟨((hmem _).1 rfl).1, ((hmem _).1 rfl).2, fun n hn hp => (hmem n).2 ⟨hn, hp⟩⟩
  have hcount := h.linked.length_eq hsole h.two
  rw [h.named.leafCount_eq] at hcount
  have hcard := b.tree.card_symbols_le
  refine CodeTree.Linked.wf ⟨h.linked.parents, h.linked.hasParent, h.linked.distinct⟩ rfl ⟨hsole.lt, hsole.par, hsole.only⟩
    (rank := fun n => b.tree.nodes.length - n) (fun n m hnm => ?_) h.two ⟨h.named.leafSym, h.named.leafIndex⟩ hc fun p n hn => ?_
  · have := h.order n m hnm
    have := CodeTree.lt_of_par (t := b.tree) hnm
    omega
  · have hn : b.tree.follow e.id p = some n := by
      rw [← hn]
      exact CodeTree.follow_congr (by rfl) e.id p
    have hr := hsole.lt
    rcases h.follow_length_le p _ n hn with rfl | hlen
    · simp
    · omega

/-- With no used symbol there is nothing to merge (R132). -/
theorem buildTree_of_no_leaf {freq : Vector Word 256} (h0 : (buildLeaves freq).heap = []) : buildTree freq = CodeTree.empty := by
  have h := buildLeaves_leavesOnly freq
  have hlen : (buildLeaves freq).tree.nodes.length = 0 := by simp [← h.heapLength, h0]
  have hcard : (buildLeaves freq).tree.symbols.card = 0 := h.length ▸ hlen
  have hnleaf : (buildLeaves freq).tree.nleaf = 0 := BitVec.eq_of_toNat_eq ((buildLeaves_nleaf freq).trans hcard)
  have he : buildTree freq = (buildLeaves freq).tree := by simp [buildTree, h0, Build.mergeAll]
  rw [he, CodeTree.eq_empty (List.length_eq_zero_iff.1 hlen) h.inv.rootless (Finset.card_eq_zero.1 hcard) hnleaf]

/-- `BUILD` makes a well-formed tree of every table (R133). -/
theorem buildTree_wf (freq : Vector Word 256) : (buildTree freq).WF := by
  by_cases h0 : (buildLeaves freq).heap = []
  · rw [buildTree_of_no_leaf h0]
    exact CodeTree.empty_wf
  obtain ⟨h, hc⟩ := Build.mergeAll_keeps (P := fun b => b.Inv ∧ b.tree.nleaf.toNat = b.tree.symbols.card)
    (fun x y rest t h => ⟨Build.merge_keeps_inv h.1, by rw [Build.merge_nleaf, h.2, CodeTree.symbols_congr Build.merge_leaf]⟩)
    (buildLeaves freq).heap.length _ ⟨(buildLeaves_leavesOnly freq).inv, buildLeaves_nleaf freq⟩
  have hone := Build.mergeAll_heap_length _ (buildLeaves freq) le_rfl
  rw [Nat.min_eq_left (List.length_pos_iff.2 h0), List.length_eq_one_iff] at hone
  obtain ⟨e, he⟩ := hone
  have ht : buildTree freq = { (Build.mergeAll (buildLeaves freq).heap.length (buildLeaves freq)).tree with root := some e.id } := by
    simp [buildTree, he]
  rw [ht]
  exact h.wf_of_last he hc

end Sys2Proof.Machine
end

section
namespace Sys2Proof.Machine

/-! ## REBUILD makes a well-formed tree (R141, R142)

Every header that trips no check of R141 makes a tree that satisfies `TreeWF`. The loop keeps the nodes with one child above the cursor:
the climb passes none of them, so it ends with no cursor only when there is none left. -/

/-- `m` is `n` or an ancestor of `n`. -/
def CodeTree.Above (t : CodeTree) (m n : Nat) : Prop := Relation.ReflTransGen (fun a b => t.par a = some b) n m

/-- `depth` gives each node its depth: the root 0, a child one more than its parent (R140), none above 255. -/
structure CodeTree.Depths (t : CodeTree) (depth : Nat → Nat) : Prop where
  root : depth 0 = 0
  step : ∀ n m, t.par n = some m → depth n = depth m + 1
  le : ∀ n, n < t.nodes.length → depth n ≤ 255

/-- What the loop of `REBUILD` keeps, with the cursor `cur`. -/
structure CodeTree.Grown (t : CodeTree) (cur : Option Nat) (depth : Nat → Nat) : Prop where
  linked : t.Linked
  order : ∀ n m, t.par n = some m → m < n
  root : t.root = some 0
  sole : t.SoleRoot 0
  firstSlot : ∀ n, t.child n false = none → t.child n true = none
  free : ∀ c, cur = some c → c < t.nodes.length ∧ t.child c true = none
  pending : ∀ n, t.child n false ≠ none → t.child n true = none → ∃ c, cur = some c ∧ t.Above n c
  named : t.Named fun n => t.isLeaf n = true ∧ cur ≠ some n
  depths : t.Depths depth

/-! ### One node of the descent -/

/-- One pass of `while cd < d` (R141): a new node below `cur`, in slot 0 if it is free, else in slot 1. -/
def CodeTree.grow (cur : Nat) (t : CodeTree) : CodeTree :=
  (t.addNode { weight := none, sym := none, c0 := none, c1 := none, par := some cur }).updateNode cur fun nd =>
    if nd.c0 = none then { nd with c0 := some t.nodes.length } else { nd with c1 := some t.nodes.length }

theorem CodeTree.descend_succ (k cur : Nat) (t : CodeTree) :
    t.descend (k + 1) cur = if t.nodes.length = Config.nNode then none else (t.grow cur).descend k t.nodes.length := rfl

section Grow
variable {t : CodeTree} {cur : Nat}

@[simp] theorem CodeTree.grow_length : (t.grow cur).nodes.length = t.nodes.length + 1 := by simp [CodeTree.grow]
@[simp] theorem CodeTree.grow_leafOf (y : Byte) : (t.grow cur).leafOf y = t.leafOf y := rfl

theorem CodeTree.grow_child (hc : cur < t.nodes.length) (n : Nat) (i : Bool) :
    (t.grow cur).child n i = if n = cur ∧ i = (t.child cur false).isSome then some t.nodes.length else t.child n i := by
  by_cases h : n = cur
  · subst h
    rw [CodeTree.grow, CodeTree.child_eq_bind, CodeTree.updateNode_get, CodeTree.addNode_get, if_pos rfl, if_neg (by omega),
      CodeTree.child_eq_bind, CodeTree.child_eq_bind, List.getElem?_eq_getElem hc]
    cases h0 : t.nodes[n].c0 <;> cases i <;> simp [h0]
  · rw [if_neg fun e => h e.1, CodeTree.grow, CodeTree.child_eq_bind, CodeTree.updateNode_get, if_neg (Ne.symm h), ← CodeTree.child_eq_bind,
      CodeTree.addNode_child]
    split
    · next e => simp [e]
    · rfl

theorem CodeTree.grow_par (n : Nat) : (t.grow cur).par n = if n = t.nodes.length then some cur else t.par n := by
  rw [CodeTree.grow, CodeTree.updateNode_par, CodeTree.addNode_par]
  intro nd
  split <;> rfl

theorem CodeTree.grow_sym {n : Nat} (hn : n < t.nodes.length) : (t.grow cur).sym n = t.sym n := by
  rw [CodeTree.grow, CodeTree.updateNode_sym, CodeTree.addNode_sym, if_neg (by omega)]
  intro nd
  split <;> rfl

theorem CodeTree.grow_isLeaf (hc : cur < t.nodes.length) (n : Nat) :
    (t.grow cur).isLeaf n = true ↔ n = t.nodes.length ∨ (n ≠ cur ∧ t.isLeaf n = true) := by
  rw [CodeTree.isLeaf_iff_child, CodeTree.isLeaf_iff_child, CodeTree.grow_child hc, CodeTree.grow_child hc, CodeTree.grow_length]
  by_cases h : n = cur
  · subst h
    cases t.child n false <;> simp <;> omega
  · by_cases hN : n = t.nodes.length
    · subst hN
      simp [h]
    · simp [h, hN, Nat.lt_iff_le_and_ne]

theorem CodeTree.Above.grow {m n : Nat} (h : t.Above m n) : (t.grow cur).Above m n :=
  Relation.ReflTransGen.mono (p := fun a b => (t.grow cur).par a = some b) (fun a b hab => by
    have := CodeTree.lt_of_par hab
    show (t.grow cur).par a = some b
    rw [CodeTree.grow_par, if_neg (by omega), hab]) _ _ h

/-- A new node in a free slot keeps child and parent links in step. -/
theorem CodeTree.Linked.grow (hl : t.Linked) (hc : cur < t.nodes.length) (hfree : t.child cur true = none) : (t.grow cur).Linked where
  parents n i m hm := by
    rw [CodeTree.grow_par, CodeTree.grow_length]
    rw [CodeTree.grow_child hc] at hm
    split at hm
    · next hn =>
      obtain rfl : t.nodes.length = m := by simpa using hm
      simp [hn.1]
    · obtain ⟨hlt, hp⟩ := hl.parents n i m hm
      exact ⟨by omega, by rw [if_neg (by omega), hp]⟩
  hasParent n m hp := by
    rw [CodeTree.grow_par] at hp
    split at hp
    · next hn =>
      obtain rfl : cur = m := by simpa using hp
      exact ⟨_, by rw [CodeTree.grow_child hc, if_pos ⟨rfl, rfl⟩, hn]⟩
    · obtain ⟨i, hi⟩ := hl.hasParent n m hp
      refine ⟨i, ?_⟩
      rw [CodeTree.grow_child hc, if_neg, hi]
      rintro ⟨rfl, rfl⟩
      cases h0 : t.child m false <;> simp [h0, hfree] at hi
  distinct n m h0 h1 := by
    rw [CodeTree.grow_child hc] at h0 h1
    split at h0 <;> split at h1
    · next e0 e1 => exact absurd (e0.2.trans e1.2.symm) (by decide)
    · have := (hl.parents n _ m h1).1
      simp only [Option.some.injEq] at h0
      omega
    · have := (hl.parents n _ m h0).1
      simp only [Option.some.injEq] at h1
      omega
    · exact hl.distinct n m h0 h1

/-- The new node lies one below the cursor. -/
theorem CodeTree.Depths.grow {depth : Nat → Nat} (h : t.Depths depth) (hc : cur < t.nodes.length) (order : ∀ n m, t.par n = some m → m < n)
    (hd : depth cur + 1 ≤ 255) : (t.grow cur).Depths (Function.update depth t.nodes.length (depth cur + 1)) where
  root := by rw [Function.update_of_ne (by omega), h.root]
  step n m hp := by
    rw [CodeTree.grow_par] at hp
    split at hp
    · next hn =>
      obtain rfl : cur = m := by simpa using hp
      rw [hn, Function.update_self, Function.update_of_ne hc.ne]
    · next hn =>
      have := order n m hp
      have := CodeTree.lt_of_par hp
      rw [Function.update_of_ne hn, Function.update_of_ne (by omega), h.step n m hp]
  le n hn := by
    rw [CodeTree.grow_length] at hn
    by_cases e : n = t.nodes.length
    · rw [e, Function.update_self]
      exact hd
    · rw [Function.update_of_ne e]
      exact h.le n (by omega)

theorem CodeTree.Grown.grow {depth : Nat → Nat} (h : t.Grown (some cur) depth) (hd : depth cur + 1 ≤ 255) :
    (t.grow cur).Grown (some t.nodes.length) (Function.update depth t.nodes.length (depth cur + 1)) := by
  obtain ⟨linked, order, root, sole, firstSlot, free, pending, named, depths⟩ := h
  obtain ⟨hc, hfree⟩ := free cur rfl
  refine ⟨linked.grow hc hfree, ?_, root, ⟨by simp, ?_, ?_⟩, ?_, ?_, ?_, ?_, depths.grow hc order hd⟩
  · intro n m hp
    rw [CodeTree.grow_par] at hp
    split at hp
    · next hn =>
      obtain rfl : cur = m := by simpa using hp
      exact hn ▸ hc
    · exact order n m hp
  · rw [CodeTree.grow_par, if_neg sole.lt.ne, sole.par]
  · intro n hn hp
    rw [CodeTree.grow_par] at hp
    rw [CodeTree.grow_length] at hn
    split at hp
    · simp at hp
    · exact sole.only n (by omega) hp
  · intro n h0
    rw [CodeTree.grow_child hc] at h0 ⊢
    by_cases hn : n = cur
    · subst hn
      cases h : t.child n false <;> simp [h] at h0
    · simp only [hn, false_and, if_false] at h0 ⊢
      exact firstSlot n h0
  · intro c e
    obtain rfl : t.nodes.length = c := by simpa using e
    exact ⟨by simp, by rw [CodeTree.grow_child hc, if_neg fun e => hc.ne e.1.symm, CodeTree.child_length]⟩
  · intro n h0 h1
    have hstep : (t.grow cur).par t.nodes.length = some cur := by simp [CodeTree.grow_par]
    refine ⟨_, rfl, ?_⟩
    by_cases hn : n = cur
    · rw [hn]
      exact .single hstep
    · rw [CodeTree.grow_child hc, if_neg fun e => hn e.1] at h0 h1
      obtain ⟨c, e, hnc⟩ := pending n h0 h1
      obtain rfl : cur = c := by simpa using e
      exact .head hstep hnc.grow
  · refine named.congr (fun n => ?_) CodeTree.grow_leafOf fun n hn => CodeTree.grow_sym (CodeTree.isLeaf_lt hn.1)
    rw [CodeTree.grow_isLeaf hc]
    constructor
    · rintro ⟨rfl | ⟨hne, hl⟩, hN⟩
      · exact absurd rfl hN
      · exact ⟨hl, fun e => hne (Option.some.inj e).symm⟩
    · rintro ⟨hl, hne⟩
      exact ⟨.inr ⟨fun e => hne (congrArg some e.symm), hl⟩, fun e => (CodeTree.isLeaf_lt hl).ne (Option.some.inj e).symm⟩

end Grow

/-- The descent (R141) ends `k` levels deeper, at a node without children. -/
theorem CodeTree.Grown.descend {k : Nat} : ∀ {t u : CodeTree} {cur n : Nat} {depth : Nat → Nat}, t.Grown (some cur) depth →
    depth cur + k ≤ 255 → (k = 0 → t.child cur false = none) → t.descend k cur = some (n, u) →
    ∃ depth', u.Grown (some n) depth' ∧ depth' n = depth cur + k ∧ u.child n false = none := by
  induction k with
  | zero =>
    intro t u cur n depth h _ h0 hd
    simp only [CodeTree.descend, Option.some.injEq, Prod.mk.injEq] at hd
    obtain ⟨rfl, rfl⟩ := hd
    exact ⟨depth, h, rfl, h0 rfl⟩
  | succ k ih =>
    intro t u cur n depth h hk _ hd
    rw [CodeTree.descend_succ] at hd
    split at hd
    · simp at hd
    · have hc := (h.free cur rfl).1
      obtain ⟨depth', h', hn, hchild⟩ := ih (h.grow (by omega)) (by rw [Function.update_self]; omega)
        (fun _ => by rw [CodeTree.grow_child hc, if_neg (by omega), CodeTree.child_length]) hd
      rw [Function.update_self] at hn
      exact ⟨depth', h', by omega, hchild⟩

/-! ### The climb -/

/-- The climb (R141) finds the nearest ancestor whose slot 1 is free: it is the cursor at its own depth, and all others with a free slot 1 lie
above it. -/
theorem CodeTree.climb_spec {t : CodeTree} {depth : Nat → Nat} (order : ∀ n m, t.par n = some m → m < n)
    (step : ∀ n m, t.par n = some m → depth n = depth m + 1) (k : Nat) :
    ∀ (a : Option Nat) (ad : Nat), (∀ x, a = some x → x < k ∧ depth x = ad) →
      (∀ c, (t.climb k a ad).1 = some c → t.child c true = none ∧ depth c = (t.climb k a ad).2 ∧ ∃ x, a = some x ∧ t.Above c x) ∧
      ∀ o x, a = some x → t.Above o x → t.child o true = none → ∃ c, (t.climb k a ad).1 = some c ∧ t.Above o c := by
  induction k with
  | zero =>
    intro a ad ha
    cases a with
    | none => simp [CodeTree.climb]
    | some x => exact absurd (ha x rfl).1 (by omega)
  | succ k ih =>
    intro a ad ha
    cases a with
    | none => simp [CodeTree.climb]
    | some x =>
      obtain ⟨hx, hdx⟩ := ha x rfl
      by_cases h1 : t.c1 x = none
      · have hr : t.climb (k + 1) (some x) ad = (some x, ad) := by simp [CodeTree.climb, h1]
        rw [hr]
        refine ⟨fun c hc => ?_, fun o x' hx' ho _ => ?_⟩
        · obtain rfl : x = c := by simpa using hc
          exact ⟨h1, hdx, x, rfl, .refl⟩
        · obtain rfl : x = x' := by simpa using hx'
          exact ⟨x, rfl, ho⟩
      · have hr : t.climb (k + 1) (some x) ad = t.climb k (t.par x) (ad - 1) := by simp [CodeTree.climb, h1]
        obtain ⟨hfound, habove⟩ := ih (t.par x) (ad - 1) fun p hp => by
          have := order x p hp
          have := step x p hp
          omega
        rw [hr]
        refine ⟨fun c hc => ?_, fun o x' hx' ho ho1 => ?_⟩
        · obtain ⟨hc1, hdc, p, hp, hcp⟩ := hfound c hc
          exact ⟨hc1, hdc, x, rfl, .head hp hcp⟩
        · obtain rfl : x = x' := by simpa using hx'
          obtain rfl | ⟨p, hp, hop⟩ := Relation.ReflTransGen.cases_head ho
          · exact absurd ho1 h1
          · exact habove o p hp hop ho1

/-- An ancestor of a node with a child has a child. -/
theorem CodeTree.Linked.exists_child_of_above {t : CodeTree} (hl : t.Linked) {m n c : Nat} {i : Bool} (h : t.Above m n) (hc : t.child n i = some c) :
    ∃ j d, t.child m j = some d := by
  obtain rfl | ⟨w, -, hw⟩ := Relation.ReflTransGen.cases_tail h
  · exact ⟨i, c, hc⟩
  · obtain ⟨j, hj⟩ := hl.hasParent w m hw
    exact ⟨j, w, hj⟩

/-! ### The leaf of a pair -/

/-- `SYM[n] <- y; LEAF[y] <- n` (R141). -/
def CodeTree.label (y : Byte) (n : Nat) (t : CodeTree) : CodeTree := (t.updateNode n fun nd => { nd with sym := some y }).setLeaf y n

section Label
variable {t : CodeTree} {y : Byte} {n : Nat}

@[simp] theorem CodeTree.label_length : (t.label y n).nodes.length = t.nodes.length := by simp [CodeTree.label]

@[simp] theorem CodeTree.label_child (m : Nat) (i : Bool) : (t.label y n).child m i = t.child m i :=
  CodeTree.updateNode_child _ _ _ _ _ fun _ => ⟨rfl, rfl⟩

@[simp] theorem CodeTree.label_par (m : Nat) : (t.label y n).par m = t.par m := CodeTree.updateNode_par _ _ _ _ fun _ => rfl

theorem CodeTree.label_sym (hn : n < t.nodes.length) (m : Nat) : (t.label y n).sym m = if m = n then some y else t.sym m :=
  CodeTree.updateNode_sym_set hn m (some y)

theorem CodeTree.label_leafOf (z : Byte) : (t.label y n).leafOf z = if z = y then some n else t.leafOf z :=
  CodeTree.setLeaf_leafOf _ y z n

@[simp] theorem CodeTree.label_isLeaf (m : Nat) : (t.label y n).isLeaf m = t.isLeaf m := by
  rw [Bool.eq_iff_iff, CodeTree.isLeaf_iff_child, CodeTree.isLeaf_iff_child, CodeTree.label_child, CodeTree.label_child, CodeTree.label_length]

theorem CodeTree.card_symbols_label (hy : t.leafOf y = none) : (t.label y n).symbols.card = t.symbols.card + 1 :=
  CodeTree.card_symbols_setLeaf (t := t.updateNode n _) hy

/-- The leaf of a pair at the cursor, then the climb to the next cursor. -/
theorem CodeTree.Grown.label {depth : Nat → Nat} (h : t.Grown (some n) depth) (h0 : t.child n false = none) (hy : t.leafOf y = none) {a : Option Nat}
    {ad : Nat} (ha : (t.label y n).climb (t.label y n).nodes.length ((t.label y n).par n) (depth n - 1) = (a, ad)) :
    (t.label y n).Grown a depth ∧ ∀ c, a = some c → depth c = ad := by
  obtain ⟨linked, order, root, sole, firstSlot, free, pending, named, depths⟩ := h
  have hn := (free n rfl).1
  have hleaf : t.isLeaf n = true := CodeTree.isLeaf_iff_child.2 ⟨hn, h0, firstSlot n h0⟩
  have linked' : (t.label y n).Linked := ⟨by simpa using linked.parents, by simpa using linked.hasParent, by simpa using linked.distinct⟩
  have hpar : (t.label y n).par = t.par := funext CodeTree.label_par
  obtain ⟨hfound, habove⟩ := CodeTree.climb_spec (t := t.label y n) (by simpa using order) (by simpa using depths.step) (t.label y n).nodes.length
    ((t.label y n).par n) (depth n - 1) fun x hx => by
      rw [CodeTree.label_par] at hx
      have := order n x hx
      have := depths.step n x hx
      rw [CodeTree.label_length]
      omega
  rw [ha] at hfound habove
  have hinner : ∀ c, a = some c → ∃ i m, t.child c i = some m := fun c hc => by
    obtain ⟨-, -, x, hx, hcx⟩ := hfound c hc
    obtain ⟨i, hi⟩ := linked'.hasParent n x hx
    simpa using linked'.exists_child_of_above hcx hi
  have hnotLeaf : ∀ m, t.isLeaf m = true → a ≠ some m := fun m hm e => by
    obtain ⟨-, hm0, hm1⟩ := CodeTree.isLeaf_iff_child.1 hm
    obtain ⟨i, c, hi⟩ := hinner m e
    cases i <;> simp_all
  refine ⟨⟨linked', by simpa using order, root, ⟨by simpa using sole.lt, by simpa using sole.par, by simpa using sole.only⟩, by simpa using firstSlot,
    ?_, ?_, ?_, ⟨depths.root, by simpa using depths.step, by simpa using depths.le⟩⟩, fun c hc => (hfound c hc).2.1⟩
  · intro c hc
    obtain ⟨i, m, hm⟩ := hinner c hc
    exact ⟨by simpa using CodeTree.lt_of_child hm, (hfound c hc).1⟩
  · intro o ho0 ho1
    obtain ⟨c, hc, hoc⟩ := pending o (by simpa using ho0) (by simpa using ho1)
    obtain rfl : n = c := by simpa using hc
    obtain rfl | ⟨x, hx, hox⟩ := Relation.ReflTransGen.cases_head hoc
    · simp [h0] at ho0
    · refine habove o x (by simpa using hx) ?_ ho1
      rwa [CodeTree.Above, hpar]
  · refine named.insert hy (fun m => ?_) CodeTree.label_leafOf (by rw [CodeTree.label_sym hn, if_pos rfl]) fun m hm => by
      rw [CodeTree.label_sym hn, if_neg fun e => hm.2 (congrArg some e.symm)]
    rw [CodeTree.label_isLeaf]
    by_cases e : m = n
    · exact iff_of_true ⟨e ▸ hleaf, hnotLeaf m (e ▸ hleaf)⟩ (.inl e)
    · simp only [e, false_or, ne_eq, Option.some.injEq, Ne.symm e, not_false_eq_true, and_true, and_iff_left_iff_imp]
      exact hnotLeaf m

end Label

/-! ### The loop -/

/-- What each pair of `REBUILD` keeps (R141). -/
def Rebuild.Inv (r : Rebuild) : Prop := ∃ depth, r.tree.Grown r.cur depth ∧ ∀ c, r.cur = some c → depth c = r.cd

theorem Rebuild.start_inv : Rebuild.start.Inv := by
  have hlen : Rebuild.start.tree.nodes.length = 1 := rfl
  have hpar : ∀ n, Rebuild.start.tree.par n = none := fun n => by
    cases n <;> rfl
  have hchild : ∀ n i, Rebuild.start.tree.child n i = none := fun n i => by
    rw [CodeTree.child_eq_bind]
    cases n <;> cases i <;> rfl
  have hnone : ∀ y, Rebuild.start.tree.leafOf y = none := CodeTree.empty_leafOf
  have hleaf : ∀ n, Rebuild.start.tree.isLeaf n = true → Rebuild.start.cur = some n := fun n hn => by
    have := CodeTree.isLeaf_lt hn
    obtain rfl : n = 0 := by omega
    rfl
  refine ⟨fun _ => 0, {
    linked := ⟨by simp [hchild], by simp [hpar], by simp [hchild]⟩
    order := by simp [hpar]
    root := rfl
    sole := ⟨by simp [hlen], hpar 0, fun n hn _ => by omega⟩
    firstSlot := fun n _ => hchild n true
    free := fun c hc => ⟨?_, hchild c true⟩
    pending := by simp [hchild]
    named := ⟨fun n hn => absurd (hleaf n hn.1) hn.2, fun y n hy => absurd hy (by simp [hnone])⟩
    depths := ⟨rfl, by simp [hpar], by simp⟩ }, fun c _ => rfl⟩
  obtain rfl : 0 = c := Option.some.inj hc
  simp [hlen]

theorem Rebuild.addPair_keeps_inv {r r' : Rebuild} {p : HdrPair} (h : r.Inv) (hp : r.addPair p = some r') : r'.Inv := by
  obtain ⟨depth, hg, hcd⟩ := h
  obtain ⟨cur, n, t, hcur, hcheck, hdesc, hy, (htree : _ = t.label p.sym n), hclimb⟩ := Rebuild.addPair_cases hp
  rw [hcur] at hg
  have hdepth := hcd cur hcur
  have hle := hg.depths.le cur (hg.free cur rfl).1
  have hd := p.dep.isLt
  obtain ⟨depth', hg', hdn, h0⟩ := hg.descend (by omega) (fun hk => by
    by_contra h0
    exact hcheck ⟨h0, by omega⟩) hdesc
  have hmax : max r.cd p.dep.toNat = depth' n := by omega
  rw [hmax, htree] at hclimb
  exact ⟨depth', htree ▸ hg'.label h0 hy hclimb.symm⟩

/-- Each pair makes the leaf of a new symbol (R141, check 4). -/
theorem Rebuild.card_symbols_addPairs (ps : List HdrPair) : ∀ {r r' : Rebuild}, r.addPairs ps = some r' →
    r'.tree.symbols.card = r.tree.symbols.card + ps.length := by
  induction ps with
  | nil =>
    intro r r' h
    obtain rfl : r = r' := by simpa [Rebuild.addPairs] using h
    rfl
  | cons p ps ih =>
    intro r r' h
    rw [Rebuild.addPairs] at h
    split at h
    · simp at h
    · next r1 h1 =>
      obtain ⟨cur, n, t, -, -, hdesc, hy, (htree : _ = t.label p.sym n), -⟩ := Rebuild.addPair_cases h1
      obtain ⟨-, hleaf, -⟩ := CodeTree.descend_spec hdesc
      rw [ih h, htree, CodeTree.card_symbols_label hy, CodeTree.symbols_congr (u := r.tree) hleaf, List.length_cons]
      omega

/-! ### The finished tree -/

theorem CodeTree.Grown.depth_follow {t : CodeTree} {cur : Option Nat} {depth : Nat → Nat} (h : t.Grown cur depth) (p : List Bool) :
    ∀ n m, t.follow n p = some m → depth m = depth n + p.length := by
  induction p with
  | nil =>
    intro n m hp
    obtain ⟨-, rfl⟩ : n < t.nodes.length ∧ n = m := by simpa using hp
    rfl
  | cons i p ih =>
    intro n m hp
    obtain ⟨c, hc, hp⟩ := Option.bind_eq_some_iff.1 hp
    rw [ih c m hp, h.depths.step c n (h.linked.parents n i c hc).2, List.length_cons]
    omega

/-- Where the climb has found no more room, every node has two children or none (R141, check 5). -/
theorem CodeTree.Grown.wf_of_complete {t : CodeTree} {depth : Nat → Nat} (h : t.Grown none depth) {c : BitVec 9}
    (hc : c.toNat = t.symbols.card) : CodeTree.WF { t with nleaf := c } := by
  refine CodeTree.Linked.wf ⟨h.linked.parents, h.linked.hasParent, h.linked.distinct⟩ h.root ⟨h.sole.lt, h.sole.par, h.sole.only⟩ (rank := id)
    h.order (fun n => ⟨h.firstSlot n, fun h1 => ?_⟩) ⟨fun n hn => h.named.leafSym n ⟨hn, by simp⟩, fun y n hy => ?_⟩ hc fun p n hn => ?_
  · by_contra h0
    obtain ⟨c, hc, -⟩ := h.pending n h0 h1
    simp at hc
  · obtain ⟨⟨hn, -⟩, hs⟩ := h.named.leafIndex y n hy
    exact ⟨hn, hs⟩
  · have hn : t.follow 0 p = some n := by
      rw [← hn]
      exact CodeTree.follow_congr (by rfl) 0 p
    have := h.depth_follow p 0 n hn
    have := h.depths.le n (CodeTree.follow_lt hn)
    omega

/-- `REBUILD` makes a well-formed tree of every header it accepts (R141, R142). -/
theorem rebuildTree_wf {ps : List HdrPair} {t : CodeTree} (h : rebuildTree ps = some t) : t.WF := by
  cases ps with
  | nil =>
    obtain rfl : CodeTree.empty = t := by simpa [rebuildTree] using h
    exact CodeTree.empty_wf
  | cons p ps =>
    rw [rebuildTree] at h
    split at h
    · simp at h
    · next r hr =>
      split at h
      · simp at h
      · next hcur =>
        obtain rfl := Option.some.inj h
        obtain ⟨depth, hg, -⟩ := Rebuild.addPairs_keeps (P := Rebuild.Inv) (fun _ _ _ => Rebuild.addPair_keeps_inv) _ _ r Rebuild.start_inv hr
        rw [not_ne_iff.1 hcur] at hg
        refine hg.wf_of_complete ?_
        have hcard := Rebuild.card_symbols_addPairs (p :: ps) hr
        have hle := r.tree.card_symbols_le
        rw [show Rebuild.start.tree.symbols = ∅ from CodeTree.symbols_empty, Finset.card_empty, Nat.zero_add, List.length_cons] at hcard
        rw [BitVec.toNat_ofNat, Nat.mod_eq_of_lt (by omega), hcard]

end Sys2Proof.Machine
end

section
namespace Sys2Proof.Machine

/-! ## The streams move forward (R38 to R44) -/

/-- From `s` to `t` the streams have only moved forward, and `t` has legal buffers and positions. -/
structure State.Advances (s t : State) : Prop where
  out : s.out <+: t.out
  input : t.input = s.input
  inPos : s.inPos ≤ t.inPos
  outSync : s.outSync ≤ t.outSync
  streams : t.StreamsOk

/-- The part of the state that `StreamsOk` speaks of. -/
def State.streamPart (s : State) : Byte × Fin 8 × List Byte × Nat × List Byte × Nat :=
  (s.wbuf, s.wcnt, s.input, s.inPos, s.out, s.outSync)

/-- `Advances` looks at no more than the streams of the second state. -/
theorem State.Advances.congr {s t u : State} (h : s.Advances t) (e : u.streamPart = t.streamPart) : s.Advances u := by
  simp only [State.streamPart, Prod.mk.injEq] at e
  obtain ⟨hwbuf, hwcnt, hin, hpos, hout, hsync⟩ := e
  obtain ⟨out, input, inPos, outSync, slots, pos, sync⟩ := h
  exact ⟨hout ▸ out, hin ▸ input, hpos ▸ inPos, hsync ▸ outSync, by rwa [hwcnt, hwbuf], by rwa [hpos, hin], by rwa [hsync, hout]⟩

section Ops
variable {s t : State} (hs : s.StreamsOk)
include hs

theorem State.StreamsOk.advances_refl : s.Advances s := ⟨List.prefix_rfl, rfl, le_rfl, le_rfl, hs⟩

theorem State.StreamsOk.advances_sinkPutAll (vs : List Byte) : s.Advances (s.sinkPutAll vs) where
  out := List.prefix_append s.out vs
  input := rfl
  inPos := le_rfl
  outSync := le_rfl
  streams := ⟨hs.slots, hs.inPos, by simpa using hs.outSync.trans (Nat.le_add_right _ _)⟩

theorem State.StreamsOk.advances_putBits (bs : List Bool) : s.Advances (s.putBits bs) := by
  obtain ⟨bytes, e, -⟩ := s.putBits_spec bs
  have h := hs.advances_sinkPutAll bytes
  have slots := State.putBits_slots bs hs.slots
  generalize s.putBits bs = u at e slots ⊢
  rw [e]
  rw [e] at slots
  exact ⟨h.out, rfl, le_rfl, le_rfl, slots, h.streams.inPos, h.streams.outSync⟩

theorem State.StreamsOk.advances_putBit (b : Bool) : s.Advances (s.putBit b) := hs.advances_putBits [b]

/-- `FLUSH` syncs after what it emits (R44, R118). -/
theorem State.StreamsOk.advances_flush (h : execFlush s = .next t) : s.Advances t := by
  have hsync := hs.outSync
  obtain ⟨-, rfl⟩ | ⟨-, rfl⟩ := execFlush_cases h
  · exact ⟨List.prefix_rfl, rfl, le_rfl, hsync, hs.slots, hs.inPos, le_rfl⟩
  · exact ⟨List.prefix_append _ _, rfl, le_rfl, by simp; omega, by simp, hs.inPos, le_rfl⟩

theorem State.ReadsTo.advances (h : s.ReadsTo t) : s.Advances t := by
  obtain ⟨e, forward, bounded⟩ := h
  have hpos := bounded hs.inPos
  generalize t.inPos = p at e forward hpos
  rw [e]
  exact ⟨List.prefix_rfl, rfl, forward, le_rfl, hs.slots, hpos, hs.outSync⟩

end Ops

theorem State.ReadsTo.of_srcNext {s t : State} {v : Byte} (h : s.srcNext = some (v, t)) : s.ReadsTo t := by
  obtain ⟨hv, rfl⟩ := (s.srcNext_eq_some_iff t v).1 h
  obtain ⟨hlt, -⟩ := List.getElem?_eq_some_iff.1 hv
  exact ⟨rfl, Nat.le_succ _, fun _ => hlt⟩

theorem State.ReadsTo.four_bytes {s : State} (h : 4 ≤ s.unread.length) : s.ReadsTo { s with inPos := s.inPos + 4 } := by
  rw [State.unread, List.length_drop] at h
  exact ⟨rfl, Nat.le_add_right _ _, fun _ => by simp; omega⟩

theorem State.ReadsTo.of_decode_symbol {k n : Nat} {y : Byte} {s t : State} (h : s.decodeFrom k n = .symbol y t) : s.ReadsTo t := by
  obtain ⟨z, u, e, g⟩ | ⟨u, e, -⟩ | e := State.decodeFrom_cases k n s <;> simp only [h, DecodeEnd.symbol.injEq, reduceCtorEq] at e
  exact e.2 ▸ g

theorem State.ReadsTo.of_decode_eos {k n : Nat} {s t : State} (h : s.decodeFrom k n = .eos t) : s.ReadsTo t := by
  obtain ⟨z, u, e, -⟩ | ⟨u, e, g, -⟩ | e := State.decodeFrom_cases k n s <;> simp only [h, DecodeEnd.eos.injEq, reduceCtorEq] at e
  exact e ▸ g

/-- R40, R43, R44: no command moves a stream back, whatever the tree is. -/
theorem exec_advances {i : Instr} {s t : State} (hs : s.StreamsOk) (h : exec i s = .next t) : s.Advances t := by
  cases i with
  | writebit b => rw [execWritebit_next h]; exact (hs.advances_putBit _).congr rfl
  | readbit =>
    obtain ⟨-, rfl⟩ | ⟨b, s1, hb, rfl⟩ := execReadbit_cases h
    · exact hs.advances_refl.congr rfl
    · exact ((State.ReadsTo.of_getBit hb).advances hs).congr rfl
  | writebyte v => rw [execWritebyte_next h]; exact (hs.advances_sinkPutAll [v]).congr rfl
  | readbyte =>
    obtain ⟨-, rfl⟩ | ⟨v, s1, hv, rfl⟩ := execReadbyte_cases h
    · exact hs.advances_refl.congr rfl
    · exact ((State.ReadsTo.of_srcNext hv).advances hs).congr rfl
  | writeint => rw [execWriteint_next h]; exact (hs.advances_sinkPutAll _).congr rfl
  | readint =>
    obtain ⟨-, rfl⟩ | ⟨b0, b1, b2, b3, rest, hu, rfl⟩ := execReadint_cases h
    · exact hs.advances_refl.congr rfl
    · exact ((State.ReadsTo.four_bytes (by simp [hu])).advances hs).congr rfl
  | flush => exact hs.advances_flush h
  | build => rw [execBuild_next h]; exact hs.advances_refl.congr rfl
  | store =>
    obtain ⟨bytes, -, rfl⟩ := execStore_cases h
    exact (hs.advances_sinkPutAll bytes).congr rfl
  | rebuild d =>
    obtain ⟨-, rfl⟩ | ⟨-, -, rfl⟩ | ⟨-, u, -, rfl⟩ := execRebuild_cases h
    · exact hs.advances_refl.congr (by simp [State.streamPart])
    · exact hs.advances_refl.congr (by simp [State.streamPart])
    · exact hs.advances_refl.congr rfl
  | encode y =>
    obtain ⟨-, rfl⟩ | ⟨n, bits, -, -, rfl⟩ := execEncode_cases h
    · exact hs.advances_refl.congr (by simp [State.streamPart])
    · exact (hs.advances_putBits bits).congr rfl
  | decode =>
    obtain ⟨-, rfl⟩ | ⟨r, -, ⟨y, s1, hd, rfl⟩ | ⟨s1, hd, rfl⟩⟩ := execDecode_cases h
    · exact hs.advances_refl.congr (by simp [State.streamPart])
    · exact ((State.ReadsTo.of_decode_symbol hd).advances hs).congr rfl
    · exact ((State.ReadsTo.of_decode_eos hd).advances hs).congr (by simp [State.streamPart])
  | sreset =>
    rw [execSreset_next h]
    exact ⟨List.prefix_rfl, rfl, le_rfl, le_rfl, by simp, hs.inPos, hs.outSync⟩

end Sys2Proof.Machine
end

section
namespace Sys2Proof.Machine

/-! ## Bit reads and writes leave the rest of the state alone -/

theorem State.putBits_tree (s : State) (bs : List Bool) : (s.putBits bs).tree = s.tree := by
  obtain ⟨bytes, e, -⟩ := s.putBits_spec bs
  rw [e]

theorem State.putBits_res (s : State) (bs : List Bool) : (s.putBits bs).res = s.res := by
  obtain ⟨bytes, e, -⟩ := s.putBits_spec bs
  rw [e]

/-- The error latch (R45). -/
def State.latchPart (s : State) : Bool × Status := (s.err, s.firstErr)

theorem State.putBits_latchPart (s : State) (bs : List Bool) : (s.putBits bs).latchPart = s.latchPart := by
  obtain ⟨bytes, e, -⟩ := s.putBits_spec bs
  rw [e]
  rfl

theorem State.ReadsTo.tree {s t : State} (h : s.ReadsTo t) : t.tree = s.tree := by rw [h.same]

theorem State.ReadsTo.latchPart {s t : State} (h : s.ReadsTo t) : t.latchPart = s.latchPart := by
  rw [h.same]
  rfl

/-! ## How a command ends (R170 to R172) -/

/-- The two ways a command ends: with `OK` or `EOD`, which leave the latch alone, or with an error, which is latched if it is the first. -/
inductive State.EndsIn (s t : State) : Prop where
  | quiet (c : t.last.isError = false) (same : t.latchPart = s.latchPart)
  | error (c : t.last.isError = true) (code : t.last ≠ .badAccess) (err : t.err = true)
      (firstErr : t.firstErr = if s.err then s.firstErr else t.last)

/-- Raising an error of a command. -/
theorem State.EndsIn.raise {s s1 : State} (c : Status) (h : s1.latchPart = s.latchPart) (hc : c.isError = true) (hb : c ≠ .badAccess) :
    s.EndsIn (s1.raise c) := by
  obtain ⟨he, hf⟩ := Prod.mk.inj h
  exact .error (by simpa) (by simpa) (by simp) (by simp [he, hf])

/-- The latch is as R26, R170 and R172 say, whichever way the command ends. -/
theorem State.EndsIn.statusOk {s t : State} (h : s.EndsIn t) (hs : s.StatusOk) : t.StatusOk := by
  obtain ⟨c, same⟩ | ⟨c, code, err, firstErr⟩ := h
  · obtain ⟨he, hf⟩ := Prod.mk.inj same
    refine ⟨fun e => by simp [e, Status.isError] at c, ?_, ?_, fun _ => c⟩
    · rw [he, hf]; exact hs.clear
    · rw [he, hf]; exact hs.latched
  · refine ⟨code, by simp [err], fun _ => ?_, by simp [err]⟩
    rw [firstErr]
    split
    · next e => exact hs.latched e
    · exact c

/-- R171, R172: how every command but `SRESET` ends. -/
theorem exec_endsIn {i : Instr} {s t : State} (hi : i ≠ .sreset) (h : exec i s = .next t) : s.EndsIn t := by
  cases i with
  | writebit b => rw [execWritebit_next h]; exact .quiet rfl (s.putBits_latchPart [bitOperand b])
  | readbit =>
    obtain ⟨-, rfl⟩ | ⟨b, s1, hb, rfl⟩ := execReadbit_cases h
    · exact .quiet rfl rfl
    · exact .quiet rfl (State.ReadsTo.of_getBit hb).latchPart
  | writebyte v => rw [execWritebyte_next h]; exact .quiet rfl rfl
  | readbyte =>
    obtain ⟨-, rfl⟩ | ⟨v, s1, hv, rfl⟩ := execReadbyte_cases h
    · exact .quiet rfl rfl
    · exact .quiet rfl (State.ReadsTo.of_srcNext hv).latchPart
  | writeint => rw [execWriteint_next h]; exact .quiet rfl rfl
  | readint => obtain ⟨-, rfl⟩ | ⟨b0, b1, b2, b3, rest, -, rfl⟩ := execReadint_cases h <;> exact .quiet rfl rfl
  | flush => obtain ⟨-, rfl⟩ | ⟨-, rfl⟩ := execFlush_cases h <;> exact .quiet rfl rfl
  | build => rw [execBuild_next h]; exact .quiet rfl rfl
  | store =>
    obtain ⟨bytes, -, rfl⟩ := execStore_cases h
    exact .quiet rfl rfl
  | rebuild d =>
    obtain ⟨-, rfl⟩ | ⟨-, -, rfl⟩ | ⟨-, u, -, rfl⟩ := execRebuild_cases h
    · exact .raise .illegalCmd rfl rfl (by decide)
    · exact .raise .badHeader (s1 := s.treeClear) rfl rfl (by decide)
    · exact .quiet rfl rfl
  | encode y =>
    obtain ⟨-, rfl⟩ | ⟨n, bits, -, -, rfl⟩ := execEncode_cases h
    · exact .raise .invalidSymbol rfl rfl (by decide)
    · exact .quiet rfl (s.putBits_latchPart bits)
  | decode =>
    obtain ⟨-, rfl⟩ | ⟨r, -, ⟨y, s1, hd, rfl⟩ | ⟨s1, hd, rfl⟩⟩ := execDecode_cases h
    · exact .raise .noTree (s1 := { s with res := Config.failValue }) rfl rfl (by decide)
    · exact .quiet rfl (State.ReadsTo.of_decode_symbol hd).latchPart
    · exact .raise .eos (s1 := { s1 with res := Config.failValue }) (State.ReadsTo.of_decode_eos hd).latchPart rfl (by decide)
  | sreset => exact absurd rfl hi

theorem State.StatusOk.exec {i : Instr} {s t : State} (hs : s.StatusOk) (h : exec i s = .next t) : t.StatusOk := by
  by_cases hi : i = .sreset
  · subst hi
    rw [execSreset_next h]
    exact ⟨by simp, by simp, by simp, by simp [Status.isError]⟩
  · exact (exec_endsIn hi h).statusOk hs

/-- A bad access latches an error and leaves `LAST` alone (R64). -/
theorem State.StatusOk.latch {s : State} (hs : s.StatusOk) : (s.latch .badAccess).StatusOk := by
  refine ⟨by simpa using hs.last, by simp, fun _ => ?_, by simp⟩
  rw [State.latch_firstErr]
  split
  · next e => exact hs.latched e
  · rfl

theorem State.StatusOk.illegal {s : State} (hs : s.StatusOk) : (s.raise .illegalCmd).StatusOk :=
  (State.EndsIn.raise .illegalCmd rfl rfl (by decide)).statusOk hs

/-! ## Which tree a command leaves (R33) -/

/-- Only `BUILD`, `REBUILD` and `SRESET` write the tree, and each leaves a well-formed one. -/
theorem exec_keeps_wf {i : Instr} {s t : State} (hw : s.tree.WF) (h : exec i s = .next t) : t.tree.WF := by
  cases i with
  | writebit b =>
    rw [execWritebit_next h, State.finish_tree]
    exact (s.putBits_tree [bitOperand b]).symm ▸ hw
  | readbit =>
    obtain ⟨-, rfl⟩ | ⟨b, s1, hb, rfl⟩ := execReadbit_cases h
    · exact hw
    · rwa [State.answer_tree, (State.ReadsTo.of_getBit hb).tree]
  | writebyte v => rwa [execWritebyte_next h]
  | readbyte =>
    obtain ⟨-, rfl⟩ | ⟨v, s1, hv, rfl⟩ := execReadbyte_cases h
    · exact hw
    · rwa [State.answer_tree, (State.ReadsTo.of_srcNext hv).tree]
  | writeint => rwa [execWriteint_next h]
  | readint => obtain ⟨-, rfl⟩ | ⟨b0, b1, b2, b3, rest, -, rfl⟩ := execReadint_cases h <;> exact hw
  | flush => obtain ⟨-, rfl⟩ | ⟨-, rfl⟩ := execFlush_cases h <;> exact hw
  | build =>
    rw [execBuild_next h]
    exact buildTree_wf s.freq
  | store =>
    obtain ⟨bytes, -, rfl⟩ := execStore_cases h
    exact hw
  | rebuild d =>
    obtain ⟨-, rfl⟩ | ⟨-, -, rfl⟩ | ⟨-, u, hu, rfl⟩ := execRebuild_cases h
    · rwa [State.raise_tree]
    · rw [State.raise_tree]
      exact CodeTree.empty_wf
    · exact rebuildTree_wf hu
  | encode y =>
    obtain ⟨-, rfl⟩ | ⟨n, bits, -, -, rfl⟩ := execEncode_cases h
    · rwa [State.raise_tree]
    · rwa [State.finish_tree, State.putBits_tree]
  | decode =>
    obtain ⟨-, rfl⟩ | ⟨r, -, ⟨y, s1, hd, rfl⟩ | ⟨s1, hd, rfl⟩⟩ := execDecode_cases h
    · rwa [State.raise_tree]
    · rwa [State.answer_tree, (State.ReadsTo.of_decode_symbol hd).tree]
    · rw [State.raise_tree]
      exact (State.ReadsTo.of_decode_eos hd).tree.symm ▸ hw
  | sreset =>
    rw [execSreset_next h]
    exact CodeTree.empty_wf

/-! ## Which commands write RES (R25) -/

/-- No command but the four that read and `SRESET` writes `RES`. -/
theorem exec_keeps_res {i : Instr} {s t : State} (h : exec i s = .next t) (h1 : i ≠ .readbit) (h2 : i ≠ .readbyte) (h3 : i ≠ .readint)
    (h4 : i ≠ .decode) (h5 : i ≠ .sreset) : t.res = s.res := by
  cases i with
  | writebit b =>
    rw [execWritebit_next h]
    exact s.putBits_res [bitOperand b]
  | writebyte v => rw [execWritebyte_next h]; rfl
  | writeint => rw [execWriteint_next h]; rfl
  | flush => obtain ⟨-, rfl⟩ | ⟨-, rfl⟩ := execFlush_cases h <;> rfl
  | build => rw [execBuild_next h]
  | store =>
    obtain ⟨bytes, -, rfl⟩ := execStore_cases h
    rfl
  | rebuild d => obtain ⟨-, rfl⟩ | ⟨-, -, rfl⟩ | ⟨-, u, -, rfl⟩ := execRebuild_cases h <;> simp
  | encode y =>
    obtain ⟨-, rfl⟩ | ⟨n, bits, -, -, rfl⟩ := execEncode_cases h
    · simp
    · exact s.putBits_res bits
  | readbit => exact absurd rfl h1
  | readbyte => exact absurd rfl h2
  | readint => exact absurd rfl h3
  | decode => exact absurd rfl h4
  | sreset => exact absurd rfl h5

/-- `READBIT` leaves its bit in `RES`, or the failure value (R25, R113). -/
theorem execReadbit_res {s t : State} (h : execReadbit s = .next t) :
    (t.last = .ok ∧ (t.res = 0#32 ∨ t.res = 1#32)) ∨ (t.last ≠ .ok ∧ t.res = Config.failValue) := by
  obtain ⟨-, rfl⟩ | ⟨b, s1, -, rfl⟩ := execReadbit_cases h
  · exact .inr ⟨by simp, rfl⟩
  · exact .inl ⟨rfl, by cases b <;> simp [bitWord]⟩

/-- `READBYTE` leaves its byte in `RES`, or the failure value (R25, R115). -/
theorem execReadbyte_res {s t : State} (h : execReadbyte s = .next t) :
    (t.last = .ok ∧ ∃ v : Byte, t.res = v.setWidth 32) ∨ (t.last ≠ .ok ∧ t.res = Config.failValue) := by
  obtain ⟨-, rfl⟩ | ⟨v, s1, -, rfl⟩ := execReadbyte_cases h
  · exact .inr ⟨by simp, rfl⟩
  · exact .inl ⟨rfl, v, rfl⟩

/-- `READINT` leaves the failure value in `RES` if it does not end `OK` (R25, R117). -/
theorem execReadint_res {s t : State} (h : execReadint s = .next t) : t.last = .ok ∨ t.res = Config.failValue := by
  obtain ⟨-, rfl⟩ | ⟨b0, b1, b2, b3, rest, -, rfl⟩ := execReadint_cases h
  · exact .inr rfl
  · exact .inl rfl

/-- `DECODE` leaves its symbol in `RES`, or the failure value (R25, R151). -/
theorem execDecode_res {s t : State} (h : execDecode s = .next t) :
    (t.last = .ok ∧ ∃ y : Byte, t.res = y.setWidth 32) ∨ (t.last ≠ .ok ∧ t.res = Config.failValue) := by
  obtain ⟨-, rfl⟩ | ⟨r, -, ⟨y, s1, -, rfl⟩ | ⟨s1, -, rfl⟩⟩ := execDecode_cases h
  · exact .inr (by simp)
  · exact .inl ⟨rfl, y, rfl⟩
  · exact .inr (by simp)

/-- All of what a word that decodes is (R96): a row of the opcode map, with the zero field 0 and the operand in range. -/
theorem decode_ok_cases {w : Word} {i : Instr} (h : decode w = .ok i) : ∃ fmt command, rowOf (opField w) = some (fmt, command) ∧
    w &&& fmt.mask = matchWord (opField w) ∧ WellFormed (command w) = true ∧ i = command w := by
  unfold decode at h
  split at h
  · simp at h
  · next fmt command hr =>
    split at h
    · simp at h
    · next hm =>
      split at h
      · next hwf => exact ⟨fmt, command, hr, not_ne_iff.1 hm, hwf, (Except.ok.inj h).symm⟩
      · simp at h

theorem matchWord_ofNat_toNat (op : BitVec 8) : matchWord (BitVec.ofNat 8 op.toNat) = matchWord op := by simp

/-- The mask of a format holds the opcode (R91). -/
theorem opField_and_mask (fmt : Format) (w : Word) : opField (w &&& fmt.mask) = opField w := by
  have hm : fmt.mask.extractLsb' 24 8 = BitVec.allOnes 8 := by cases fmt <;> decide
  rw [opField, opField, BitVec.extractLsb'_and, hm, BitVec.and_allOnes]

theorem imm9Field_eq (w : Word) : imm9Field w = w.setWidth 9 := BitVec.eq_of_toNat_eq (by simp [imm9Field])

open Sys2Proof.Claims in
/-- A word the opcode map gives no command does not decode (R94 to R96). -/
theorem decode_error_of_commandOf_none {w : Word} (h : commandOf w = none) : ∃ e, decode w = .error e := by
  cases hd : decode w with
  | error e => exact ⟨e, rfl⟩
  | ok i =>
    obtain ⟨fmt, command, hr, hm, hwf, -⟩ := decode_ok_cases hd
    rw [← matchWord_ofNat_toNat] at hm
    simp only [commandOf, ite_eq_iff, reduceCtorEq, and_false, false_or, and_true, not_le] at h
    obtain ⟨h1, h2, h3, h4, h5, h6, h7, h8, h9, h10⟩ := h
    have hrest : (opField w).toNat ≠ 0x12 → _ := fun hne => (h10.resolve_left fun he => hne (by
      rw [← opField_and_mask .D9, Format.mask, he.1]
      decide)).2
    unfold rowOf at hr
    split at hr
    all_goals
      rename_i hop
      simp only [Option.some.injEq, Prod.mk.injEq, reduceCtorEq] at hr
    all_goals
      obtain ⟨rfl, rfl⟩ := hr
      rw [hop, Format.mask] at hm
    · exact absurd hm h1
    · exact absurd hm h2
    · exact absurd hm h3
    · exact absurd hm h4
    · exact absurd hm h5
    · exact absurd hm h6
    · exact absurd hm h7
    · exact absurd hm h8
    · exact absurd hm h9
    · obtain ⟨-, hlt⟩ | ⟨hne, -⟩ := h10
      · simp only [WellFormed, Config.dMax, imm9Field_eq, decide_eq_true_eq] at hwf
        omega
      · exact absurd hm hne
    · exact absurd hm (hrest (by omega)).1
    · exact absurd hm (hrest (by omega)).2.1
    · exact absurd hm (hrest (by omega)).2.2

open Sys2Proof.Claims in
/-- An access to `CMD` runs the word it writes (R162, R163). -/
theorem step_before_cmd (w : Word) (s : State) : step (before (.write 0x800#12 w) s) = respondOkay (s.execute w) := by
  have h : regAt 0x800#12 = some .cmd := by decide
  simp [step, before, State.serve, State.hostWrite, h]

/-! ## From commands to steps -/

/-- The next access of `s` is a hardware reset, and `t` is the state it leaves (R200). -/
def State.HardReset (s t : State) : Prop := ∃ input rest, s.hostQ = .reset input :: rest ∧ t = { s with hostQ := rest }.hardReset input

/-- What no host data has a part in and every command, bad access and illegal word keeps, a step keeps, but for a hardware reset. -/
theorem step_keeps {P : State → Prop}
    (host : ∀ s freq hdr wdata hostQ resps, P s → P { s with freq := freq, hdr := hdr, wdata := wdata, hostQ := hostQ, resps := resps })
    (bad : ∀ s, P s → P (s.latch .badAccess)) (illegal : ∀ s, P s → P (s.raise .illegalCmd))
    (command : ∀ i s t, P s → exec i s = .next t → P t) {s t : State} (hs : P s) (h : step s = .next t) :
    P t ∨ s.HardReset t := by
  have respond : ∀ (u : State) r, P u → P (u.respond r) := fun u r hu => host u u.freq u.hdr u.wdata u.hostQ (u.resps ++ [r]) hu
  have served : ∀ rest, P { s with hostQ := rest } := fun rest => host s s.freq s.hdr s.wdata rest s.resps hs
  obtain ⟨-, rfl⟩ | ⟨addr, rest, -, rfl⟩ | ⟨addr, data, rest, -, hw⟩ | hreset := step_cases h
  · exact .inl hs
  · obtain ⟨v, -, e⟩ | ⟨-, e⟩ := State.hostRead_cases addr { s with hostQ := rest }
    · exact .inl (e ▸ respond _ _ (served rest))
    · exact .inl (e ▸ respond _ _ (bad _ (served rest)))
  · left
    obtain ⟨y, -, rfl⟩ | ⟨y, -, rfl⟩ | ⟨-, rfl⟩ | ⟨-, u, hu, rfl⟩ | rfl := State.hostWrite_cases hw
    · exact respond _ _ (host s _ s.hdr s.wdata rest s.resps hs)
    · exact respond _ _ (host s s.freq _ s.wdata rest s.resps hs)
    · exact respond _ _ (host s s.freq s.hdr data rest s.resps hs)
    · obtain ⟨i, -, he⟩ | ⟨e, -, rfl⟩ := State.execute_cases hu
      · exact respond _ _ (command i _ u (served rest) he)
      · exact respond _ _ (illegal _ (served rest))
    · exact respond _ _ (bad _ (served rest))
  · exact .inr hreset

theorem State.Advances.trans {s t u : State} (h : s.Advances t) (g : t.Advances u) : s.Advances u where
  out := h.out.trans g.out
  input := g.input.trans h.input
  inPos := h.inPos.trans g.inPos
  outSync := h.outSync.trans g.outSync
  streams := g.streams

/-- A step but a hardware reset moves no stream back. -/
theorem step_advances {s t : State} (hs : s.StreamsOk) (h : step s = .next t) :
    s.Advances t ∨ s.HardReset t :=
  step_keeps (P := s.Advances) (fun _ _ _ _ _ _ hu => hu.congr rfl) (fun _ hu => hu.congr (by simp [State.streamPart]))
    (fun _ hu => hu.congr (by simp [State.streamPart])) (fun _ _ _ hu he => hu.trans (exec_advances hu.streams he)) hs.advances_refl h

/-- A step but a hardware reset keeps the latch legal. -/
theorem step_keeps_statusOk {s t : State} (hs : s.StatusOk) (h : step s = .next t) :
    t.StatusOk ∨ s.HardReset t :=
  step_keeps (P := State.StatusOk) (fun _ _ _ _ _ _ hu => ⟨hu.last, hu.clear, hu.latched, hu.recorded⟩) (fun _ hu => hu.latch)
    (fun _ hu => hu.illegal) (fun _ _ _ hu he => hu.exec he) hs h

/-- A step but a hardware reset keeps the tree well-formed. -/
theorem step_keeps_wf {s t : State} (hs : s.tree.WF) (h : step s = .next t) :
    t.tree.WF ∨ s.HardReset t :=
  step_keeps (P := fun u => u.tree.WF) (fun _ _ _ _ _ _ hu => hu) (fun _ hu => by rwa [State.latch_tree])
    (fun _ hu => by rwa [State.raise_tree]) (fun _ _ _ hu he => exec_keeps_wf hu he) hs h

theorem State.resetWith_inv (input : List Byte) : (State.resetWith input).Inv where
  tree := CodeTree.empty_wf
  streams := ⟨by simp, by simp, by simp⟩
  status := ⟨by simp, by simp, by simp, by simp [Status.isError]⟩

theorem State.HardReset.inv {s t : State} (h : s.HardReset t) : t.Inv := by
  obtain ⟨input, rest, -, rfl⟩ := h
  obtain ⟨tree, ⟨slots, inPos, outSync⟩, ⟨last, clear, latched, recorded⟩⟩ := State.resetWith_inv input
  exact ⟨tree, ⟨slots, inPos, outSync⟩, ⟨last, clear, latched, recorded⟩⟩

/-! ## Every access is served -/

theorem State.execute_completes {s : State} (hexec : ∀ i, ∃ t, exec i s = .next t) (w : Word) : ∃ t, s.execute w = .next t := by
  unfold State.execute
  split
  · exact hexec _
  · exact ⟨_, rfl⟩

theorem State.hostWrite_completes {s : State} (hexec : ∀ i, ∃ t, exec i s = .next t) (addr : Addr) (data : Word) :
    ∃ t, s.hostWrite addr data = .next t := by
  obtain ⟨t, ht⟩ := State.execute_completes hexec data
  unfold State.hostWrite
  split <;> simp [respondOkay, ht]

end Sys2Proof.Machine

namespace Sys2Proof.Proofs

open Sys2Proof.Machine

/-- Settles O17: every access but a hardware reset moves the streams forward only and ends as R171 and R172 say; the reset state meets the
invariant. -/
theorem stepKeepsStreamsAndStatus : Obligations.StepKeepsStreamsAndStatus := by
  intro s t hs hst h
  exact ⟨(step_advances hs h).elim (·.streams) (·.inv.streams), (step_keeps_statusOk hst h).elim id (·.inv.status)⟩

/-- Settles O16: `BUILD` and `REBUILD` make well-formed trees only, and nothing else but a reset writes the tree; the streams and the latch
are those of O17. -/
theorem stepKeepsTheInvariant : Obligations.StepKeepsTheInvariant := by
  intro s t hs h
  obtain ⟨hstreams, hstatus⟩ := stepKeepsStreamsAndStatus s t hs.streams hs.status h
  exact ⟨(step_keeps_wf hs.tree h).elim id (·.inv.tree), hstreams, hstatus⟩

/-- Settles O18: reads and resets always end, and writes end because every command does in a well-formed tree. -/
theorem nothingStopsTheEngine : Obligations.NothingStopsTheEngine := by
  intro s hw
  refine ⟨?_, step_idle⟩
  cases hq : s.hostQ with
  | nil => exact ⟨s, step_idle hq⟩
  | cons e rest =>
    rw [step_cons hq]
    cases e with
    | read addr => exact ⟨_, rfl⟩
    | write addr data => exact State.hostWrite_completes (s := { s with hostQ := rest }) (fun i => everyCommandCompletes i _ hw) addr data
    | reset input => exact ⟨_, rfl⟩

/-- Settles O21: the relation `State.Advances` holds along every step but a hardware reset. -/
theorem streamsOnlyMoveForward : Obligations.StreamsOnlyMoveForward := by
  intro s t hs h hne
  obtain hadv | ⟨input, rest, hq, -⟩ := step_advances hs h
  · exact ⟨hadv.out, hadv.input, hadv.inPos, hadv.outSync⟩
  · exact absurd hq (hne input rest)

/-- Settles O25: command by command for the commands; a word with no command does not decode, and raising `ILLEGAL_CMD` leaves `RES` alone. -/
theorem resIsWrittenByTheReadingCommands : Obligations.ResIsWrittenByTheReadingCommands := by
  constructor
  · intro i s t h
    refine ⟨?_, ?_, ?_, ?_, exec_keeps_res h, ?_⟩
    · rintro rfl hok
      exact (execReadbit_res h).elim And.right fun hn => absurd hok hn.1
    · rintro rfl hok
      exact (execReadbyte_res h).elim And.right fun hn => absurd hok hn.1
    · rintro rfl hok
      exact (execDecode_res h).elim And.right fun hn => absurd hok hn.1
    · rintro (rfl | rfl | rfl | rfl) hne
      · exact (execReadbit_res h).elim (fun hok => absurd hok.1 hne) And.right
      · exact (execReadbyte_res h).elim (fun hok => absurd hok.1 hne) And.right
      · exact (execReadint_res h).resolve_left hne
      · exact (execDecode_res h).elim (fun hok => absurd hok.1 hne) And.right
    · rintro rfl
      rw [execSreset_next h]
      rfl
  · intro w s t hw h
    obtain ⟨e, he⟩ := decode_error_of_commandOf_none hw
    rw [step_before_cmd, State.execute, he] at h
    obtain rfl := Host.Outcome.next.inj h
    simp

/-- Settles O14: `State.reset` is the row of values of R47. -/
theorem resetValues : Obligations.ResetValues := by
  refine ⟨fun y => ?_, fun i => ?_, rfl, rfl, rfl, rfl, rfl, rfl, rfl, CodeTree.empty_leafOf, rfl, rfl, rfl, rfl, rfl, rfl, rfl, rfl⟩ <;>
    simp [State.reset, Vector.get_eq_getElem]

/-- Settles O15: the empty tree is well-formed, and empty buffers and a clear latch are legal. -/
theorem resetMeetsTheInvariant : Obligations.ResetMeetsTheInvariant := State.resetWith_inv

end Sys2Proof.Proofs
end

section
namespace Sys2Proof.Machine

/-! ## Which state a command can reach (R61) -/

/-- The state `s` with all that the command `i` can reach (R61) taken from `t`. Every command may write its result and its status (R25, R26). -/
def State.reached (i : Instr) (s t : State) : State :=
  let e : State := { s with res := t.res, last := t.last, err := t.err, firstErr := t.firstErr }
  match i with
  | .writebit _ | .encode _ => { e with wbuf := t.wbuf, wcnt := t.wcnt, out := t.out }
  | .writebyte _ | .writeint | .store => { e with out := t.out }
  | .flush => { e with wbuf := t.wbuf, wcnt := t.wcnt, out := t.out, outSync := t.outSync }
  | .readbit | .decode => { e with rbuf := t.rbuf, rpos := t.rpos, inPos := t.inPos }
  | .readbyte | .readint => { e with inPos := t.inPos }
  | .build | .rebuild _ => { e with tree := t.tree }
  | .sreset => { t with input := s.input, inPos := s.inPos, out := s.out, outSync := s.outSync, hostQ := s.hostQ, resps := s.resps }

/-- A command changes nothing but what it can reach. -/
theorem exec_reached {i : Instr} {s t : State} (h : exec i s = .next t) : t = s.reached i t := by
  cases i with
  | writebit b =>
    obtain ⟨bytes, e, -⟩ := s.putBit_spec (bitOperand b)
    rw [execWritebit_next h, e]
    rfl
  | readbit =>
    obtain ⟨-, rfl⟩ | ⟨b, s1, hb, rfl⟩ := execReadbit_cases h
    · rfl
    · rw [(State.ReadsTo.of_getBit hb).same]
      rfl
  | writebyte v => rw [execWritebyte_next h]; rfl
  | readbyte =>
    obtain ⟨-, rfl⟩ | ⟨v, s1, hv, rfl⟩ := execReadbyte_cases h
    · rfl
    · obtain ⟨-, rfl⟩ := (s.srcNext_eq_some_iff s1 v).1 hv
      rfl
  | writeint => rw [execWriteint_next h]; rfl
  | readint => obtain ⟨-, rfl⟩ | ⟨b0, b1, b2, b3, rest, -, rfl⟩ := execReadint_cases h <;> rfl
  | flush => obtain ⟨-, rfl⟩ | ⟨-, rfl⟩ := execFlush_cases h <;> rfl
  | build => rw [execBuild_next h]; rfl
  | store =>
    obtain ⟨bytes, -, rfl⟩ := execStore_cases h
    rfl
  | rebuild d =>
    obtain ⟨-, rfl⟩ | ⟨-, -, rfl⟩ | ⟨-, u, -, rfl⟩ := execRebuild_cases h
    · rw [State.raise_eq]; rfl
    · rw [State.raise_eq]; rfl
    · rfl
  | encode y =>
    obtain ⟨-, rfl⟩ | ⟨n, bits, -, -, rfl⟩ := execEncode_cases h
    · rw [State.raise_eq]; rfl
    · obtain ⟨bytes, e, -⟩ := s.putBits_spec bits
      rw [e]
      rfl
  | decode =>
    obtain ⟨-, rfl⟩ | ⟨r, -, ⟨y, s1, hd, rfl⟩ | ⟨s1, hd, rfl⟩⟩ := execDecode_cases h
    · rw [State.raise_eq]; rfl
    · rw [(State.ReadsTo.of_decode_symbol hd).same]
      rfl
    · rw [State.raise_eq, (State.ReadsTo.of_decode_eos hd).same]
      rfl
  | sreset => rw [execSreset_next h]; rfl

/-- No command touches the responses the host has received. -/
theorem exec_keeps_resps {i : Instr} {s t : State} (h : exec i s = .next t) : t.resps = s.resps := by
  rw [exec_reached h]
  cases i <;> rfl

theorem State.execute_keeps_resps {w : Word} {s t : State} (h : s.execute w = .next t) : t.resps = s.resps := by
  obtain ⟨i, -, he⟩ | ⟨e, -, rfl⟩ := State.execute_cases h
  · exact exec_keeps_resps he
  · exact State.raise_resps s _

end Sys2Proof.Machine
end

section
namespace Sys2Proof.Machine

open Sys2Proof.Claims

/-! ## The address map, from the register to its address (R62, R63) -/

/-- The byte address of a register (R62). -/
def Reg.address : Reg → Nat
  | .freq y => 4 * y.val
  | .hdr i => 0x400 + 4 * i.val
  | .cmd => 0x800
  | .wdata => 0x804
  | .res => 0x808
  | .status => 0x80C
  | .nleaf => 0x810
  | .wstate => 0x814
  | .rstate => 0x818

/-- The access class "RO" of R62. -/
def Reg.readOnly : Reg → Bool
  | .res | .status | .nleaf | .wstate | .rstate => true
  | .freq _ | .hdr _ | .cmd | .wdata => false

theorem regAt_of_address {addr : Addr} {r : Reg} (h : addr.toNat = r.address) : regAt addr = some r := by
  cases r with
  | freq y => exact regAt_freq h
  | hdr i => exact regAt_hdr h
  | cmd | wdata | res | status | nleaf | wstate | rstate =>
    rw [show addr = BitVec.ofNat 12 addr.toNat by simp, h]
    decide

/-- Every aligned address below the first unmapped one is that of a register. -/
theorem exists_address {n : Nat} (ha : n % 4 = 0) (hn : n < 0x81C) : ∃ r : Reg, n = r.address := by
  obtain hf | hh | hc | hc | hc | hc | hc | hc | hc : n < 0x400 ∨ (0x400 ≤ n ∧ n < 0x800) ∨ n = 0x800 ∨ n = 0x804 ∨ n = 0x808 ∨ n = 0x80C ∨
      n = 0x810 ∨ n = 0x814 ∨ n = 0x818 := by omega
  · exact ⟨.freq ⟨n / 4, by omega⟩, by simp only [Reg.address]; omega⟩
  · exact ⟨.hdr ⟨(n - 0x400) / 4, by omega⟩, by simp only [Reg.address]; omega⟩
  · exact ⟨.cmd, hc⟩
  · exact ⟨.wdata, hc⟩
  · exact ⟨.res, hc⟩
  · exact ⟨.status, hc⟩
  · exact ⟨.nleaf, hc⟩
  · exact ⟨.wstate, hc⟩
  · exact ⟨.rstate, hc⟩

/-- No register stands at a misaligned address (R63), nor above `RSTATE` (R62). -/
theorem regAt_eq_none {addr : Addr} (h : addr.toNat % 4 ≠ 0 ∨ 0x81C ≤ addr.toNat) : regAt addr = none := by
  by_cases ha : addr.toNat % 4 = 0
  · have hn : 0x81C ≤ addr.toNat := h.resolve_left (not_not_intro ha)
    simp only [regAt, ha, ne_eq, not_true_eq_false, if_false]
    iterate 9 rw [if_neg (by omega)]
  · simp only [regAt, ne_eq, ha, not_false_eq_true, if_true]

/-- All of what an address can be: that of a register, or one with none. -/
theorem regAt_cases (addr : Addr) : (∃ r : Reg, addr.toNat = r.address ∧ regAt addr = some r) ∨
    ((addr.toNat % 4 ≠ 0 ∨ 0x81C ≤ addr.toNat) ∧ regAt addr = none) := by
  by_cases h : addr.toNat % 4 ≠ 0 ∨ 0x81C ≤ addr.toNat
  · exact .inr ⟨h, regAt_eq_none h⟩
  · obtain ⟨r, hr⟩ := exists_address (n := addr.toNat) (by omega) (by omega)
    exact .inl ⟨r, hr, regAt_of_address hr⟩

/-! ## Which accesses are bad (R64) -/

theorem Reg.badRead_iff {addr : Addr} {r : Reg} (h : addr.toNat = r.address) : BadRead addr ↔ r = .cmd := by
  rw [BadRead, ← BitVec.toNat_inj, h]
  cases r with
  | freq y | hdr i => simp [Reg.address]; omega
  | cmd | wdata | res | status | nleaf | wstate | rstate => simp [Reg.address]

theorem Reg.badWrite_iff {addr : Addr} {r : Reg} (h : addr.toNat = r.address) : BadWrite addr ↔ r.readOnly = true := by
  simp only [BadWrite, ← BitVec.toNat_inj, h]
  cases r with
  | freq y | hdr i => simp [Reg.address, Reg.readOnly]; omega
  | cmd | wdata | res | status | nleaf | wstate | rstate => simp [Reg.address, Reg.readOnly]

/-- Every register but the write-only `CMD` has a word to answer (R161). -/
theorem exists_readReg {r : Reg} (h : r ≠ .cmd) (s : State) : ∃ v, readReg s r = some v := by
  cases r with
  | cmd => exact absurd rfl h
  | freq y | hdr i | wdata | res | status | nleaf | wstate | rstate => exact ⟨_, rfl⟩

/-- A good read is one that has a word to answer. -/
theorem exists_readReg_of_not_badRead {addr : Addr} (h : ¬ BadRead addr) (s : State) :
    ∃ r v, regAt addr = some r ∧ readReg s r = some v := by
  obtain ⟨r, ha, hr⟩ | ⟨hu, -⟩ := regAt_cases addr
  · obtain ⟨v, hv⟩ := exists_readReg (fun hc => h ((Reg.badRead_iff ha).2 hc)) s
    exact ⟨r, v, hr, hv⟩
  · exact absurd (hu.imp_right .inl) h

theorem readReg_of_badRead {addr : Addr} (h : BadRead addr) (s : State) : (regAt addr).bind (readReg s) = none := by
  obtain ⟨r, ha, hr⟩ | ⟨-, hn⟩ := regAt_cases addr
  · rw [hr, (Reg.badRead_iff ha).1 h]
    rfl
  · rw [hn]
    rfl

/-! ## One access (R161, R162) -/

theorem step_before (e : HostEvent) (s : State) : step (before e s) = s.serve e := rfl

/-- A bad access is answered `ERROR` with the latch set (R64). -/
theorem latch_respond_eq_refusedAccess (s : State) (d : Option Word) :
    (s.latch .badAccess).respond { bus := .error, data := d } = refusedAccess d s := by
  rw [State.latch_eq]
  rfl

theorem step_read_good {addr : Addr} {r : Reg} {v : Word} {s : State} (hr : regAt addr = some r) (hv : readReg s r = some v) :
    step (before (.read addr) s) = .next (served (some v) s) := by
  have h : (regAt addr).bind (readReg s) = some v := by rw [hr]; exact hv
  rw [step_before, State.serve, State.hostRead, h]
  rfl

theorem step_read_bad {addr : Addr} (h : BadRead addr) (s : State) : step (before (.read addr) s) = .next (refusedAccess (some 0) s) := by
  rw [step_before, State.serve, State.hostRead, readReg_of_badRead h]
  exact congrArg _ (latch_respond_eq_refusedAccess s _)

theorem step_write_bad {addr : Addr} (h : BadWrite addr) (data : Word) (s : State) :
    step (before (.write addr data) s) = .next (refusedAccess none s) := by
  rw [step_before, State.serve, State.hostWrite, ← latch_respond_eq_refusedAccess]
  obtain ⟨r, ha, hr⟩ | ⟨-, hn⟩ := regAt_cases addr
  · have ho := (Reg.badWrite_iff ha).1 h
    rw [hr]
    cases r with
    | freq y | hdr i | cmd | wdata => simp [Reg.readOnly] at ho
    | res | status | nleaf | wstate | rstate => rfl
  · rw [hn]

theorem step_write_freq {addr : Addr} {y : Fin 256} (h : regAt addr = some (.freq y)) (data : Word) (s : State) :
    step (before (.write addr data) s) = .next (served none { s with freq := s.freq.set y.val data }) := by
  rw [step_before, State.serve, State.hostWrite, h]
  rfl

theorem step_write_hdr {addr : Addr} {i : Fin 256} (h : regAt addr = some (.hdr i)) (data : Word) (s : State) :
    step (before (.write addr data) s) =
      .next (served none { s with hdr := s.hdr.set i.val { sym := data.extractLsb' 0 8, dep := data.extractLsb' 8 8 } }) := by
  rw [step_before, State.serve, State.hostWrite, h]
  rfl

theorem step_write_wdata {addr : Addr} (h : regAt addr = some .wdata) (data : Word) (s : State) :
    step (before (.write addr data) s) = .next (served none { s with wdata := data }) := by
  rw [step_before, State.serve, State.hostWrite, h]
  rfl

theorem step_write_cmd {addr : Addr} (h : regAt addr = some .cmd) (data : Word) (s : State) :
    step (before (.write addr data) s) = respondOkay (s.execute data) := by
  rw [step_before, State.serve, State.hostWrite, h]

/-- A good write is answered `OKAY` where every command completes, and the command adds no response of its own (R162, R163). -/
theorem step_write_good {addr : Addr} (h : ¬ BadWrite addr) (data : Word) {s : State} (hexec : ∀ i, ∃ t, exec i s = .next t) :
    ∃ t, t.resps = s.resps ∧ step (before (.write addr data) s) = .next (served none t) := by
  obtain ⟨r, ha, hr⟩ | ⟨hu, -⟩ := regAt_cases addr
  · have ho := mt (Reg.badWrite_iff ha).2 h
    cases r with
    | freq y => refine ⟨_, ?_, step_write_freq hr data s⟩; rfl
    | hdr i => refine ⟨_, ?_, step_write_hdr hr data s⟩; rfl
    | wdata => refine ⟨_, ?_, step_write_wdata hr data s⟩; rfl
    | cmd =>
      obtain ⟨t, ht⟩ := State.execute_completes hexec data
      exact ⟨t, State.execute_keeps_resps ht, by rw [step_write_cmd hr, ht]; rfl⟩
    | res | status | nleaf | wstate | rstate => exact absurd rfl ho
  · exact absurd (hu.imp_right .inl) h

/-! ## Reading back (R65, R73) -/

/-- A good access changes no register. -/
@[simp] theorem readReg_served (d : Option Word) (s : State) (r : Reg) : readReg (served d s) r = readReg s r := by
  cases r <;> rfl

/-- What a header entry stores of a word is its low half (R37). -/
theorem hdr_word_low (data : Word) : 0#16 ++ data.extractLsb' 8 8 ++ data.extractLsb' 0 8 = data &&& 0xFFFF#32 := by
  have hmask : ∀ j : Fin 32, (0xFFFF#32).getLsbD j = decide (j.val < 16) := by decide
  refine BitVec.eq_of_getLsbD_eq fun i hi => ?_
  simp only [BitVec.getLsbD_append, BitVec.getLsbD_extractLsb', BitVec.getLsbD_and, hmask ⟨i, hi⟩]
  obtain h | h | h : i < 8 ∨ (8 ≤ i ∧ i < 16) ∨ 16 ≤ i := by omega
  · simp [h, show i < 16 by omega]
  · simp [h, show ¬ i < 8 by omega, show i - 8 < 8 by omega, show 8 + (i - 8) = i by omega]
  · simp [show ¬ i < 8 by omega, show ¬ i - 8 < 8 by omega, show ¬ i < 16 by omega]

end Sys2Proof.Machine
end

section
namespace Sys2Proof.Proofs

open Sys2Proof.Machine Sys2Proof.Claims

/-- Settles O20: the next state is `State.reached`, which takes from it only what the command can reach; the clauses are read off it. -/
theorem commandsReachOnlyTheirState : Obligations.CommandsReachOnlyTheirState := by
  intro i s t h
  rw [exec_reached h]
  cases i <;> simp [State.reached]

/-- Settles O8: an access is bad exactly when its address has no register or one of the wrong access class; a good write is answered because
every command completes in a well-formed tree. -/
theorem badAccessesOnlyLatch : Obligations.BadAccessesOnlyLatch := by
  intro s addr
  refine ⟨fun h => step_read_bad h s, fun h => ?_, fun data => ⟨fun h => step_write_bad h data s, fun h hw => ?_⟩⟩
  · obtain ⟨r, v, hr, hv⟩ := exists_readReg_of_not_badRead h s
    exact ⟨v, step_read_good hr hv⟩
  · exact step_write_good h data fun i => everyCommandCompletes i s hw

/-- Settles O12: a good read changes no register, so it finds the same word again; a bad one latches once. -/
theorem readsAreRepeatable : Obligations.ReadsAreRepeatable := by
  intro s addr
  by_cases h : BadRead addr
  · refine ⟨_, _, { bus := .error, data := some 0 }, step_read_bad h s, step_read_bad h _, rfl, ?_, by simp⟩
    simp [refusedAccess]
  · obtain ⟨r, v, hr, hv⟩ := exists_readReg_of_not_badRead h s
    have hv2 : readReg (served (some v) s) r = some v := by rw [readReg_served, hv]
    exact ⟨_, _, { bus := .okay, data := some v }, step_read_good hr hv, step_read_good hr hv2, rfl, rfl, fun _ => ⟨rfl, rfl⟩⟩

/-- Settles O11: the write leaves the word in its entry, where the read finds it; a header entry has only the low half. -/
theorem readAfterWriteReturnsTheWord : Obligations.ReadAfterWriteReturnsTheWord := by
  intro s t u addr data hrw ha hw hr
  have hlt : addr.toNat < 0x800 ∨ addr.toNat = 0x804 := hrw.imp_right fun h => by rw [h]; rfl
  obtain ⟨r, hra⟩ := exists_address ha (by omega)
  have hreg := regAt_of_address hra
  have hv : readReg t r = some (if 0x400 ≤ addr.toNat ∧ addr.toNat < 0x800 then data &&& 0xFFFF#32 else data) := by
    rw [hra] at hlt ⊢
    cases r with
    | freq y =>
      rw [step_write_freq hreg] at hw
      obtain rfl := Host.Outcome.next.inj hw
      rw [readReg_served, if_neg (by simp only [Reg.address]; omega)]
      simp [readReg, Vector.get_eq_getElem]
    | hdr i =>
      rw [step_write_hdr hreg] at hw
      obtain rfl := Host.Outcome.next.inj hw
      rw [readReg_served, if_pos (by simp only [Reg.address]; omega), ← hdr_word_low]
      simp [readReg, Vector.get_eq_getElem]
    | wdata =>
      rw [step_write_wdata hreg] at hw
      obtain rfl := Host.Outcome.next.inj hw
      rfl
    | cmd | res | status | nleaf | wstate | rstate => simp [Reg.address] at hlt
  rw [step_read_good hreg hv] at hr
  obtain rfl := Host.Outcome.next.inj hr
  rfl

end Sys2Proof.Proofs
end

section
namespace Sys2Proof

/-! ## The rows of the opcode map (R91 to R93) -/

/-- The low 24 bits of a word of the format `fmt` whose zero field is 0: the zero field, then the immediate of `w` (R91). -/
def Format.operand (fmt : Format) (w : Word) : BitVec 24 :=
  match fmt with
  | .N => 0#24
  | .S8 => 0#16 ++ imm8Field w
  | .D9 => 0#15 ++ imm9Field w

/-- The opcodes whose words have the format `fmt` (R93). -/
def Format.opcodes : Format → List Nat
  | .N => [0x02, 0x04, 0x05, 0x06, 0x07, 0x10, 0x11, 0x21, 0xFF]
  | .S8 => [0x01, 0x03, 0x20]
  | .D9 => [0x12]

/-- An opcode has one format (R93). -/
theorem Format.eq_of_mem_opcodes {fmt fmt' : Format} {n : Nat} (h : n ∈ fmt.opcodes) (h' : n ∈ fmt'.opcodes) : fmt = fmt' := by
  revert n
  cases fmt <;> cases fmt' <;> decide

/-- Where the opcodes of the map stand among the 256 values of the opcode field (R93, R94). -/
theorem Format.range_of_mem_opcodes {fmt : Format} {n : Nat} (h : n ∈ fmt.opcodes) :
    (0x01 ≤ n ∧ n ≤ 0x07) ∨ (0x10 ≤ n ∧ n ≤ 0x12) ∨ (0x20 ≤ n ∧ n ≤ 0x21) ∨ n = 0xFF := by
  revert n
  cases fmt <;> decide

theorem imm8Field_eq (w : Word) : imm8Field w = w.setWidth 8 := BitVec.eq_of_toNat_eq (by simp [imm8Field])

theorem immediate_append {k m n : Nat} (a : BitVec k) (z : BitVec m) (x : BitVec n) : (a ++ (z ++ x)).extractLsb' 0 n = x := by
  rw [BitVec.extractLsb'_append_eq_of_add_le (by omega), BitVec.extractLsb'_append_eq_right]

theorem zeroField_append {k m n : Nat} (a : BitVec k) (z : BitVec m) (x : BitVec n) : (a ++ (z ++ x)).extractLsb' n m = z := by
  rw [BitVec.extractLsb'_append_eq_of_add_le (by omega), BitVec.extractLsb'_append_eq_left]

/-- All of what a row says (R93): its opcode has its format, and the word of the command it gives is the opcode over the operand it was given. -/
theorem rowOf_spec {op : BitVec 8} {fmt : Format} {command : Word → Instr} (h : rowOf op = some (fmt, command)) :
    op.toNat ∈ fmt.opcodes ∧ ∀ w, encode (command w) = op ++ fmt.operand w := by
  have hop : ∀ {n : Nat}, op.toNat = n → op = BitVec.ofNat 8 n := fun h => by simp [← h]
  unfold rowOf at h
  split at h
  all_goals cases h
  all_goals next e => exact ⟨by rw [e]; decide, fun w => by rw [hop e]; rfl⟩

/-- The row of a command's opcode reads the command back from its word (R91 to R93). -/
theorem exists_row (i : Instr) : ∃ fmt command, rowOf (opcode i) = some (fmt, command) ∧ command (encode i) = i ∧
    encode i = opcode i ++ fmt.operand (encode i) := by
  cases i with
  | writebit imm8 | writebyte imm8 | encode imm8 =>
    exact ⟨.S8, _, rfl, congrArg _ (immediate_append ..), congrArg (fun x => _ ++ (0#16 ++ x)) (immediate_append ..).symm⟩
  | rebuild imm9 =>
    exact ⟨.D9, _, rfl, congrArg _ (immediate_append ..), congrArg (fun x => _ ++ (0#15 ++ x)) (immediate_append ..).symm⟩
  | readbit | readbyte | writeint | readint | flush | build | store | decode | sreset => exact ⟨.N, _, rfl, rfl, rfl⟩

/-! ## The mask of a format (R93) -/

theorem append_eq_append_iff {m n : Nat} {a b : BitVec m} {x y : BitVec n} : a ++ x = b ++ y ↔ a = b ∧ x = y := by
  refine ⟨fun h => ⟨?_, ?_⟩, fun ⟨ha, hx⟩ => ha ▸ hx ▸ rfl⟩
  · simpa only [BitVec.extractLsb'_append_eq_left] using congrArg (BitVec.extractLsb' n m) h
  · simpa only [BitVec.extractLsb'_append_eq_right] using congrArg (BitVec.extractLsb' 0 n) h

/-- Masking out the low `n` bits leaves an opcode over a zero field of `m` bits just when the word is these over its low `n` bits. -/
theorem and_mask_eq_append_iff {k m n : Nat} (w : BitVec (k + (m + n))) (op : BitVec k) :
    w &&& (BitVec.allOnes k ++ (BitVec.allOnes m ++ 0#n)) = op ++ (0#m ++ 0#n) ↔ w = op ++ (0#m ++ w.extractLsb' 0 n) := by
  obtain ⟨a, x, rfl⟩ : ∃ (a : BitVec k) (x : BitVec (m + n)), w = a ++ x := ⟨_, _, BitVec.extractLsb'_append_extractLsb'.symm⟩
  obtain ⟨z, c, rfl⟩ : ∃ (z : BitVec m) (c : BitVec n), x = z ++ c := ⟨_, _, BitVec.extractLsb'_append_extractLsb'.symm⟩
  rw [BitVec.and_append, BitVec.and_append, BitVec.and_allOnes, BitVec.and_allOnes, BitVec.and_zero, immediate_append]
  simp only [append_eq_append_iff, and_true]

/-- A word meets the mask and match of a row just when it is the row's opcode over its operand. -/
theorem and_mask_eq_matchWord_iff (fmt : Format) (w : Word) (op : BitVec 8) :
    w &&& fmt.mask = matchWord op ↔ w = op ++ fmt.operand w := by
  cases fmt with
  | N => simpa [Format.mask, matchWord, Format.operand] using and_mask_eq_append_iff (m := 24) (n := 0) w op
  | S8 => exact and_mask_eq_append_iff (m := 16) (n := 8) w op
  | D9 => exact and_mask_eq_append_iff (m := 15) (n := 9) w op

end Sys2Proof

namespace Sys2Proof.Machine

open Sys2Proof.Claims

/-! ## The decoder by rows (R96) -/

/-- A word that meets the mask and match of a row decodes to the row's command, where that is well-formed. -/
theorem decode_eq_ok_of_row {w : Word} {op : BitVec 8} {fmt : Format} {command : Word → Instr} {i : Instr}
    (hr : rowOf op = some (fmt, command)) (hm : w &&& fmt.mask = matchWord op) (hi : command w = i) (hwf : WellFormed i = true) :
    decode w = .ok i := by
  have hop : opField w = op := by
    rw [(and_mask_eq_matchWord_iff fmt w op).1 hm]
    exact BitVec.extractLsb'_append_eq_left
  subst hop hi
  simp [decode, hr, hm, hwf]

/-- What a word that decodes looks like: its opcode is one of a format's, and it is the opcode over the operand. -/
theorem decode_ok_fields {w : Word} {i : Instr} (h : decode w = .ok i) :
    ∃ fmt : Format, (opField w).toNat ∈ fmt.opcodes ∧ w = opField w ++ fmt.operand w := by
  obtain ⟨fmt, command, hr, hm, -, -⟩ := decode_ok_cases h
  exact ⟨fmt, (rowOf_spec hr).1, (and_mask_eq_matchWord_iff fmt w _).1 hm⟩

/-- One line of the opcode map read by mask and match: a row, else the rows below it. -/
theorem decode_of_row_or {w : Word} {op : BitVec 8} {fmt : Format} {command : Word → Instr} {i j : Instr} {rest : Option Instr}
    (hr : rowOf op = some (fmt, command)) (hj : command w = j) (hwf : WellFormed j = true) (hrest : rest = some i → decode w = .ok i)
    (h : (if w &&& fmt.mask = matchWord op then some j else rest) = some i) : decode w = .ok i := by
  obtain ⟨hm, h⟩ | ⟨-, h⟩ := ite_eq_iff.1 h
  · exact decode_eq_ok_of_row hr hm (hj.trans (Option.some.inj h)) (Option.some.inj h ▸ hwf)
  · exact hrest h

/-- The opcode map read by mask and match agrees with the decoder where it gives a command (R93, R96). -/
theorem decode_of_commandOf {w : Word} {i : Instr} : commandOf w = some i → decode w = .ok i := by
  have himm {f : Byte → Instr} : f (imm8Field w) = f (w.setWidth 8) := congrArg f (imm8Field_eq w)
  unfold commandOf
  refine decode_of_row_or (op := 0x01) rfl himm rfl <|
    decode_of_row_or (op := 0x02) rfl rfl rfl <|
    decode_of_row_or (op := 0x03) rfl himm rfl <|
    decode_of_row_or (op := 0x04) rfl rfl rfl <|
    decode_of_row_or (op := 0x05) rfl rfl rfl <|
    decode_of_row_or (op := 0x06) rfl rfl rfl <|
    decode_of_row_or (op := 0x07) rfl rfl rfl <|
    decode_of_row_or (op := 0x10) rfl rfl rfl <|
    decode_of_row_or (op := 0x11) rfl rfl rfl <|
    fun h => ?_
  obtain ⟨hm, h⟩ | ⟨-, h⟩ := ite_eq_iff.1 h
  · obtain ⟨hd, h⟩ | ⟨-, h⟩ := ite_eq_iff.1 h
    · exact Option.some.inj h ▸ decode_eq_ok_of_row (op := 0x12) rfl hm (congrArg _ (imm9Field_eq w)) (decide_eq_true hd)
    · cases h
  · revert h
    exact decode_of_row_or (op := 0x20) rfl himm rfl <|
      decode_of_row_or (op := 0x21) rfl rfl rfl <|
      decode_of_row_or (op := 0xFF) rfl rfl rfl nofun

theorem decode_ne_ok_of_commandOf_none {w : Word} (h : commandOf w = none) (i : Instr) : decode w ≠ .ok i := by
  obtain ⟨e, he⟩ := decode_error_of_commandOf_none h
  simp [he]

/-! ## What is no command (R94 to R96) -/

/-- A write to `CMD` of a word that does not decode ends `ILLEGAL_CMD` and changes nothing else (R96, R163). -/
theorem step_of_not_decode {w : Word} (h : ∀ i, decode w ≠ .ok i) (s : State) :
    step (before (.write 0x800#12 w) s) = .next (served none (failed .illegalCmd s)) := by
  cases hd : decode w with
  | ok i => exact absurd hd (h i)
  | error e =>
    rw [step_before_cmd, State.execute, hd, State.raise_eq]
    rfl

end Sys2Proof.Machine
end

section
namespace Sys2Proof.Proofs

open Sys2Proof.Machine Sys2Proof.Claims

/-- Settles O1: the row of the command's opcode reads the command back from its word. -/
theorem decodeOfEncodeIsTheCommand : Obligations.DecodeOfEncodeIsTheCommand := by
  intro i hwf
  obtain ⟨fmt, command, hr, hi, hw⟩ := exists_row i
  exact decode_eq_ok_of_row hr ((and_mask_eq_matchWord_iff ..).2 hw) hi hwf

/-- Settles O2: the mask of the row leaves no bit of the word but the operand, and the command's word has the same opcode and operand. -/
theorem decodedWordIsTheEncodedCommand : Obligations.DecodedWordIsTheEncodedCommand := by
  intro w i h
  obtain ⟨fmt, command, hr, hm, hwf, rfl⟩ := decode_ok_cases h
  refine ⟨hwf, ?_⟩
  calc encode (command w) = opField w ++ fmt.operand w := (rowOf_spec hr).2 w
    _ = w := ((and_mask_eq_matchWord_iff ..).1 hm).symm

/-- Settles O3: where the map gives a command the decoder gives the same, and where it gives none the decoder answers an error. -/
theorem decodeFollowsTheOpcodeMap : Obligations.DecodeFollowsTheOpcodeMap := by
  refine ⟨fun w i => ⟨fun h => ?_, decode_of_commandOf⟩, fun w s h => step_of_not_decode (decode_ne_ok_of_commandOf_none h) s⟩
  cases hc : commandOf w with
  | none => exact absurd h (decode_ne_ok_of_commandOf_none hc i)
  | some j => rw [Except.ok.inj ((decode_of_commandOf hc).symm.trans h)]

/-- Settles O4: a word that decodes has an opcode of some format, and no reserved opcode is one. -/
theorem reservedOpcodesAreIllegal : Obligations.ReservedOpcodesAreIllegal := by
  rintro w s op rfl hop
  refine step_of_not_decode (fun i hi => ?_) s
  obtain ⟨fmt, hmem, -⟩ := decode_ok_fields hi
  have hrange := Format.range_of_mem_opcodes hmem
  rw [opField] at hrange
  omega

/-- Settles O5: a word that decodes has a zero field 0 in the format of its opcode, and an opcode has one format. -/
theorem setZeroFieldsAreIllegal : Obligations.SetZeroFieldsAreIllegal := by
  refine ⟨?_, fun s => ?_⟩
  · rintro w s op rfl h
    refine step_of_not_decode (fun i hi => ?_) s
    obtain ⟨fmt, hmem, hw⟩ := decode_ok_fields hi
    obtain ⟨hop, hz⟩ | ⟨hop, hz⟩ | ⟨hop, hz⟩ := h
    · obtain rfl : fmt = .N := Format.eq_of_mem_opcodes hmem hop
      exact hz (congrArg (·.extractLsb' 0 24) hw |>.trans BitVec.extractLsb'_append_eq_right)
    · obtain rfl : fmt = .S8 := Format.eq_of_mem_opcodes hmem hop
      exact hz (congrArg (·.extractLsb' 8 16) hw |>.trans (zeroField_append ..))
    · obtain rfl : fmt = .D9 := Format.eq_of_mem_opcodes hmem (List.mem_singleton.2 hop)
      exact hz (congrArg (·.extractLsb' 9 15) hw |>.trans (zeroField_append ..))
  · have hd : decode 0x010000FE#32 = .ok (.writebit 0xFE#8) := by decide
    rw [step_before_cmd, State.execute, hd]
    rfl

/-- Settles O6: each word is evaluated. -/
theorem writtenOutWordsDecode : Obligations.WrittenOutWordsDecode := by
  unfold Obligations.WrittenOutWordsDecode
  decide

end Sys2Proof.Proofs
end

section
namespace Sys2Proof

/-! ## The words of the commands with an 8-bit immediate (R91) -/

/-- An immediate goes below an opcode and its zero field by `or`. -/
theorem append_zero_or_setWidth {k m n : Nat} (op : BitVec k) (imm : BitVec n) :
    (op ++ (0#m ++ 0#n)) ||| imm.setWidth (k + (m + n)) = op ++ (0#m ++ imm) := by
  have himm : imm.setWidth (k + (m + n)) = 0#k ++ (0#m ++ imm) := by
    have hlt : imm.toNat < 2 ^ (k + (m + n)) := imm.isLt.trans_le (Nat.pow_le_pow_right two_pos (by omega))
    exact BitVec.eq_of_toNat_eq (by simpa using Nat.mod_eq_of_lt hlt)
  rw [himm, BitVec.or_append, BitVec.or_append, BitVec.or_zero, BitVec.or_zero, BitVec.zero_or]

/-- The word of an S8 row: its `match` word with the immediate in the low 8 bits. -/
theorem matchWord_or_setWidth (op : BitVec 8) (imm8 : Byte) : matchWord op ||| imm8.setWidth 32 = op ++ (0#16 ++ imm8) :=
  append_zero_or_setWidth op imm8

end Sys2Proof

namespace Sys2Proof.Machine

/-! ## The bytes of a word (R68) -/

/-- The four bytes of a word, most significant first, are the word. -/
theorem append_wordBytes (n : Word) :
    n.extractLsb' 24 8 ++ n.extractLsb' 16 8 ++ n.extractLsb' 8 8 ++ n.extractLsb' 0 8 = n := by
  rw [BitVec.extractLsb'_append_extractLsb'_eq_extractLsb' (show 24 = 16 + 8 from rfl),
    BitVec.extractLsb'_append_extractLsb'_eq_extractLsb' (show 16 = 8 + 8 from rfl),
    BitVec.extractLsb'_append_extractLsb'_eq_extractLsb' (show 8 = 0 + 8 from rfl)]
  exact BitVec.extractLsb'_eq_self

theorem wordBytes_append (b0 b1 b2 b3 : Byte) : wordBytes (b3 ++ b2 ++ b1 ++ b0) = [b0, b1, b2, b3] := by
  have h := append_wordBytes (b3 ++ b2 ++ b1 ++ b0)
  simp only [append_eq_append_iff] at h
  obtain ⟨⟨⟨h3, h2⟩, h1⟩, h0⟩ := h
  rw [wordBytes, h0, h1, h2, h3]

/-! ## Bits and the bits of a byte (R67) -/

theorem bitWord_eq_ite (b : Bool) : bitWord b = if b then 1 else 0 := by cases b <;> rfl

/-- The bits of a byte whose slots from `k` on are 0. -/
theorem bitsOf_singleton_of_slots {v : Byte} {k : Nat} (hk : k ≤ 8) (h : ∀ i, k ≤ i → i < 8 → v.getLsbD i = false) :
    bitsOf [v] = (List.range k).map v.getLsbD ++ List.replicate (8 - k) false := by
  have hsplit : List.range 8 = List.range k ++ (List.range (8 - k)).map (k + ·) := by
    rw [← List.range_add, Nat.add_sub_cancel' hk]
  rw [bitsOf_cons, bitsOf_nil, List.append_nil, hsplit, List.map_append]
  congr 1
  refine List.eq_replicate_iff.2 ⟨by simp, fun b hb => ?_⟩
  simp only [List.map_map, List.mem_map, List.mem_range, Function.comp_apply] at hb
  obtain ⟨i, hi, rfl⟩ := hb
  exact h _ (by omega) (by omega)

/-! ## The bits left before a reader (R111) -/

theorem State.unread_inPos_succ {s : State} {v : Byte} {rest : List Byte} (h : s.unread = v :: rest) :
    ({ s with inPos := s.inPos + 1 } : State).unread = rest := by
  have hv := (s.unread_eq_cons_iff v).1 ⟨rest, h⟩
  have hnext := State.srcNext_unread ((s.srcNext_eq_some_iff _ v).2 ⟨hv, rfl⟩)
  exact (List.cons.inj (hnext.symm.trans h)).2

theorem State.bitsLeft_of_rpos_eight {s : State} (h : s.rpos.val = 8) : s.bitsLeft = bitsOf s.unread := by
  simp [State.bitsLeft, h]

/-- `GetBit` takes exactly the first bit left. -/
theorem State.getBit_bitsLeft {s t : State} {b : Bool} (h : s.getBit = some (b, t)) : s.bitsLeft = b :: t.bitsLeft := by
  obtain ⟨hr, rfl, hp, e⟩ | ⟨h8, v, hv, rfl, e⟩ := State.getBit_cases h
  · have hbuf : t.rbuf = s.rbuf := by rw [e]
    have hin : t.unread = s.unread := by rw [e]; rfl
    rw [State.bitsLeft, State.bitsLeft, hbuf, hin, hp, List.drop_eq_getElem_cons (by simpa using hr)]
    simp
  · obtain ⟨rest, hu⟩ := (s.unread_eq_cons_iff v).2 hv
    have hrest : t.unread = rest := e ▸ State.unread_inPos_succ hu
    rw [State.bitsLeft_of_rpos_eight h8, hu, bitsOf_cons, State.bitsLeft, hrest, e]
    rfl

theorem State.getBit_eq_none_iff (s : State) : s.getBit = none ↔ s.bitsLeft = [] := by
  cases hb : s.getBit with
  | none =>
    obtain ⟨h8, he⟩ := State.getBit_eq_none hb
    simp [State.bitsLeft_of_rpos_eight h8, s.unread_eq_nil_iff.2 he]
  | some p => simp [State.getBit_bitsLeft hb]

/-! ## Whole bytes through GetBit (R111, R119) -/

theorem State.Receives.append {xs ys : List Bool} {s t u : State} (h : State.Receives xs s t) (g : State.Receives ys t u) :
    State.Receives (xs ++ ys) s u := by
  induction xs generalizing s with
  | nil => exact h ▸ g
  | cons b xs ih =>
    obtain ⟨s1, hb, h1⟩ := h
    exact ⟨s1, hb, ih h1⟩

/-- The bits of `RBUF` from slot `RPOS` on come first, with no byte fetched. -/
theorem State.receives_rbuf (s : State) :
    State.Receives (((List.range 8).drop s.rpos.val).map s.rbuf.getLsbD) s { s with rpos := 8 } := by
  generalize hk : 8 - s.rpos.val = k
  induction k generalizing s with
  | zero =>
    have h8 : s.rpos = 8 := Fin.ext (show s.rpos.val = 8 by omega)
    rw [h8]
    exact congrArg (fun p => { s with rpos := p }) h8.symm
  | succ k ih =>
    have hr : s.rpos.val < 8 := by omega
    rw [List.drop_eq_getElem_cons (by simpa using hr), List.getElem_range]
    exact ⟨_, State.getBit_lt hr, ih { s with rpos := ⟨s.rpos.val + 1, by omega⟩ } (show 8 - (s.rpos.val + 1) = k by omega)⟩

/-- With `RBUF` used up, the next byte of `IN` comes slot 0 first. -/
theorem State.receives_byte {s : State} {v : Byte} (h : s.rpos.val = 8) (hv : s.input[s.inPos]? = some v) :
    State.Receives (bitsOf [v]) s { s with rbuf := v, rpos := 8, inPos := s.inPos + 1 } :=
  ⟨_, State.getBit_fetch h hv, State.receives_rbuf { s with rbuf := v, rpos := 1, inPos := s.inPos + 1 }⟩

/-- A reader with `RBUF` used up gets the bits of the bytes before it, and then stands at what follows them. -/
theorem State.exists_receives_bytes {s : State} {bytes rest : List Byte} (h : s.rpos.val = 8) (hu : s.unread = bytes ++ rest) :
    ∃ t, State.Receives (bitsOf bytes) s t ∧ t.rpos.val = 8 ∧ t.unread = rest := by
  induction bytes generalizing s with
  | nil => exact ⟨s, rfl, h, hu⟩
  | cons v vs ih =>
    have hv := (s.unread_eq_cons_iff v).1 ⟨_, hu⟩
    obtain ⟨t, ht, hpos, hrest⟩ :=
      ih (s := { s with rbuf := v, rpos := 8, inPos := s.inPos + 1 }) rfl (State.unread_inPos_succ hu)
    exact ⟨t, State.Receives.append (State.receives_byte h hv) ht, hpos, hrest⟩

/-! ## FLUSH (R118) -/

theorem exec_flush_of_empty {s : State} (h : s.wcnt.val = 0) : exec .flush s = .next { s with outSync := s.out.length, last := .ok } := by
  have h0 : s.wcnt = 0 := Fin.ext h
  simp [exec, execFlush, h0, State.sinkSync, State.finish]

theorem exec_flush_of_pending {s : State} (h : 0 < s.wcnt.val) : exec .flush s =
    .next { s with out := s.out ++ [s.wbuf], wbuf := 0, wcnt := 0, outSync := s.out.length + 1, last := .ok } := by
  have h0 : s.wcnt ≠ 0 := fun e => by simp [e] at h
  simp [exec, execFlush, h0, State.sinkPut, State.clearWriter, State.sinkSync, State.finish]

/-- What `FLUSH` appends to `OUT`: the pending bits and 0 up to the end of their byte, no byte where none is pending. -/
theorem State.exists_flush_bytes {s : State} (hs : ∀ i, s.wcnt.val ≤ i → i < 8 → s.wbuf.getLsbD i = false) : ∃ bytes u,
    exec .flush s = .next u ∧ u.out = s.out ++ bytes ∧ bytes.length = (s.wcnt.val + 7) / 8 ∧
    bitsOf bytes = s.pendingBits ++ List.replicate (8 * ((s.wcnt.val + 7) / 8) - s.wcnt.val) false := by
  have hw := s.wcnt.isLt
  obtain h | h := Nat.eq_zero_or_pos s.wcnt.val
  · exact ⟨[], _, exec_flush_of_empty h, by simp, by simp [h], by simp [State.pendingBits, h]⟩
  · have hceil : (s.wcnt.val + 7) / 8 = 1 := by omega
    rw [hceil]
    exact ⟨[s.wbuf], _, exec_flush_of_pending h, rfl, rfl, bitsOf_singleton_of_slots hw.le hs⟩

/-- What `PutBit` of `bits` from an empty buffer and then `FLUSH` append to `OUT`: the bits, and 0 up to the end of the last byte. -/
theorem State.exists_flush_putBits_bytes {s : State} (hs : s.StreamsOk) (h0 : s.wcnt.val = 0) (bits : List Bool) : ∃ bytes u,
    exec .flush (s.putBits bits) = .next u ∧ u.out = s.out ++ bytes ∧ bytes.length = (bits.length + 7) / 8 ∧
    bitsOf bytes = bits ++ List.replicate (8 * ((bits.length + 7) / 8) - bits.length) false := by
  obtain ⟨full, e, hbits⟩ := s.putBits_spec bits
  obtain ⟨tail, u, hu, hout, hlen, htail⟩ := State.exists_flush_bytes (State.putBits_slots bits hs.slots)
  have hempty : s.pendingBits = [] := by simp [State.pendingBits, h0]
  have hsout : (s.putBits bits).out = s.out ++ full := by rw [e]
  rw [hempty, List.nil_append] at hbits
  have hm : bits.length = 8 * full.length + (s.putBits bits).wcnt.val := by
    simpa only [List.length_append, bitsOf_length, State.pendingBits_length] using congrArg List.length hbits
  refine ⟨full ++ tail, u, hu, by rw [hout, hsout, List.append_assoc], by rw [List.length_append]; omega, ?_⟩
  calc bitsOf (full ++ tail) = bits ++ List.replicate (8 * (((s.putBits bits).wcnt.val + 7) / 8) - (s.putBits bits).wcnt.val) false := by
        rw [bitsOf_append, htail, ← List.append_assoc, ← hbits]
    _ = bits ++ List.replicate (8 * ((bits.length + 7) / 8) - bits.length) false := by
        congr 2
        omega

/-! ## What the reads answer (R113, R115, R117) -/

theorem exec_readbit_of_some {s t : State} {b : Bool} (h : s.getBit = some (b, t)) :
    exec .readbit s = .next { t with res := if b then 1 else 0, last := .ok } := by
  simp [exec, execReadbit, h, State.answer, bitWord_eq_ite]

theorem exec_readbit_of_none {s : State} (h : s.getBit = none) : exec .readbit s = .next s.endOfData := by simp [exec, execReadbit, h]

theorem exec_readbyte_of_some {s : State} {v : Byte} (h : s.input[s.inPos]? = some v) :
    exec .readbyte s = .next { s with inPos := s.inPos + 1, res := v.setWidth 32, last := .ok } := by
  simp [exec, execReadbyte, (s.srcNext_eq_some_iff _ v).2 ⟨h, rfl⟩, State.answer, byteWord]

theorem exec_readbyte_of_end {s : State} (h : s.input.length ≤ s.inPos) : exec .readbyte s = .next s.endOfData := by
  simp [exec, execReadbyte, s.srcNext_eq_none_iff.2 h]

theorem exec_readint_of_four {s : State} {b0 b1 b2 b3 : Byte} {rest : List Byte} (h : s.unread = b0 :: b1 :: b2 :: b3 :: rest) :
    exec .readint s = .next { s with inPos := s.inPos + 4, res := b3 ++ b2 ++ b1 ++ b0, last := .ok } := by
  simp [exec, execReadint, h, State.answer, bytesWord]

theorem exec_readint_of_short {s : State} (h : s.unread.length < 4) : exec .readint s = .next s.endOfData := by
  match hu : s.unread with
  | [] | [_] | [_, _] | [_, _, _] => simp [exec, execReadint, hu]
  | _ :: _ :: _ :: _ :: _ => exact absurd h (by simp [hu])

/-- `READBYTE` with a byte left, said of the bytes left. -/
theorem exists_exec_readbyte {s : State} {v : Byte} {rest : List Byte} (h : s.unread = v :: rest) :
    ∃ u, exec .readbyte s = .next u ∧ u.last = .ok ∧ u.res = v.setWidth 32 ∧ u.unread = rest :=
  ⟨_, exec_readbyte_of_some ((s.unread_eq_cons_iff v).1 ⟨rest, h⟩), rfl, rfl, State.unread_inPos_succ h⟩

end Sys2Proof.Machine
end

section
namespace Sys2Proof.Proofs

open Sys2Proof.Machine Sys2Proof.Claims

/-- Settles O35: `PutBit` and `FLUSH` lay the bits and the pad out in whole bytes, and a reader at a byte boundary gets the bits of
whole bytes. -/
theorem bitsComeBackInOrder : Obligations.BitsComeBackInOrder := by
  intro s bits hs h0
  obtain ⟨bytes, u, hu, hout, hlen, hbits⟩ := State.exists_flush_putBits_bytes hs h0 bits
  refine ⟨bytes, u, hu, hout, hlen, hbits, fun r rest hr hrest => ?_⟩
  obtain ⟨t, ht, hpos, hleft⟩ := State.exists_receives_bytes hr hrest
  exact ⟨t, hbits ▸ ht, hpos, hleft, fun hnil => State.getBit_end hpos (t.unread_eq_nil_iff.1 (hleft.trans hnil))⟩

/-- Settles O34: the slots from `WCNT` on are the pad bits. -/
theorem flushEmitsPendingBitsAndSyncs : Obligations.FlushEmitsPendingBitsAndSyncs :=
  ⟨by decide, fun s => ⟨exec_flush_of_empty, fun h hs =>
    ⟨s.wbuf, exec_flush_of_pending h, bitsOf_singleton_of_slots s.wcnt.isLt.le hs.slots⟩⟩⟩

/-- Settles O36: the bytes of a word, put together in the order of `READINT` or of four `READBYTE`, are the word. -/
theorem integersAndBytesComeBack : Obligations.IntegersAndBytesComeBack := by
  intro s r bytes rest
  refine ⟨fun t ht hout hr => ?_, fun v t ht hout hr => ?_⟩
  · obtain rfl : wordBytes s.wdata = bytes := by
      rw [execWriteint_next ht] at hout
      exact List.append_cancel_left hout
    refine ⟨⟨_, exec_readint_of_four hr, rfl, append_wordBytes _, ?_⟩, ?_⟩
    · rw [State.unread, ← List.drop_drop]
      exact congrArg (List.drop 4) hr
    · obtain ⟨u1, hu1, -, hres1, hleft1⟩ := exists_exec_readbyte hr
      obtain ⟨u2, hu2, -, hres2, hleft2⟩ := exists_exec_readbyte hleft1
      obtain ⟨u3, hu3, -, hres3, hleft3⟩ := exists_exec_readbyte hleft2
      obtain ⟨u4, hu4, hok, hres4, hleft4⟩ := exists_exec_readbyte hleft3
      refine ⟨u1, u2, u3, u4, hu1, hu2, hu3, hu4, hok, hleft4, ?_⟩
      simp only [hres1, hres2, hres3, hres4, BitVec.setWidth_setWidth_of_le _ (show 8 ≤ 32 by decide), BitVec.setWidth_eq]
      exact (append_wordBytes _).symm
  · obtain rfl : [v] = bytes := by
      rw [execWritebyte_next ht] at hout
      exact List.append_cancel_left hout
    exact exists_exec_readbyte hr

/-- Settles O51: `GetBit` takes the first bit of `RBUF` left, or with none left the first of the next byte. -/
theorem getBitTakesTheFirstBitLeft : Obligations.GetBitTakesTheFirstBitLeft := by
  refine fun r => ⟨r.getBit_eq_none_iff, fun b s1 h => ⟨State.getBit_bitsLeft h, (State.ReadsTo.of_getBit h).same, fun hr => ?_⟩,
    fun bytes rest h8 hu => ?_⟩
  · obtain ⟨-, -, -, e⟩ | ⟨h8, -⟩ := State.getBit_cases h
    · rw [e]
    · omega
  · rw [State.bitsLeft_of_rpos_eight h8, hu, bitsOf_append]

/-- Settles O28: `v` is `WBUF` with bit 0 of the operand put into slot `WCNT`. -/
theorem writeBitFillsTheNextSlot : Obligations.WriteBitFillsTheNextSlot := by
  refine ⟨fun b => ?_, fun s b => ⟨setSlot s.wbuf s.wcnt.val (bitOperand b), fun i => setSlot_getLsbD _ _ i _, fun h => ?_, fun h => ?_⟩⟩
  · exact (congrArg decode (matchWord_or_setWidth 0x01 b)).trans (decodeOfEncodeIsTheCommand (.writebit b) rfl)
  · have hnext : Fin.ofNat 8 (s.wcnt.val + 1) = ⟨s.wcnt.val + 1, by omega⟩ := Fin.ext (Nat.mod_eq_of_lt (by omega))
    rw [hnext, exec, execWritebit, State.putBit_lt _ (by omega)]
    rfl
  · rw [exec, execWritebit, State.putBit_full _ h, h]
    rfl

/-- Settles O29: the three cases of `GetBit`. -/
theorem readBitReturnsTheNextSlot : Obligations.ReadBitReturnsTheNextSlot := by
  refine ⟨by decide, fun s => ⟨fun h => ?_, fun v h8 hv => exec_readbit_of_some (State.getBit_fetch h8 hv),
    fun h8 he => exec_readbit_of_none (State.getBit_end h8 he)⟩⟩
  have hnext : Fin.ofNat 9 (s.rpos.val + 1) = ⟨s.rpos.val + 1, by omega⟩ := Fin.ext (Nat.mod_eq_of_lt (by omega))
  rw [hnext]
  exact exec_readbit_of_some (State.getBit_lt h)

/-- Settles O30: the byte goes straight to `OUT`. -/
theorem writeByteBypassesTheBuffer : Obligations.WriteByteBypassesTheBuffer :=
  ⟨fun v => (congrArg decode (matchWord_or_setWidth 0x03 v)).trans (decodeOfEncodeIsTheCommand (.writebyte v) rfl), fun _ _ => rfl⟩

/-- Settles O31: the two cases of `SrcNext`. -/
theorem readByteBypassesTheBuffer : Obligations.ReadByteBypassesTheBuffer :=
  ⟨by decide, fun _ => ⟨fun _ => exec_readbyte_of_some, exec_readbyte_of_end⟩⟩

/-- Settles O32: the bytes of a word, least significant first, are the four it is made of. -/
theorem writeIntIsLittleEndian : Obligations.WriteIntIsLittleEndian := by
  refine ⟨by decide, fun s b0 b1 b2 b3 h => ?_⟩
  rw [← wordBytes_append, ← h]
  rfl

/-- Settles O33: with fewer than four bytes left none is taken. -/
theorem readIntTakesFourBytesOrNone : Obligations.ReadIntTakesFourBytesOrNone := by
  refine ⟨by decide, fun s => ⟨fun b0 b1 b2 b3 rest h => exec_readint_of_four h, fun h => exec_readint_of_short ?_⟩⟩
  rw [State.unread, List.length_drop]
  omega

end Sys2Proof.Proofs
end

section
namespace Sys2Proof.Machine

open Sys2Proof.Claims

/-! ## The weights and symbols in the arena (R30, R131) -/

theorem CodeTree.addNode_weight (t : CodeTree) (nd : Node) (n : Nat) :
    (t.addNode nd).weight n = if n = t.nodes.length then nd.weight else t.weight n := by
  rw [CodeTree.weight, CodeTree.weight, CodeTree.addNode_get]
  split <;> rfl

theorem CodeTree.updateNode_weight (t : CodeTree) (n m : Nat) (f : Node → Node) (hf : ∀ nd, (f nd).weight = nd.weight) :
    (t.updateNode n f).weight m = t.weight m := by
  rw [CodeTree.weight, CodeTree.weight, CodeTree.updateNode_get]
  cases t.nodes[m]? <;> split <;> simp [hf]

@[simp] theorem CodeTree.setLeaf_weight (t : CodeTree) (y : Byte) (n m : Nat) : (t.setLeaf y n).weight m = t.weight m := rfl

theorem CodeTree.lt_of_sym {t : CodeTree} {n : Nat} {y : Byte} (h : t.sym n = some y) : n < t.nodes.length := by
  obtain ⟨nd, hn, -⟩ := Option.bind_eq_some_iff.1 h
  exact (List.getElem?_eq_some_iff.1 hn).1

/-- The node that the heap entry `e` names has the key that `e` copies. -/
def CodeTree.Holds (t : CodeTree) (e : HeapEntry) : Prop := t.weight e.id = some e.weight ∧ t.sym e.id = some e.sym

theorem CodeTree.Holds.lt {t : CodeTree} {e : HeapEntry} (h : t.Holds e) : e.id < t.nodes.length := CodeTree.lt_of_sym h.2

section
variable {x y : HeapEntry} {rest : List HeapEntry} {t : CodeTree}

theorem Build.merge_weight (n : Nat) :
    (Build.merge x y rest t).tree.weight n = if n = t.nodes.length then some (x.weight + y.weight) else t.weight n := by
  rw [Build.merge, CodeTree.updateNode_weight, CodeTree.updateNode_weight, CodeTree.addNode_weight]
  all_goals exact fun _ => rfl

theorem Build.merge_sym_new : (Build.merge x y rest t).tree.sym t.nodes.length = some x.sym := by
  rw [Build.merge, CodeTree.updateNode_sym, CodeTree.updateNode_sym, CodeTree.addNode_sym, if_pos rfl]
  all_goals exact fun _ => rfl

/-- The entry a merge puts into the heap has the key of the node the merge makes. -/
theorem Build.merge_holds_new : (Build.merge x y rest t).tree.Holds ⟨t.nodes.length, x.weight + y.weight, x.sym⟩ :=
  ⟨by rw [Build.merge_weight, if_pos rfl], Build.merge_sym_new⟩

/-- A merge changes no key of an earlier node. -/
theorem Build.merge_holds {e : HeapEntry} (h : t.Holds e) : (Build.merge x y rest t).tree.Holds e :=
  ⟨by rw [Build.merge_weight, if_neg h.lt.ne, h.1], by rw [Build.merge_sym h.lt, h.2]⟩

end

section
variable {freq : Vector Word 256} {s : Fin 256} (hf : freq.get s ≠ 0) (b : Build)
include hf

theorem Build.addLeaf_weight (n : Nat) : (Build.addLeaf freq b s).tree.weight n =
    if n = b.tree.nodes.length then some ((freq.get s).setWidth 40) else b.tree.weight n := by
  rw [Build.addLeaf_used hf, CodeTree.setLeaf_weight, CodeTree.addNode_weight]

theorem Build.addLeaf_holds_new : (Build.addLeaf freq b s).tree.Holds ⟨b.tree.nodes.length, (freq.get s).setWidth 40, BitVec.ofFin s⟩ :=
  ⟨by rw [Build.addLeaf_weight hf, if_pos rfl], by rw [Build.addLeaf_sym hf, if_pos rfl]⟩

theorem Build.addLeaf_holds {e : HeapEntry} (h : b.tree.Holds e) : (Build.addLeaf freq b s).tree.Holds e :=
  ⟨by rw [Build.addLeaf_weight hf, if_neg h.lt.ne, h.1], by rw [Build.addLeaf_sym hf, if_neg h.lt.ne, h.2]⟩

end

/-! ## The heap is in strict key order (R131) -/

/-- The symbols in the heap are pairwise different, its entries ascend, and each has the key of its node. -/
structure Build.Keyed (b : Build) : Prop where
  holds : ∀ e ∈ b.heap, b.tree.Holds e
  symNodup : (b.heap.map (·.sym)).Nodup
  sorted : b.heap.Pairwise fun x y => x.before y = true

/-- An entry with a symbol that is new to the heap keeps it in strict key order. -/
theorem Build.Keyed.insert {b : Build} (h : b.Keyed) {t : CodeTree} {e : HeapEntry} (hold : ∀ d, b.tree.Holds d → t.Holds d) (he : t.Holds e)
    (hn : e.sym ∉ b.heap.map (·.sym)) : Build.Keyed { tree := t, heap := heapInsert e b.heap } where
  holds d hd := by
    rcases List.mem_cons.1 ((heapInsert_perm e b.heap).subset hd) with rfl | hd
    · exact he
    · exact hold d (h.holds d hd)
  symNodup := ((heapInsert_perm e b.heap).map _).nodup_iff.2 (List.nodup_cons.2 ⟨hn, h.symNodup⟩)
  sorted := heapInsert_sorted h.sorted fun _ hx hs => hn (hs ▸ List.mem_map_of_mem hx)

/-- The merged node takes its symbol from a node that has left the heap. -/
theorem Build.Keyed.merge {x y : HeapEntry} {rest : List HeapEntry} {t : CodeTree} (h : Build.Keyed { tree := t, heap := x :: y :: rest }) :
    (Build.merge x y rest t).Keyed := by
  obtain ⟨holds, nodup, sorted⟩ := h
  obtain ⟨hx, hnodup⟩ := List.nodup_cons.1 nodup
  have hrest : Build.Keyed { tree := t, heap := rest } :=
    ⟨fun e he => holds e (by simp [he]), (List.nodup_cons.1 hnodup).2, (List.pairwise_cons.1 (List.pairwise_cons.1 sorted).2).2⟩
  exact hrest.insert (t := (Build.merge x y rest t).tree) (fun _ => Build.merge_holds) Build.merge_holds_new fun hmem =>
    hx (List.mem_cons_of_mem _ hmem)

/-- A symbol in the heap of the first loop has a `LEAF` entry: that of its entry's node. -/
theorem Build.LeavesOnly.leafOf_of_mem {b : Build} (h : b.LeavesOnly) (hk : b.Keyed) {e : HeapEntry} (he : e ∈ b.heap) :
    b.tree.isLeaf e.id = true ∧ b.tree.leafOf e.sym = some e.id := by
  have hl : b.tree.isLeaf e.id = true := CodeTree.isLeaf_iff_child.2 ⟨(hk.holds e he).lt, h.childless _ _, h.childless _ _⟩
  obtain ⟨y, hy, hyl⟩ := h.inv.named.leafSym e.id hl
  obtain rfl : e.sym = y := Option.some.inj ((hk.holds e he).2.symm.trans hy)
  exact ⟨hl, hyl⟩

theorem Build.Keyed.addLeaf {freq : Vector Word 256} {b : Build} (hk : b.Keyed) (h : b.LeavesOnly) {s : Fin 256}
    (hs : b.tree.leafOf (BitVec.ofFin s) = none) : (Build.addLeaf freq b s).Keyed := by
  by_cases hf : freq.get s = 0
  · rwa [Build.addLeaf_unused hf]
  have hnew : BitVec.ofFin s ∉ b.heap.map (·.sym) := fun hmem => by
    obtain ⟨e, he, hes⟩ := List.mem_map.1 hmem
    simp [← hes, (h.leafOf_of_mem hk he).2] at hs
  have hheap : (Build.addLeaf freq b s).heap = heapInsert ⟨b.tree.nodes.length, (freq.get s).setWidth 40, BitVec.ofFin s⟩ b.heap := by
    rw [Build.addLeaf_used hf]
  have := hk.insert (fun _ => Build.addLeaf_holds hf b) (Build.addLeaf_holds_new hf b) hnew
  rwa [← hheap] at this

theorem Build.Keyed.foldl {freq : Vector Word 256} {l : List (Fin 256)} (hl : l.Nodup) {b : Build} (hk : b.Keyed) (h : b.LeavesOnly)
    (hn : ∀ s ∈ l, b.tree.leafOf (BitVec.ofFin s) = none) : (l.foldl (Build.addLeaf freq) b).Keyed := by
  induction l generalizing b with
  | nil => exact hk
  | cons s l ih =>
    obtain ⟨hs, hl⟩ := List.nodup_cons.1 hl
    have hsn := hn s List.mem_cons_self
    refine ih hl (hk.addLeaf h hsn) (h.addLeaf hsn) fun z hz => ?_
    rw [Build.addLeaf_leafOf_other (ne_of_mem_of_not_mem hz hs)]
    exact hn z (List.mem_cons_of_mem s hz)

theorem buildLeaves_keyed (freq : Vector Word 256) : (buildLeaves freq).Keyed := by
  have h : Build.Keyed ((List.finRange 256).foldl (Build.addLeaf freq) { tree := CodeTree.empty, heap := [] }) :=
    Build.Keyed.foldl (List.nodup_finRange 256) ⟨by simp, by simp, by simp⟩ Build.leavesOnly_start (by simp)
  exact ⟨h.holds, h.symNodup, h.sorted⟩

theorem mergeAll_keyed (freq : Vector Word 256) (k : Nat) : (Build.mergeAll k (buildLeaves freq)).Keyed :=
  Build.mergeAll_keeps (P := Build.Keyed) (fun _ _ _ _ h => h.merge) k _ (buildLeaves_keyed freq)

theorem mergeAll_inv (freq : Vector Word 256) (k : Nat) : (Build.mergeAll k (buildLeaves freq)).Inv :=
  Build.mergeAll_keeps (P := Build.Inv) (fun _ _ _ _ => Build.merge_keeps_inv) k _ (buildLeaves_leavesOnly freq).inv

/-! ## What the first loop counts and sums (R130, R134) -/

/-- What the weights in the heap add up to, as a number. -/
def heapTotal (heap : List HeapEntry) : Nat := (heap.map fun e => e.weight.toNat).sum

theorem heapTotal_cons (e : HeapEntry) (heap : List HeapEntry) : heapTotal (e :: heap) = e.weight.toNat + heapTotal heap := by
  simp [heapTotal]

theorem heapTotal_insert (e : HeapEntry) (heap : List HeapEntry) : heapTotal (heapInsert e heap) = e.weight.toNat + heapTotal heap := by
  rw [← heapTotal_cons]
  exact ((heapInsert_perm e heap).map _).sum_eq

theorem Build.foldl_addLeaf_length (freq : Vector Word 256) (l : List (Fin 256)) (b : Build) :
    (l.foldl (Build.addLeaf freq) b).tree.nodes.length = b.tree.nodes.length + l.countP fun s => freq.get s != 0 := by
  induction l generalizing b with
  | nil => rfl
  | cons s l ih =>
    rw [List.foldl_cons, ih, List.countP_cons]
    by_cases hf : freq.get s = 0
    · simp [Build.addLeaf_unused hf, hf]
    · rw [Build.addLeaf_length hf, if_pos (bne_iff_ne.2 hf)]
      omega

theorem Build.foldl_addLeaf_total (freq : Vector Word 256) (l : List (Fin 256)) (b : Build) :
    heapTotal (l.foldl (Build.addLeaf freq) b).heap = heapTotal b.heap + (l.map fun s => (freq.get s).toNat).sum := by
  induction l generalizing b with
  | nil => rfl
  | cons s l ih =>
    rw [List.foldl_cons, ih, List.map_cons, List.sum_cons]
    by_cases hf : freq.get s = 0
    · simp [Build.addLeaf_unused hf, hf]
    · have hw : ((freq.get s).setWidth 40).toNat = (freq.get s).toNat := by
        rw [BitVec.toNat_setWidth, Nat.mod_eq_of_lt (by have := (freq.get s).isLt; omega)]
      rw [Build.addLeaf_used hf, heapTotal_insert, hw]
      omega

theorem Build.foldl_addLeaf_leafOf (freq : Vector Word 256) (l : List (Fin 256)) (z : Fin 256) (b : Build) :
    (l.foldl (Build.addLeaf freq) b).tree.leafOf (BitVec.ofFin z) ≠ none ↔
      b.tree.leafOf (BitVec.ofFin z) ≠ none ∨ z ∈ l ∧ freq.get z ≠ 0 := by
  induction l generalizing b with
  | nil => simp
  | cons s l ih =>
    rw [List.foldl_cons, ih, List.mem_cons]
    by_cases hz : z = s
    · subst hz
      by_cases hf : freq.get z = 0
      · simp [Build.addLeaf_unused hf, hf]
      · exact iff_of_true (.inl (by simp [Build.addLeaf_leafOf hf])) (.inr ⟨.inl rfl, hf⟩)
    · rw [Build.addLeaf_leafOf_other hz]
      simp [hz]

theorem buildLeaves_length (freq : Vector Word 256) : (buildLeaves freq).tree.nodes.length = usedSymbols freq :=
  (Build.foldl_addLeaf_length freq _ _).trans (by simp [usedSymbols])

theorem buildLeaves_heap_length (freq : Vector Word 256) : (buildLeaves freq).heap.length = usedSymbols freq :=
  (buildLeaves_leavesOnly freq).heapLength.trans (buildLeaves_length freq)

theorem buildLeaves_card_symbols (freq : Vector Word 256) : (buildLeaves freq).tree.symbols.card = usedSymbols freq :=
  (buildLeaves_leavesOnly freq).length.symm.trans (buildLeaves_length freq)

theorem buildLeaves_total (freq : Vector Word 256) : heapTotal (buildLeaves freq).heap = totalFrequency freq :=
  (Build.foldl_addLeaf_total freq _ _).trans (by simp [totalFrequency, heapTotal])

/-- The symbols with a leaf are the used ones (R133 (a)). -/
theorem buildLeaves_leafOf (freq : Vector Word 256) (y : Byte) : (buildLeaves freq).tree.leafOf y ≠ none ↔ freq.get y.toFin ≠ 0 :=
  (Build.foldl_addLeaf_leafOf freq _ y.toFin _).trans (by simp)

/-- "The largest possible weight is `256 * (2^32 - 1)`" (R134). -/
theorem totalFrequency_lt (freq : Vector Word 256) : totalFrequency freq < 2 ^ 40 := by
  have h := List.sum_le_card_nsmul ((List.finRange 256).map fun y => (freq.get y).toNat) (2 ^ 32 - 1) fun n hn => by
    obtain ⟨y, -, rfl⟩ := List.mem_map.1 hn
    exact Nat.le_sub_one_of_lt (freq.get y).isLt
  rw [List.length_map, List.length_finRange, smul_eq_mul] at h
  exact Nat.lt_of_le_of_lt h (by decide)

end Sys2Proof.Machine
end

section
namespace Sys2Proof.Machine

open Sys2Proof.Claims

/-! ## What each merge joined (R130, R133, R134) -/

/-- Node `m` joined the nodes of `x` and `y`: its key is that of R130, its weight their exact sum (R134), and of the nodes that waited when
it was made they were the two least, `x` the least (R131). -/
structure CodeTree.Joined (t : CodeTree) (m : Nat) (x y : HeapEntry) : Prop where
  first : t.Holds x
  second : t.Holds y
  key : t.Holds ⟨m, x.weight + y.weight, x.sym⟩
  exact_sum : (x.weight + y.weight).toNat = x.weight.toNat + y.weight.toNat
  least : x.before y = true
  next : ∀ n, Waits t m n → n ≠ x.id → n ≠ y.id → ∃ e, e.id = n ∧ t.Holds e ∧ y.before e = true

/-- What the loops of `BUILD` keep of weights and of the order in which nodes are made. -/
structure Build.Weighed (freq : Vector Word 256) (b : Build) : Prop where
  total : heapTotal b.heap = totalFrequency freq
  leafWeight : ∀ n y, b.tree.isLeaf n = true → b.tree.sym n = some y → b.tree.weight n = some ((freq.get y.toFin).setWidth 40)
  leaf_lt : ∀ n, b.tree.isLeaf n = true → n < b.tree.symbols.card
  joined : ∀ m a c, b.tree.child m false = some a → b.tree.child m true = some c → ∃ x y, x.id = a ∧ y.id = c ∧ b.tree.Joined m x y

section
variable {freq : Vector Word 256} {x y : HeapEntry} {rest : List HeapEntry} {t : CodeTree}

/-- The entries a merge takes name two nodes with no parent. -/
theorem Build.Inv.first_two (h : Build.Inv { tree := t, heap := x :: y :: rest }) :
    (x.id < t.nodes.length ∧ t.par x.id = none) ∧ y.id < t.nodes.length ∧ t.par y.id = none :=
  ⟨(h.mem_heap x.id).1 (by simp), (h.mem_heap y.id).1 (by simp)⟩

/-- What waited for an earlier node waited for it all along: a merge gives parents to nodes that had none, and later than all others. -/
theorem Build.waits_of_merge (h : Build.Inv { tree := t, heap := x :: y :: rest }) {m n : Nat} (hw : Waits (Build.merge x y rest t).tree m n) :
    Waits t m n := by
  obtain ⟨⟨hx, hpx⟩, hy, hpy⟩ := h.first_two
  refine ⟨hw.1, fun p hp => hw.2 p ?_⟩
  rw [Build.merge_par hx hy, if_neg, hp]
  rintro (rfl | rfl)
  · simp [hpx] at hp
  · simp [hpy] at hp

/-- The nodes that wait for the next merge are those in the heap. -/
theorem Build.Inv.mem_heap_of_waits {b : Build} (h : b.Inv) {n : Nat} (hw : Waits b.tree b.tree.nodes.length n) : ∃ e ∈ b.heap, e.id = n := by
  obtain ⟨hn, hlate⟩ := hw
  refine List.mem_map.1 ((h.mem_heap n).2 ⟨hn, Option.eq_none_iff_forall_ne_some.2 fun p hp => ?_⟩)
  obtain ⟨i, hi⟩ := h.linked.hasParent n p hp
  exact Nat.not_lt.2 (hlate p hp) (CodeTree.lt_of_child hi)

/-- An earlier merge still joined what it joined. -/
theorem CodeTree.Joined.merge (h : Build.Inv { tree := t, heap := x :: y :: rest }) {m : Nat} {u v : HeapEntry} (hj : t.Joined m u v) :
    (Build.merge x y rest t).tree.Joined m u v where
  first := Build.merge_holds hj.first
  second := Build.merge_holds hj.second
  key := Build.merge_holds hj.key
  exact_sum := hj.exact_sum
  least := hj.least
  next n hw hu hv := by
    obtain ⟨e, he, hold, hbefore⟩ := hj.next n (Build.waits_of_merge h hw) hu hv
    exact ⟨e, he, Build.merge_holds hold, hbefore⟩

/-- The new node joined the first two entries of the heap: they are the least, and with all weights together below `2^40` their sum does
not wrap. -/
theorem Build.merge_joined (h : Build.Inv { tree := t, heap := x :: y :: rest }) (hk : Build.Keyed { tree := t, heap := x :: y :: rest })
    (htotal : heapTotal (x :: y :: rest) < 2 ^ 40) : (Build.merge x y rest t).tree.Joined t.nodes.length x y where
  first := Build.merge_holds (hk.holds x (by simp))
  second := Build.merge_holds (hk.holds y (by simp))
  key := Build.merge_holds_new
  exact_sum := by
    rw [heapTotal_cons, heapTotal_cons] at htotal
    rw [BitVec.toNat_add, Nat.mod_eq_of_lt (by omega)]
  least := (List.pairwise_cons.1 hk.sorted).1 y List.mem_cons_self
  next n hw hx hy := by
    obtain ⟨e, he, rfl⟩ := h.mem_heap_of_waits (Build.waits_of_merge h hw)
    have hrest : e ∈ rest := by
      rcases List.mem_cons.1 he with rfl | he
      · exact absurd rfl hx
      · exact (List.mem_cons.1 he).resolve_left fun e => hy (e ▸ rfl)
    exact ⟨e, rfl, Build.merge_holds (hk.holds e he), (List.pairwise_cons.1 (List.pairwise_cons.1 hk.sorted).2).1 e hrest⟩

theorem Build.Weighed.merge (h : Build.Inv { tree := t, heap := x :: y :: rest }) (hk : Build.Keyed { tree := t, heap := x :: y :: rest })
    (hw : Build.Weighed freq { tree := t, heap := x :: y :: rest }) : Build.Weighed freq (Build.merge x y rest t) := by
  obtain ⟨total, leafWeight, leaf_lt, joined⟩ := hw
  have hj := Build.merge_joined h hk (total ▸ totalFrequency_lt freq)
  have hlt : ∀ {n}, t.isLeaf n = true → n < t.nodes.length := CodeTree.isLeaf_lt
  refine ⟨?_, fun n z hl hz => ?_, fun n hl => ?_, fun m a c ha hc => ?_⟩
  · rw [← total, Build.merge, heapTotal_insert, heapTotal_cons, heapTotal_cons, hj.exact_sum, Nat.add_assoc]
  · rw [Build.merge_isLeaf] at hl
    rw [Build.merge_sym (hlt hl)] at hz
    rw [Build.merge_weight, if_neg (hlt hl).ne, leafWeight n z hl hz]
  · rw [Build.merge_isLeaf] at hl
    exact CodeTree.symbols_congr (Build.merge_leaf (x := x) (y := y) (rest := rest)) ▸ leaf_lt n hl
  · rw [Build.merge_child] at ha hc
    by_cases hm : m = t.nodes.length
    · subst hm
      exact ⟨x, y, by simpa using ha, by simpa using hc, hj⟩
    · rw [if_neg hm] at ha hc
      obtain ⟨u, v, hu, hv, huv⟩ := joined m a c ha hc
      exact ⟨u, v, hu, hv, huv.merge h⟩

end

/-- A node weighs the frequency of its symbol: so it is while there are only leaves. -/
def Build.WeighsFrequencies (freq : Vector Word 256) (b : Build) : Prop :=
  ∀ n y, b.tree.sym n = some y → b.tree.weight n = some ((freq.get y.toFin).setWidth 40)

theorem Build.WeighsFrequencies.addLeaf {freq : Vector Word 256} {b : Build} {s : Fin 256} (h : b.WeighsFrequencies freq) :
    (Build.addLeaf freq b s).WeighsFrequencies freq := by
  by_cases hf : freq.get s = 0
  · rwa [Build.addLeaf_unused hf]
  intro n y hy
  rw [Build.addLeaf_sym hf] at hy
  rw [Build.addLeaf_weight hf]
  split at hy
  · obtain rfl : BitVec.ofFin s = y := Option.some.inj hy
    rw [if_pos ‹_›]
  · rw [if_neg ‹_›, h n y hy]

theorem buildLeaves_weighsFrequencies (freq : Vector Word 256) : (buildLeaves freq).WeighsFrequencies freq := by
  have h : ((List.finRange 256).foldl (Build.addLeaf freq) { tree := CodeTree.empty, heap := [] }).WeighsFrequencies freq :=
    Build.foldl_addLeaf_keeps (fun _ _ h => h.addLeaf) (List.finRange 256) _ (by simp [Build.WeighsFrequencies, CodeTree.sym])
  exact fun n y hy => h n y hy

theorem buildLeaves_weighed (freq : Vector Word 256) : Build.Weighed freq (buildLeaves freq) where
  total := buildLeaves_total freq
  leafWeight n y _ := buildLeaves_weighsFrequencies freq n y
  leaf_lt n hl := (buildLeaves_leavesOnly freq).length ▸ CodeTree.isLeaf_lt hl
  joined m a c ha := by simp [(buildLeaves_leavesOnly freq).childless] at ha

theorem mergeAll_weighed (freq : Vector Word 256) (k : Nat) : Build.Weighed freq (Build.mergeAll k (buildLeaves freq)) :=
  (Build.mergeAll_keeps (P := fun b => b.Inv ∧ b.Keyed ∧ Build.Weighed freq b)
    (fun _ _ _ _ ⟨h, hk, hw⟩ => ⟨Build.merge_keeps_inv h, hk.merge, hw.merge h hk⟩) k _
    ⟨(buildLeaves_leavesOnly freq).inv, buildLeaves_keyed freq, buildLeaves_weighed freq⟩).2.2

/-! ## The passes of the merge loop (R130) -/

/-- With fewer than two entries in the heap the loop is over. -/
theorem Build.mergeAll_of_heap_le_one (k : Nat) {b : Build} (h : b.heap.length ≤ 1) : Build.mergeAll k b = b := by
  obtain ⟨t, heap⟩ := b
  cases k with
  | zero => rfl
  | succ k =>
    match heap, h with
    | [], _ => rfl
    | [_], _ => rfl

/-- With two or more, a pass joins the first two. -/
theorem Build.mergeAll_of_heap {k : Nat} {b : Build} {x y : HeapEntry} {rest : List HeapEntry} (h : b.heap = x :: y :: rest) :
    Build.mergeAll (k + 1) b = Build.mergeAll k (Build.merge x y rest b.tree) := by
  obtain ⟨t, heap⟩ := b
  obtain rfl : heap = x :: y :: rest := h
  rfl

theorem Build.heap_le_one_or_two (b : Build) : b.heap.length ≤ 1 ∨ ∃ x y rest, b.heap = x :: y :: rest := by
  match b.heap with
  | [] | [_] => simp
  | x :: y :: rest => exact .inr ⟨x, y, rest, rfl⟩

theorem Build.mergeAll_add (j k : Nat) (b : Build) : Build.mergeAll (j + k) b = Build.mergeAll k (Build.mergeAll j b) := by
  induction j generalizing b with
  | zero => rw [Nat.zero_add, Build.mergeAll]
  | succ j ih =>
    obtain h | ⟨x, y, rest, h⟩ := b.heap_le_one_or_two
    · simp only [Build.mergeAll_of_heap_le_one _ h]
    · rw [Nat.succ_add, Build.mergeAll_of_heap h, Build.mergeAll_of_heap h, ih]

/-- After `k` passes, one more joins the first two entries. -/
theorem Build.mergeAll_succ {k : Nat} {b : Build} {x y : HeapEntry} {rest : List HeapEntry} (h : (Build.mergeAll k b).heap = x :: y :: rest) :
    Build.mergeAll (k + 1) b = Build.merge x y rest (Build.mergeAll k b).tree := by
  rw [Build.mergeAll_add, Build.mergeAll_of_heap h, Build.mergeAll]

/-- Each pass leaves the heap one entry shorter. -/
theorem Build.mergeAll_heap_le_one (k : Nat) (b : Build) (hk : b.heap.length ≤ k + 1) : (Build.mergeAll k b).heap.length ≤ 1 := by
  induction k generalizing b with
  | zero => exact hk
  | succ k ih =>
    obtain h | ⟨x, y, rest, h⟩ := b.heap_le_one_or_two
    · rwa [Build.mergeAll_of_heap_le_one _ h]
    · rw [Build.mergeAll_of_heap h]
      refine ih _ ?_
      rw [Build.merge, (heapInsert_perm _ rest).length_eq]
      simpa [h] using hk

/-- The leaf index and the count of leaves are those of the first loop. -/
theorem Build.mergeAll_leaf (k : Nat) (b : Build) :
    (Build.mergeAll k b).tree.leaf = b.tree.leaf ∧ (Build.mergeAll k b).tree.nleaf = b.tree.nleaf :=
  Build.mergeAll_keeps (P := fun c => c.tree.leaf = b.tree.leaf ∧ c.tree.nleaf = b.tree.nleaf) (fun _ _ _ _ h => h) k b ⟨rfl, rfl⟩

/-! ## The tree of BUILD -/

/-- Where `BUILD` stands when its merge loop is over: after `K-1` passes. -/
def buildEnd (freq : Vector Word 256) : Build := Build.mergeAll (usedSymbols freq - 1) (buildLeaves freq)

theorem buildEnd_inv (freq : Vector Word 256) : (buildEnd freq).Inv := mergeAll_inv freq _

theorem buildEnd_heap_le_one (freq : Vector Word 256) : (buildEnd freq).heap.length ≤ 1 :=
  Build.mergeAll_heap_le_one _ _ (by rw [buildLeaves_heap_length]; omega)

/-- `BUILD` answers the tree after `K-1` passes, with the node left in the heap as its root. -/
theorem buildTree_eq_end (freq : Vector Word 256) :
    buildTree freq = { (buildEnd freq).tree with root := (buildEnd freq).heap.head?.map (·.id) } := by
  have hend : Build.mergeAll (buildLeaves freq).heap.length (buildLeaves freq) = buildEnd freq := by
    rw [buildLeaves_heap_length, show usedSymbols freq = (usedSymbols freq - 1) + (usedSymbols freq - (usedSymbols freq - 1)) by omega,
      Build.mergeAll_add]
    exact Build.mergeAll_of_heap_le_one _ (buildEnd_heap_le_one freq)
  have hroot := (buildEnd_inv freq).rootless
  rw [buildTree, hend]
  match (buildEnd freq).heap, buildEnd_heap_le_one freq with
  | [], _ => simp [← hroot]
  | [e], _ => simp

/-- The root is the node left in the heap. -/
theorem buildTree_root {freq : Vector Word 256} {r : Nat} (h : (buildTree freq).root = some r) : ∃ e, (buildEnd freq).heap = [e] ∧ e.id = r := by
  rw [buildTree_eq_end] at h
  match he : (buildEnd freq).heap, buildEnd_heap_le_one freq with
  | [], _ => simp [he] at h
  | [e], _ => exact ⟨e, rfl, by simpa [he] using h⟩

/-- The finished tree is weighed as its nodes were. -/
theorem buildTree_weighed (freq : Vector Word 256) : Build.Weighed freq { tree := buildTree freq, heap := (buildEnd freq).heap } := by
  obtain ⟨total, leafWeight, leaf_lt, joined⟩ := mergeAll_weighed freq (usedSymbols freq - 1)
  rw [buildTree_eq_end]
  refine ⟨total, leafWeight, leaf_lt, fun m a c ha hc => ?_⟩
  obtain ⟨x, y, hx, hy, hj⟩ := joined m a c ha hc
  exact ⟨x, y, hx, hy, hj.first, hj.second, hj.key, hj.exact_sum, hj.least, hj.next⟩

/-- A parent is made after its children. -/
theorem buildTree_order {freq : Vector Word 256} {n m : Nat} (h : (buildTree freq).par n = some m) : n < m := by
  rw [buildTree_eq_end] at h
  exact (buildEnd_inv freq).order n m h

/-- The nodes with children are made after the `K` leaves. -/
theorem buildTree_leavesFirst {freq : Vector Word 256} {n m : Nat} {i : Bool} (h : (buildTree freq).child n i = some m) :
    (buildTree freq).symbols.card ≤ n := by
  rw [buildTree_eq_end] at h ⊢
  exact (buildEnd_inv freq).leavesFirst n m i h

theorem buildTree_leafOf (freq : Vector Word 256) (y : Byte) : (buildTree freq).leafOf y ≠ none ↔ freq.get y.toFin ≠ 0 := by
  rw [buildTree_eq_end, ← buildLeaves_leafOf, CodeTree.leafOf, CodeTree.leafOf, buildEnd, (Build.mergeAll_leaf _ _).1]

theorem buildTree_nleaf (freq : Vector Word 256) : (buildTree freq).nleaf.toNat = usedSymbols freq := by
  rw [buildTree_eq_end, buildEnd, (Build.mergeAll_leaf _ _).2, buildLeaves_nleaf, buildLeaves_card_symbols]

theorem buildTree_length (freq : Vector Word 256) : (buildTree freq).nodes.length = 2 * usedSymbols freq - 1 := by
  rcases Nat.eq_zero_or_pos (usedSymbols freq) with h0 | hpos
  · rw [h0, buildTree_of_no_leaf (List.length_eq_zero_iff.1 ((buildLeaves_heap_length freq).trans h0))]
    rfl
  · rw [← buildTree_nleaf] at hpos ⊢
    exact (buildTree_wf freq).nodeCount hpos

/-- The root is node `2K-2`, and a path down from it passes nodes numbered downwards that are no leaf, so from `K` on (R134). -/
theorem buildTree_code_length {freq : Vector Word 256} {y : Byte} {bits : List Bool} (h : (buildTree freq).IsCode y bits) :
    bits.length ≤ usedSymbols freq - 1 := by
  simp only [CodeTree.IsCode, CodeTree.lookup, Option.map_eq_some_iff, Option.bind_eq_some_iff] at h
  obtain ⟨n, ⟨r, hr, hn⟩, -⟩ := h
  have hlt := ((buildTree_wf freq).rooted_at hr).1
  rw [buildTree_length] at hlt
  have hcard : (buildEnd freq).tree.symbols.card = usedSymbols freq :=
    (congrArg Finset.card (CodeTree.symbols_congr (Build.mergeAll_leaf _ _).1)).trans (buildLeaves_card_symbols freq)
  have hn : (buildEnd freq).tree.follow r bits = some n := by
    rw [← hn, buildTree_eq_end]
    exact CodeTree.follow_congr (by rfl) r bits
  rcases (buildEnd_inv freq).follow_length_le bits r n hn with rfl | hlen
  · simp
  · omega

/-! ## Keys in the tree of BUILD (R131, R133 (c)) -/

/-- A node's children are those of a merge. -/
theorem buildTree_joined {freq : Vector Word 256} {m a c : Nat} (ha : (buildTree freq).c0 m = some a) (hc : (buildTree freq).c1 m = some c) :
    ∃ x y, x.id = a ∧ y.id = c ∧ (buildTree freq).Joined m x y := (buildTree_weighed freq).joined m a c ha hc

/-- The symbol of a node is that of the leaf below it along child 0 links. -/
theorem buildTree_keySymbol {freq : Vector Word 256} (n : Nat) {y : Byte} (h : (buildTree freq).sym n = some y) : KeySymbol (buildTree freq) n y := by
  induction n using Nat.strong_induction_on with
  | _ n ih =>
    have hw := buildTree_wf freq
    have hn := CodeTree.lt_of_sym h
    obtain ⟨nd, -, ⟨hl, -⟩ | ⟨a, c, -, -, ha, hc⟩⟩ := hw.node_cases hn
    · exact ⟨0, n, by simp [hn], hl, h⟩
    · obtain ⟨x, z, rfl, -, hj⟩ := buildTree_joined ha hc
      have hx : (buildTree freq).sym x.id = some y := by rw [hj.first.2, ← h, ← hj.key.2]
      obtain ⟨j, l, hl⟩ := ih x.id (buildTree_order (hw.parents n false x.id ha).2) hx
      exact ⟨j + 1, l, by simpa [List.replicate_succ, ha] using hl⟩

theorem buildTree_keyBelow {freq : Vector Word 256} {x y : HeapEntry} (hx : (buildTree freq).Holds x) (hy : (buildTree freq).Holds y)
    (h : x.before y = true) : KeyBelow (buildTree freq) x.id y.id :=
  ⟨x.weight, y.weight, x.sym, y.sym, hx.1, hy.1, buildTree_keySymbol _ hx.2, buildTree_keySymbol _ hy.2, (x.before_iff y).1 h⟩

/-- A child waits for its parent's merge. -/
theorem buildTree_waits {freq : Vector Word 256} {m n : Nat} {i : Bool} (h : (buildTree freq).child m i = some n) : Waits (buildTree freq) m n := by
  have hp := ((buildTree_wf freq).parents m i n h).2
  exact ⟨buildTree_order hp, fun p hp' => (Option.some.inj (hp.symm.trans hp')).le⟩

end Sys2Proof.Machine
end

section
namespace Sys2Proof.Machine

open Sys2Proof.Claims

/-! ## The heap of the first loop (R130) -/

/-- The heap of the first loop holds one entry for every used symbol. -/
theorem buildLeaves_mem_syms (freq : Vector Word 256) (y : Byte) : y ∈ (buildLeaves freq).heap.map (·.sym) ↔ freq.get y.toFin ≠ 0 := by
  have h := buildLeaves_leavesOnly freq
  have hk := buildLeaves_keyed freq
  rw [← buildLeaves_leafOf]
  constructor
  · intro hy
    obtain ⟨e, he, rfl⟩ := List.mem_map.1 hy
    simp [(h.leafOf_of_mem hk he).2]
  · intro hy
    obtain ⟨n, hn⟩ := Option.ne_none_iff_exists'.1 hy
    obtain ⟨hl, hsym⟩ := h.inv.named.leafIndex y n hn
    obtain ⟨e, he, rfl⟩ := h.inv.mem_heap_of_waits (n := n) ⟨CodeTree.isLeaf_lt hl, fun p hp => by
      obtain ⟨i, hi⟩ := h.inv.linked.hasParent n p hp
      simp [h.childless] at hi⟩
    exact List.mem_map.2 ⟨e, he, Option.some.inj ((hk.holds e he).2.symm.trans hsym)⟩

/-- The heap of the first loop, said of a list of the used symbols. -/
theorem buildLeaves_syms_perm {freq : Vector Word 256} {syms : List Byte} (hn : syms.Nodup) (hs : ∀ y, y ∈ syms ↔ freq.get y.toFin ≠ 0) :
    ((buildLeaves freq).heap.map (·.sym)).Perm syms :=
  (List.perm_ext_iff_of_nodup (buildLeaves_keyed freq).symNodup hn).2 fun y => (buildLeaves_mem_syms freq y).trans (hs y).symm

/-- An entry of the first loop's heap weighs the frequency of its symbol. -/
theorem buildLeaves_entry_weight {freq : Vector Word 256} {e : HeapEntry} (he : e ∈ (buildLeaves freq).heap) :
    e.weight = (freq.get e.sym.toFin).setWidth 40 := by
  obtain ⟨hw, hs⟩ := (buildLeaves_keyed freq).holds e he
  exact Option.some.inj (hw.symm.trans (buildLeaves_weighsFrequencies freq e.id e.sym hs))

/-! ## Small tables (R132) -/

/-- With one used symbol the first loop makes its leaf, and there is nothing to merge. -/
theorem buildTree_of_one {freq : Vector Word 256} {y : Byte} (hy : freq.get y.toFin ≠ 0) (hs : ∀ z, z ≠ y.toFin → freq.get z = 0) :
    buildTree freq =
      { nodes := [{ weight := some ((freq.get y.toFin).setWidth 40), sym := some y, c0 := none, c1 := none, par := none }]
        root := some 0
        leaf := (CodeTree.empty.setLeaf y 0).leaf
        nleaf := 1 } := by
  have hone : (List.finRange 256).filter (fun s => decide (s ∈ [y.toFin])) = [y.toFin] :=
    List.perm_singleton.1 ((List.perm_ext_iff_of_nodup ((List.nodup_finRange 256).filter _) (by simp)).2 (by simp))
  have hb := buildLeaves_of_used hone fun z hz => hs z (by simpa using hz)
  rw [List.foldl_cons, List.foldl_nil, Build.addLeaf_used hy] at hb
  rw [buildTree, hb]
  rfl

/-- With two used symbols the entry of smaller key comes first. -/
theorem buildLeaves_heap_of_two {freq : Vector Word 256} {x y : Byte} (hx : freq.get x.toFin ≠ 0) (hy : freq.get y.toFin ≠ 0)
    (hs : ∀ z, z ≠ x.toFin → z ≠ y.toFin → freq.get z = 0)
    (hkey : (freq.get x.toFin).toNat < (freq.get y.toFin).toNat ∨ (freq.get x.toFin = freq.get y.toFin ∧ x.toNat < y.toNat)) :
    ∃ e f, (buildLeaves freq).heap = [e, f] ∧ e.sym = x ∧ f.sym = y := by
  have hxy : x ≠ y := by rintro rfl; omega
  have hperm : ((buildLeaves freq).heap.map (·.sym)).Perm [x, y] := buildLeaves_syms_perm (by simp [hxy]) fun z => by
    constructor
    · intro hz
      obtain rfl | rfl : z = x ∨ z = y := by simpa using hz
      · exact hx
      · exact hy
    · intro hz
      by_contra hne
      obtain ⟨h1, h2⟩ : z ≠ x ∧ z ≠ y := by simpa using hne
      exact hz (hs z.toFin (fun h => h1 (BitVec.toFin_inj.1 h)) fun h => h2 (BitVec.toFin_inj.1 h))
  obtain ⟨e, f, hef⟩ := List.length_eq_two.1 (by simpa using hperm.length_eq)
  refine ⟨e, f, hef, ?_⟩
  rw [hef, List.map_cons, List.map_singleton] at hperm
  obtain h | rfl : e.sym = x ∨ e.sym = y := by simpa using hperm.subset List.mem_cons_self
  · subst h
    exact ⟨rfl, by simpa using hperm.cons_inv⟩
  · obtain rfl : f.sym = x := by simpa using (hperm.trans (.swap _ _ _)).cons_inv
    have hbefore : e.before f = true := by simpa [hef] using (buildLeaves_keyed freq).sorted
    have he : e.weight = (freq.get e.sym.toFin).setWidth 40 := buildLeaves_entry_weight (by simp [hef])
    have hf : f.weight = (freq.get f.sym.toFin).setWidth 40 := buildLeaves_entry_weight (by simp [hef])
    simp only [HeapEntry.before_iff, he, hf, BitVec.toNat_setWidth, ← BitVec.toNat_inj] at hbefore hkey
    have := (freq.get e.sym.toFin).isLt
    have := (freq.get f.sym.toFin).isLt
    omega

/-- The codeword of a leaf right below the root. -/
theorem CodeTree.isCode_singleton {t : CodeTree} {r n : Nat} {i : Bool} {y : Byte} (hr : t.root = some r) (hc : t.child r i = some n)
    (hl : t.isLeaf n = true) (hy : t.sym n = some y) : t.IsCode y [i] := by
  simp [CodeTree.IsCode, CodeTree.lookup, hr, hc, CodeTree.isLeaf_lt hl, hl, hy]

/-- With two entries in the heap of the first loop there is one merge, and each of the two leaves is a child of the root. -/
theorem buildTree_isCode_of_two {freq : Vector Word 256} {e f : HeapEntry} (h : (buildLeaves freq).heap = [e, f]) :
    (buildTree freq).IsCode e.sym [false] ∧ (buildTree freq).IsCode f.sym [true] := by
  have hend : buildEnd freq = Build.merge e f [] (buildLeaves freq).tree := by
    rw [buildEnd, ← buildLeaves_heap_length, h]
    exact Build.mergeAll_of_heap h
  have code {i : Bool} {d : HeapEntry} (hd : d ∈ (buildLeaves freq).heap) (hi : (if i then f.id else e.id) = d.id) :
      (buildTree freq).IsCode d.sym [i] := by
    have hleaf := ((buildLeaves_leavesOnly freq).leafOf_of_mem (buildLeaves_keyed freq) hd).1
    have hsym := ((buildLeaves_keyed freq).holds d hd).2
    rw [buildTree_eq_end, hend]
    refine CodeTree.isCode_singleton (r := (buildLeaves freq).tree.nodes.length) (n := d.id) rfl ?_ ?_ ?_
    · exact (Build.merge_child (rest := []) _ i).trans (by rw [if_pos rfl, hi])
    · exact (Build.merge_isLeaf (rest := []) d.id).trans hleaf
    · exact (Build.merge_sym (rest := []) (CodeTree.isLeaf_lt hleaf)).trans hsym
  exact ⟨code (by simp [h]) rfl, code (by simp [h]) rfl⟩

/-! ## What the command answers -/

theorem exec_build_tree {s : State} {t : CodeTree} (h : exec .build s = .next { s with tree := t, last := .ok }) : t = buildTree s.freq :=
  congrArg State.tree (execBuild_next h)

theorem exec_build_of_tree {s : State} {t : CodeTree} (h : buildTree s.freq = t) : exec .build s = .next { s with tree := t, last := .ok } :=
  h ▸ rfl

end Sys2Proof.Machine
end

section
namespace Sys2Proof.Proofs

open Sys2Proof.Machine Sys2Proof.Claims

/-- Settles O37: both loops keep a forest over the leaves of the used symbols, and the node the merges leave is its root. -/
theorem buildMakesAWellFormedTree : Obligations.BuildMakesAWellFormedTree :=
  ⟨by decide, fun s => ⟨buildTree s.freq, rfl, buildTree_wf s.freq, buildTree_leafOf s.freq, buildTree_nleaf s.freq, buildTree_length s.freq⟩⟩

/-- Settles O38: the weights in the heap always add up to the sum of the table, so no sum of two wraps. -/
theorem buildWeightsAreExactSums : Obligations.BuildWeightsAreExactSums := by
  intro s t h
  obtain rfl := exec_build_tree h
  have hw := buildTree_weighed s.freq
  refine ⟨hw.leafWeight, fun n a b ha hb => ?_, fun r hr => ?_⟩
  · obtain ⟨x, y, rfl, rfl, hj⟩ := buildTree_joined ha hb
    exact ⟨_, _, _, hj.key.1, hj.first.1, hj.second.1, hj.exact_sum⟩
  · obtain ⟨e, he, rfl⟩ := buildTree_root hr
    refine ⟨e.weight, ?_, by simpa [he, heapTotal] using hw.total⟩
    rw [buildTree_eq_end]
    exact ((mergeAll_keyed s.freq _).holds e (by rw [← buildEnd, he]; exact List.mem_cons_self)).1

/-- Settles O39: the internal nodes on a path are numbered downwards from the root, and there are `K-1` of them. -/
theorem builtDepthIsBounded : Obligations.BuiltDepthIsBounded := by
  intro s t h y bits hcode
  obtain rfl := execBuild_next h
  exact buildTree_code_length hcode

/-- Settles O53: the nodes waiting for a merge are those in the heap, which stands in strict key order. -/
theorem buildMergesTheTwoLeast : Obligations.BuildMergesTheTwoLeast := by
  intro s t h
  obtain rfl := execBuild_next h
  refine ⟨fun l m hl hm hm' => ?_, fun m a b ha hb => ?_⟩
  · obtain ⟨nd, -, ⟨hleaf, -⟩ | ⟨a, c, -, -, ha, -⟩⟩ := (buildTree_wf s.freq).node_cases hm
    · exact absurd hleaf (by simp [hm'])
    · exact Nat.lt_of_lt_of_le ((buildTree_weighed s.freq).leaf_lt l hl) (buildTree_leavesFirst ha)
  · obtain ⟨x, y, rfl, rfl, hj⟩ := buildTree_joined ha hb
    refine ⟨buildTree_waits (i := false) ha, buildTree_waits (i := true) hb, buildTree_keyBelow hj.first hj.second hj.least, fun n hn hx hy => ?_⟩
    obtain ⟨e, rfl, he, hbefore⟩ := hj.next n hn hx hy
    exact buildTree_keyBelow hj.second he hbefore

/-- Settles O40: a merge node takes the symbol of a node that has left the heap. -/
theorem theHeapOrderIsStrict : Obligations.TheHeapOrderIsStrict := by
  intro freq k b
  obtain ⟨holds, nodup, sorted⟩ : b.Keyed := mergeAll_keyed freq k
  refine ⟨nodup, sorted.imp fun h => (HeapEntry.before_iff _ _).1 h, fun e he => ⟨(holds e he).1, (holds e he).2, ?_⟩⟩
  exact (((mergeAll_inv freq k).mem_heap e.id).1 (List.mem_map_of_mem he)).2

/-- Settles O54: `Build.merge` on the first two entries, which name two nodes without a parent. -/
theorem eachMergePairsTheFirstTwoOfTheHeap : Obligations.EachMergePairsTheFirstTwoOfTheHeap := by
  refine ⟨fun freq => ⟨fun e he => ?_, fun y => ?_, buildLeaves_heap_length freq, buildLeaves_length freq⟩, ?_, fun s => ?_⟩
  · obtain ⟨hl, hleaf⟩ := (buildLeaves_leavesOnly freq).leafOf_of_mem (buildLeaves_keyed freq) he
    exact ⟨buildLeaves_entry_weight he, hleaf, hl⟩
  · rw [← buildLeaves_mem_syms, List.mem_map]
  · intro freq k x y rest b c m hheap
    have hinv : Build.Inv { tree := b.tree, heap := x :: y :: rest } := hheap ▸ mergeAll_inv freq k
    obtain ⟨⟨hx, -⟩, hy, -⟩ := hinv.first_two
    have hc : c = Build.merge x y rest b.tree := Build.mergeAll_succ hheap
    rw [hc]
    have hchild (i : Bool) : (Build.merge x y rest b.tree).tree.child m i = some (if i then y.id else x.id) := by
      rw [Build.merge_child, if_pos rfl]
    have hpar := fun n => Build.merge_par (rest := rest) hx hy n
    refine ⟨Build.merge_length, hchild false, hchild true, Build.merge_holds_new.1, Build.merge_sym_new, ?_, ?_, ?_, fun n hn => ?_, rfl, rfl,
      heapInsert_perm _ _⟩
    · rw [hpar, if_neg (by omega), CodeTree.par_length]
    · rw [hpar, if_pos (.inl rfl)]
    · rw [hpar, if_pos (.inr rfl)]
    · have hold (i : Bool) : (Build.merge x y rest b.tree).tree.child n i = b.tree.child n i := by rw [Build.merge_child, if_neg hn.ne]
      exact ⟨hold false, hold true, by rw [Build.merge_weight, if_neg hn.ne], Build.merge_sym hn,
        fun hnx hny => by rw [hpar, if_neg (not_or.2 ⟨hnx, hny⟩)]⟩
  · exact ⟨buildEnd_heap_le_one s.freq, exec_build_of_tree (buildTree_eq_end s.freq)⟩

/-- Settles O41: a table with few used symbols leaves few entries in the heap. -/
theorem buildOfSmallAndFullTables : Obligations.BuildOfSmallAndFullTables := by
  refine ⟨fun s hs => exec_build_of_tree (buildTree_of_no_leaf ?_), fun s y hy hs => ⟨_, rfl, ?_⟩, fun s x y hx hy hs hkey => ⟨_, rfl, ?_⟩,
    fun s hs => ⟨_, rfl, ?_⟩⟩
  · simpa using buildLeaves_syms_perm List.nodup_nil fun y => by simpa using hs y.toFin
  · rw [buildTree_of_one hy hs]
    exact ⟨rfl, rfl, rfl, rfl⟩
  · obtain ⟨e, f, hef, rfl, rfl⟩ := buildLeaves_heap_of_two hx hy hs hkey
    exact ⟨by rw [buildTree_length, ← buildLeaves_heap_length, hef]; rfl, buildTree_isCode_of_two hef⟩
  · have hfull : usedSymbols s.freq = 256 := by
      rw [usedSymbols, List.countP_eq_length.2 fun y _ => bne_iff_ne.2 (hs y), List.length_finRange]
    rw [buildTree_length, hfull]

end Sys2Proof.Proofs
end

section
namespace Sys2Proof.Machine

open Sys2Proof.Claims

/-! ## The leaves of a shape

The canonical header is the list of the leaves in preorder (R140): `Shape.leaves` gives each leaf its path, whose length is its depth. -/

/-- The leaves in preorder, each with its path. -/
def Shape.leaves : Shape → List (List Bool × Byte)
  | .leaf y => [([], y)]
  | .node l r => l.leaves.map (Prod.map (false :: ·) id) ++ r.leaves.map (Prod.map (true :: ·) id)

theorem Shape.header_eq (sh : Shape) (d : Nat) : sh.header d = sh.leaves.map fun l => (l.2, d + l.1.length) := by
  induction sh generalizing d with
  | leaf y => rfl
  | node l r hl hr => simp [Shape.header, Shape.leaves, hl, hr, Function.comp_def, Nat.add_right_comm, Nat.add_assoc]

theorem Shape.leaves_ne_nil (sh : Shape) : sh.leaves ≠ [] := by
  induction sh with
  | leaf y => simp [Shape.leaves]
  | node l r hl hr => simp [Shape.leaves, hl]

theorem Shape.mem_leaves {sh : Shape} {p : List Bool} {y : Byte} : (p, y) ∈ sh.leaves ↔ sh.lookup p = some (some y) := by
  induction sh generalizing p with
  | leaf z => cases p <;> simp [Shape.leaves, Shape.lookup, eq_comm]
  | node l r hl hr =>
    cases p with
    | nil => simp [Shape.leaves, Shape.lookup]
    | cons b p => cases b <;> simp [Shape.leaves, Shape.lookup, ← hl, ← hr]

theorem Shape.leaves_pairwise (sh : Shape) : sh.leaves.Pairwise fun a b => PathBefore a.1 b.1 := by
  induction sh with
  | leaf y => simp [Shape.leaves]
  | node l r hl hr =>
    rw [Shape.leaves, List.pairwise_append, List.pairwise_map, List.pairwise_map]
    refine ⟨hl.imp fun h => .inr ⟨rfl, h⟩, hr.imp fun h => .inr ⟨rfl, h⟩, fun a ha b hb => ?_⟩
    obtain ⟨a, -, rfl⟩ := List.mem_map.1 ha
    obtain ⟨b, -, rfl⟩ := List.mem_map.1 hb
    exact .inl ⟨rfl, rfl⟩

theorem not_pathBefore_self (p : List Bool) : ¬ PathBefore p p := by
  induction p with
  | nil => exact id
  | cons b p ih => simpa [PathBefore] using ih

/-! ## The finished subtrees of an arena -/

/-- The subtree at node `n` is finished and has the shape `sh`. -/
def CodeTree.HoldsAt (t : CodeTree) : Nat → Shape → Prop
  | n, .leaf y => t.isLeaf n = true ∧ t.sym n = some y
  | n, .node l r => ∃ a b, t.child n false = some a ∧ t.child n true = some b ∧ t.HoldsAt a l ∧ t.HoldsAt b r

theorem CodeTree.HoldsAt.lookup {t : CodeTree} {sh : Shape} (p : List Bool) : ∀ {n : Nat}, t.HoldsAt n sh →
    ((t.follow n p).map fun m => if t.isLeaf m then t.sym m else none) = sh.lookup p := by
  induction sh generalizing p with
  | leaf y =>
    rintro n ⟨hl, hs⟩
    obtain ⟨hn, h0, h1⟩ := CodeTree.isLeaf_iff_child.1 hl
    match p with
    | [] => simp [hn, hl, hs, Shape.lookup]
    | false :: p => simp [h0, Shape.lookup]
    | true :: p => simp [h1, Shape.lookup]
  | node l r hl hr =>
    rintro n ⟨a, b, ha, hb, hal, hbr⟩
    match p with
    | [] => simp [CodeTree.lt_of_child ha, CodeTree.isLeaf_iff_child, ha, Shape.lookup]
    | false :: p => simpa [ha, Shape.lookup] using hl p hal
    | true :: p => simpa [hb, Shape.lookup] using hr p hbr

/-- A finished subtree at the root is the whole tree. -/
theorem CodeTree.HoldsAt.hasShape {t : CodeTree} {sh : Shape} {r : Nat} (h : t.HoldsAt r sh) (hr : t.root = some r) : t.HasShape sh := fun p => by
  rw [CodeTree.lookup, hr, Option.bind_some, h.lookup p]

/-- The walk of `STORE` that ends in bytes has met a finished subtree, and the bytes are its leaves (R140). -/
theorem CodeTree.exists_holdsAt_of_storeFrom {t : CodeTree} {k : Nat} : ∀ {n d : Nat} {bytes : List Byte}, t.storeFrom k n d = some bytes →
    ∃ sh, t.HoldsAt n sh ∧ bytes = sh.leaves.flatMap fun l => [l.2, BitVec.ofNat 8 (d + l.1.length)] := by
  induction k with
  | zero => intro n d bytes h; simp [CodeTree.storeFrom] at h
  | succ k ih =>
    intro n d bytes h
    rw [CodeTree.storeFrom] at h
    split at h
    · simp at h
    next nd hn =>
    split at h
    next h0 h1 =>
      obtain ⟨y, hy, rfl⟩ := Option.map_eq_some_iff.1 h
      exact ⟨.leaf y, ⟨(t.isLeaf_iff n).2 ⟨nd, hn, h0, h1⟩, by simp [CodeTree.sym, hn, hy]⟩, by simp [Shape.leaves]⟩
    next a b h0 h1 =>
      split at h
      next xs ys hx hy =>
        obtain ⟨l, hl, rfl⟩ := ih hx
        obtain ⟨r, hr, rfl⟩ := ih hy
        refine ⟨.node l r, ⟨a, b, by simp [CodeTree.child_eq_bind, hn, h0], by simp [CodeTree.child_eq_bind, hn, h1], hl, hr⟩, ?_⟩
        rw [← Option.some.inj h]
        simp [Shape.leaves, List.flatMap_map, Nat.add_right_comm, Nat.add_assoc]
      · simp at h
    · simp at h

/-! ## The header of a well-formed tree (R140) -/

/-- The header pairs of a full binary tree, as bytes. -/
def Shape.pairs (sh : Shape) : List HdrPair := sh.leaves.map fun l => { sym := l.2, dep := BitVec.ofNat 8 l.1.length }

theorem Shape.pairBytes_pairs (sh : Shape) : pairBytes sh.pairs = sh.leaves.flatMap fun l => [l.2, BitVec.ofNat 8 l.1.length] := by
  simp [pairBytes, Shape.pairs, List.flatMap_map]

theorem CodeTree.HasShape.mem_leaves {t : CodeTree} {sh : Shape} (h : t.HasShape sh) {p : List Bool} {y : Byte} :
    (p, y) ∈ sh.leaves ↔ t.IsCode y p := by
  rw [Shape.mem_leaves, ← h p, CodeTree.IsCode]

/-- A well-formed tree with a root has a shape, whose pairs `STORE` emits (R140). -/
theorem CodeTree.WF.exists_hasShape {t : CodeTree} (hw : t.WF) (hr : t.root ≠ none) :
    ∃ sh, t.HasShape sh ∧ t.storeBytes = some (pairBytes sh.pairs) := by
  obtain ⟨r, hr⟩ := Option.ne_none_iff_exists'.1 hr
  obtain ⟨bytes, hb⟩ := hw.storeBytes_completes
  have hs := hb
  simp only [CodeTree.storeBytes, hr] at hs
  obtain ⟨sh, hsh, rfl⟩ := CodeTree.exists_holdsAt_of_storeFrom hs
  exact ⟨sh, hsh.hasShape hr, by rw [hb, Shape.pairBytes_pairs]; simp⟩

theorem CodeTree.WF.named {t : CodeTree} (hw : t.WF) : t.Named fun n => t.isLeaf n = true := ⟨hw.leafSym, hw.leafIndex⟩

theorem CodeTree.WF.nleaf_eq_card {t : CodeTree} (hw : t.WF) : t.nleaf.toNat = t.symbols.card := hw.leaves.trans hw.named.leafCount_eq

/-- The header as `REBUILD` reads it: symbols and depths (R141). -/
abbrev headerOf (ps : List HdrPair) : List (Byte × Nat) := ps.map fun p => (p.sym, p.dep.toNat)

section Pairs
variable {t : CodeTree} {sh : Shape} (hw : t.WF) (h : t.HasShape sh)
include hw h

/-- A codeword fits a depth byte (R33 (f)), so no depth of the header is truncated. -/
theorem CodeTree.WF.pairs_header : headerOf sh.pairs = sh.header 0 := by
  rw [Shape.header_eq, Shape.pairs, headerOf, List.map_map]
  refine List.map_congr_left fun l hl => ?_
  have hd := hw.depth l.1 l.2 (h.mem_leaves.1 hl)
  simp only [Function.comp_apply, BitVec.toNat_ofNat, Nat.zero_add]
  rw [Nat.mod_eq_of_lt (by omega)]

/-- No symbol has two codewords (R33 (d)). -/
theorem CodeTree.WF.nodup_leaves : (sh.leaves.map Prod.snd).Nodup := by
  rw [List.Nodup, List.pairwise_map]
  refine sh.leaves_pairwise.imp_of_mem fun {a b} ha hb hab e => ?_
  obtain ⟨n, hn, hp⟩ := (hw.isCode_iff a.2 a.1).1 (h.mem_leaves.1 ha)
  obtain ⟨m, hm, hq⟩ := (hw.isCode_iff b.2 b.1).1 (h.mem_leaves.1 hb)
  obtain rfl : n = m := by simpa [← e, hn] using hm
  obtain hpq : a.1 = b.1 := by simpa [hp] using hq
  exact not_pathBefore_self _ (hpq ▸ hab)

theorem CodeTree.WF.nodup_pairs : (sh.pairs.map (·.sym)).Nodup := by
  simpa [Shape.pairs, Function.comp_def] using hw.nodup_leaves h

/-- The leaves are as many as the symbols with a `LEAF` entry, which `NLEAF` counts (R33 (e)). -/
theorem CodeTree.WF.length_leaves : sh.leaves.length = t.nleaf.toNat := by
  have hs : (sh.leaves.map Prod.snd).toFinset = t.symbols := by
    ext y
    rw [List.mem_toFinset, CodeTree.mem_symbols, Option.ne_none_iff_exists']
    constructor
    · intro hy
      obtain ⟨⟨p, _⟩, hl, rfl⟩ := List.mem_map.1 hy
      obtain ⟨n, hn, -⟩ := (hw.isCode_iff _ p).1 (h.mem_leaves.1 hl)
      exact ⟨n, hn⟩
    · rintro ⟨n, hn⟩
      obtain ⟨p, hp⟩ := hw.codeword_completes hn
      exact List.mem_map.2 ⟨(p, y), h.mem_leaves.2 ((hw.isCode_iff y p).2 ⟨n, hn, hp⟩), rfl⟩
  rw [hw.nleaf_eq_card, ← hs, List.toFinset_card_of_nodup (hw.nodup_leaves h), List.length_map]

end Pairs

/-- There are 256 symbols (R33 (e)). -/
theorem CodeTree.WF.nleaf_le {t : CodeTree} (hw : t.WF) : t.nleaf.toNat ≤ 256 := hw.nleaf_eq_card.trans_le t.card_symbols_le

/-- Without a root there is no leaf. -/
theorem CodeTree.WF.nleaf_of_rootless {t : CodeTree} (hw : t.WF) (hr : t.root = none) : t.nleaf.toNat = 0 := by
  obtain ⟨-, h0, -⟩ | ⟨r, hr', -⟩ := hw.rooted
  · rw [hw.leaves, CodeTree.leafCount, h0]
    rfl
  · simp [hr] at hr'

theorem exec_store_of_bytes {s : State} {bytes : List Byte} (h : s.tree.storeBytes = some bytes) :
    exec .store s = .next { s with out := s.out ++ bytes, last := .ok } := by
  simp [exec, execStore, h, State.finish, State.sinkPutAll]

theorem exec_store_of_rootless {s : State} (h : s.tree.root = none) : exec .store s = .next { s with last := .ok } := by
  rw [exec_store_of_bytes (bytes := []) (by simp [CodeTree.storeBytes, h]), List.append_nil]

end Sys2Proof.Machine

namespace Sys2Proof.Proofs

open Sys2Proof.Machine Sys2Proof.Claims

/-- Settles O42: the walk of `STORE` reads the tree's shape, and the leaves of the shape are the codewords in preorder. -/
theorem storeEmitsTheLeavesInPreorder : Obligations.StoreEmitsTheLeavesInPreorder := by
  refine ⟨by decide, fun s hw => ?_⟩
  by_cases hr : s.tree.root = none
  · refine ⟨[], fun p y => ?_, .nil, (hw.nleaf_of_rootless hr).symm, by simpa using exec_store_of_rootless hr⟩
    simp [CodeTree.IsCode, CodeTree.lookup, hr]
  · obtain ⟨sh, hsh, hb⟩ := hw.exists_hasShape hr
    exact ⟨sh.leaves, fun p y => hsh.mem_leaves, sh.leaves_pairwise, hw.length_leaves hsh, sh.pairBytes_pairs ▸ exec_store_of_bytes hb⟩

end Sys2Proof.Proofs
end

section
namespace Sys2Proof.Machine

/-! ## The unfinished tree of REBUILD (R141)

Between two pairs the tree is finished but for the nodes above the cursor. `Trail` says what stands beside the path from the cursor up to the
root; its length is the depth at which the next node goes, and the pairs read so far are the header of the finished subtrees beside it. -/

/-- The steps from a node up to the root: `none` from a child 0 whose parent has its slot 1 free, `some l` from a child 1 beside the finished
subtree `l`. -/
abbrev Trail := List (Option Shape)

/-- The header pairs of the finished subtrees beside a trail. -/
def Trail.header : Trail → List (Byte × Nat)
  | [] => []
  | none :: fs => Trail.header fs
  | some l :: fs => Trail.header fs ++ l.header (fs.length + 1)

/-- What stands above node `n`. -/
def CodeTree.Below (t : CodeTree) : Nat → Trail → Prop
  | n, [] => n = 0 ∧ t.par n = none
  | n, none :: fs => ∃ a, a < n ∧ t.par n = some a ∧ t.child a false = some n ∧ t.child a true = none ∧ t.Below a fs
  | n, some l :: fs => ∃ a b, a < n ∧ t.par n = some a ∧ t.child a false = some b ∧ t.HoldsAt b l ∧ t.child a true = some n ∧ t.Below a fs

/-- Finished nodes of `t` are the same in `u`. -/
structure CodeTree.Kept (t u : CodeTree) : Prop where
  leaf : ∀ n y, t.isLeaf n = true → t.sym n = some y → u.isLeaf n = true ∧ u.sym n = some y
  inner : ∀ n b, t.child n true = some b → u.child n true = some b ∧ u.child n false = t.child n false

theorem CodeTree.Kept.holdsAt {t u : CodeTree} (h : t.Kept u) {sh : Shape} : ∀ {n}, t.HoldsAt n sh → u.HoldsAt n sh := by
  induction sh with
  | leaf y => exact fun ⟨hl, hs⟩ => h.leaf _ y hl hs
  | node l r hl hr =>
    rintro n ⟨a, b, ha, hb, hal, hbr⟩
    obtain ⟨hb', ha'⟩ := h.inner n b hb
    exact ⟨a, b, ha'.trans ha, hb', hl hal, hr hbr⟩

/-- What stands above a node stays when nothing above it is written. -/
theorem CodeTree.Kept.below {t u : CodeTree} (h : t.Kept u) {fs : Trail} : ∀ {n}, (∀ m i, m < n → u.child m i = t.child m i) →
    (∀ m, m ≤ n → u.par m = t.par m) → t.Below n fs → u.Below n fs := by
  induction fs with
  | nil => exact fun _ hp ⟨h0, hn⟩ => ⟨h0, (hp _ le_rfl).trans hn⟩
  | cons f fs ih =>
    intro n hc hp hb
    match f, hb with
    | none, ⟨a, ha, hpa, h0, h1, hfs⟩ =>
      exact ⟨a, ha, (hp _ le_rfl).trans hpa, (hc _ _ ha).trans h0, (hc _ _ ha).trans h1,
        ih (fun m i hm => hc m i (by omega)) (fun m hm => hp m (by omega)) hfs⟩
    | some l, ⟨a, b, ha, hpa, h0, hl, h1, hfs⟩ =>
      exact ⟨a, b, ha, (hp _ le_rfl).trans hpa, (hc _ _ ha).trans h0, h.holdsAt hl, (hc _ _ ha).trans h1,
        ih (fun m i hm => hc m i (by omega)) (fun m hm => hp m (by omega)) hfs⟩

/-- Node `n` can be the cursor at the end of the trail `fs`: it is in use with slot 1 free, and it is no leaf of a pair. -/
structure CodeTree.CursorAt (t : CodeTree) (n : Nat) (fs : Trail) : Prop where
  lt : n < t.nodes.length
  free : t.child n true = none
  blank : t.child n false = none → t.sym n = none
  below : t.Below n fs

/-! ### The cursor at a node without children, and at one with a child 0 -/

/-- The cursor is a node without children, at its depth. -/
structure Rebuild.Fresh (r : Rebuild) (n : Nat) (fs : Trail) : Prop where
  cur : r.cur = some n
  cursor : r.tree.CursorAt n fs
  childless : r.tree.child n false = none
  depth : r.cd = fs.length

/-- The cursor is a node with the finished subtree `l` as its child 0, at its depth. -/
structure Rebuild.Half (r : Rebuild) (n : Nat) (l : Shape) (fs : Trail) : Prop where
  cur : r.cur = some n
  cursor : r.tree.CursorAt n fs
  child : ∃ b, r.tree.child n false = some b ∧ r.tree.HoldsAt b l
  depth : r.cd = fs.length

/-- Where the climb ends that starts from a finished subtree `sh` below the trail `fs` (R141): with no cursor and `sh` the whole tree, or at the
nearest node with its slot 1 free, whose child 0 it finishes; on its way it finishes the nodes whose child 1 it comes from. -/
def Rebuild.After (r : Rebuild) : Shape → Trail → Prop
  | sh, [] => r.cur = none ∧ r.tree.HoldsAt 0 sh
  | sh, none :: fs => ∃ n, r.Half n sh fs
  | sh, some l :: fs => r.After (.node l sh) fs

/-- From a finished subtree the climb finishes what it passes (R141). -/
theorem Rebuild.after_climb {t : CodeTree} {fs : Trail} : ∀ {n k : Nat} {sh : Shape}, n < t.nodes.length → n ≤ k → t.Below n fs → t.HoldsAt n sh →
    Rebuild.After { tree := t, cur := (t.climb k (t.par n) (fs.length - 1)).1, cd := (t.climb k (t.par n) (fs.length - 1)).2 } sh fs := by
  induction fs with
  | nil =>
    rintro n k sh - - ⟨rfl, hp⟩ h
    rw [hp]
    cases k <;> exact ⟨rfl, h⟩
  | cons f fs ih =>
    intro n k sh hn hk hb h
    match f, hb with
    | none, ⟨a, ha, hpa, h0, h1, hfs⟩ =>
      obtain ⟨k, rfl⟩ : ∃ j, k = j + 1 := ⟨k - 1, by omega⟩
      have hc : t.climb (k + 1) (t.par n) (fs.length + 1 - 1) = (some a, fs.length) := by
        rw [hpa, CodeTree.climb, if_pos (show t.c1 a = none from h1), Nat.add_sub_cancel]
      rw [List.length_cons, hc]
      exact ⟨a, rfl, ⟨ha.trans hn, h1, by simp [h0], hfs⟩, ⟨n, h0, h⟩, rfl⟩
    | some l, ⟨a, b, ha, hpa, h0, hl, h1, hfs⟩ =>
      obtain ⟨k, rfl⟩ : ∃ j, k = j + 1 := ⟨k - 1, by omega⟩
      have hc : t.climb (k + 1) (t.par n) (fs.length + 1 - 1) = t.climb k (t.par a) (fs.length - 1) := by
        rw [hpa, CodeTree.climb, if_neg (by rw [show t.c1 a = some n from h1]; simp), Nat.add_sub_cancel]
      rw [List.length_cons, hc]
      exact ih (by omega) (by omega) hfs ⟨b, n, h0, h1, hl, h⟩

/-! ### One node of the descent -/

theorem CodeTree.CursorAt.sym_of_isLeaf {t : CodeTree} {n : Nat} {fs : Trail} (h : t.CursorAt n fs) (hl : t.isLeaf n = true) : t.sym n = none :=
  h.blank (CodeTree.isLeaf_iff_child.1 hl).2.1

theorem CodeTree.CursorAt.kept_grow {t : CodeTree} {n : Nat} {fs : Trail} (h : t.CursorAt n fs) : t.Kept (t.grow n) where
  leaf m y hl hs := by
    have hne : m ≠ n := fun e => by simp [h.sym_of_isLeaf (e ▸ hl), e] at hs
    exact ⟨(CodeTree.grow_isLeaf h.lt m).2 (.inr ⟨hne, hl⟩), (CodeTree.grow_sym (CodeTree.isLeaf_lt hl)).trans hs⟩
  inner m b hb := by
    have hne : m ≠ n := fun e => by simp [e, h.free] at hb
    rw [CodeTree.grow_child h.lt, CodeTree.grow_child h.lt, if_neg fun e => hne e.1, if_neg fun e => hne e.1]
    exact ⟨hb, rfl⟩

theorem CodeTree.CursorAt.below_grow {t : CodeTree} {n : Nat} {fs : Trail} (h : t.CursorAt n fs) : (t.grow n).Below n fs :=
  h.kept_grow.below (fun m i hm => by rw [CodeTree.grow_child h.lt, if_neg fun e => hm.ne e.1])
    (fun m hm => by rw [CodeTree.grow_par, if_neg (Nat.lt_of_le_of_lt hm h.lt).ne]) h.below

theorem CodeTree.grow_child_new {t : CodeTree} {n : Nat} (hn : n < t.nodes.length) (i : Bool) : (t.grow n).child t.nodes.length i = none := by
  rw [CodeTree.grow_child hn, if_neg fun e => hn.ne e.1.symm, CodeTree.child_length]

/-- The new node is a cursor without children. -/
theorem CodeTree.CursorAt.grow {t : CodeTree} {n : Nat} {fs gs : Trail} (h : t.CursorAt n fs) (hg : (t.grow n).Below t.nodes.length gs) :
    Rebuild.Fresh { tree := t.grow n, cur := some t.nodes.length, cd := gs.length } t.nodes.length gs := by
  have hc := CodeTree.grow_child_new h.lt
  refine ⟨rfl, ⟨by simp, hc true, fun _ => ?_, hg⟩, hc false, rfl⟩
  rw [CodeTree.grow, CodeTree.updateNode_sym, CodeTree.addNode_sym, if_pos rfl]
  intro nd
  split <;> rfl

/-- The state of the loop after one pass of the descent. -/
def Rebuild.grow (r : Rebuild) (n : Nat) : Rebuild := { tree := r.tree.grow n, cur := some r.tree.nodes.length, cd := r.cd + 1 }

theorem Rebuild.Fresh.grow {r : Rebuild} {n : Nat} {fs : Trail} (h : r.Fresh n fs) : (r.grow n).Fresh r.tree.nodes.length (none :: fs) := by
  have hc (i : Bool) : (r.tree.grow n).child n i = if i = false then some r.tree.nodes.length else none := by
    rw [CodeTree.grow_child h.cursor.lt]
    cases i <;> simp [h.childless, h.cursor.free]
  rw [Rebuild.grow, h.depth]
  exact h.cursor.grow (gs := none :: fs) ⟨n, h.cursor.lt, by simp [CodeTree.grow_par], by simp [hc], by simp [hc], h.cursor.below_grow⟩

theorem Rebuild.Half.grow {r : Rebuild} {n : Nat} {l : Shape} {fs : Trail} (h : r.Half n l fs) :
    (r.grow n).Fresh r.tree.nodes.length (some l :: fs) := by
  obtain ⟨b, hb, hl⟩ := h.child
  have hc (i : Bool) : (r.tree.grow n).child n i = if i = false then some b else some r.tree.nodes.length := by
    rw [CodeTree.grow_child h.cursor.lt]
    cases i <;> simp [hb]
  rw [Rebuild.grow, h.depth]
  exact h.cursor.grow (gs := some l :: fs) ⟨n, b, h.cursor.lt, by simp [CodeTree.grow_par], by simp [hc], h.cursor.kept_grow.holdsAt hl, by simp [hc],
    h.cursor.below_grow⟩

/-- One pass of the loop, with the cursor at node `n` (R141). -/
theorem Rebuild.addPair_of_cur {r : Rebuild} {n : Nat} (hc : r.cur = some n) (p : HdrPair) : r.addPair p =
    if r.tree.child n false ≠ none ∧ p.dep.toNat ≤ r.cd then none
    else (r.tree.descend (p.dep.toNat - r.cd) n).bind fun x =>
      if x.2.leafOf p.sym ≠ none then none
      else
        let t := x.2.label p.sym x.1
        let c := t.climb t.nodes.length (t.par x.1) (max r.cd p.dep.toNat - 1)
        some { tree := t, cur := c.1, cd := c.2 } := by
  rw [Rebuild.addPair, hc]
  simp only
  split
  · rw [if_pos (by assumption)]
  · rw [if_neg (by assumption)]
    cases r.tree.descend (p.dep.toNat - r.cd) n <;> rfl

/-- A pair that goes deeper than the cursor starts with one new node. -/
theorem Rebuild.addPair_of_lt {r : Rebuild} {n : Nat} (hc : r.cur = some n) (hn : n < r.tree.nodes.length) {p : HdrPair} (hd : r.cd < p.dep.toNat) :
    r.addPair p = if r.tree.nodes.length = Config.nNode then none else (r.grow n).addPair p := by
  obtain ⟨k, hk⟩ : ∃ k, p.dep.toNat - r.cd = k + 1 := ⟨p.dep.toNat - r.cd - 1, by omega⟩
  rw [Rebuild.addPair_of_cur hc, if_neg fun e => absurd e.2 (by omega), hk, CodeTree.descend_succ]
  split
  · rfl
  · rw [Rebuild.addPair_of_cur (r := r.grow n) rfl, if_neg fun e => e.1 (CodeTree.grow_child_new hn false)]
    simp only [Rebuild.grow]
    rw [show p.dep.toNat - (r.cd + 1) = k by omega, show max (r.cd + 1) p.dep.toNat = max r.cd p.dep.toNat by omega]

/-! ### The leaf of a pair -/

theorem CodeTree.CursorAt.kept_label {t : CodeTree} {n : Nat} {fs : Trail} (h : t.CursorAt n fs) (y : Byte) : t.Kept (t.label y n) where
  leaf m z hl hs := by
    have hne : m ≠ n := fun e => by simp [h.sym_of_isLeaf (e ▸ hl), e] at hs
    exact ⟨by rwa [CodeTree.label_isLeaf], by rw [CodeTree.label_sym h.lt, if_neg hne, hs]⟩
  inner m b hb := by simp [hb]

/-- A pair at the depth of a cursor without children makes it a leaf. -/
theorem Rebuild.Fresh.addPair {r : Rebuild} {n : Nat} {fs : Trail} (h : r.Fresh n fs) {p : HdrPair} (hd : p.dep.toNat = fs.length)
    (hy : r.tree.leafOf p.sym = none) :
    ∃ r', r.addPair p = some r' ∧ r'.tree = r.tree.label p.sym n ∧ r'.After (.leaf p.sym) fs := by
  have hn := h.cursor.lt
  have hcd : r.cd = p.dep.toNat := h.depth.trans hd.symm
  rw [Rebuild.addPair_of_cur h.cur, if_neg fun e => e.1 h.childless, hcd, Nat.sub_self, CodeTree.descend]
  simp only [Option.bind_some, hy, max_self, hd]
  refine ⟨_, rfl, rfl, Rebuild.after_climb (by simpa using hn) (by simpa using hn.le) ?_ ⟨?_, ?_⟩⟩
  · exact (h.cursor.kept_label p.sym).below (by simp) (by simp) h.cursor.below
  · rw [CodeTree.label_isLeaf, CodeTree.isLeaf_iff_child]
    exact ⟨hn, h.childless, h.cursor.free⟩
  · rw [CodeTree.label_sym hn, if_pos rfl]

end Sys2Proof.Machine
end

section
namespace Sys2Proof.Machine

open Sys2Proof.Claims

/-! ## The symbols of the pairs (R141, check 4) -/

/-- The pairs have different symbols, and none of them has a leaf yet. -/
def Rebuild.NewSymbols (r : Rebuild) (ps : List HdrPair) : Prop := (ps.map (·.sym)).Nodup ∧ ∀ p ∈ ps, r.tree.leafOf p.sym = none

theorem Rebuild.addPair_leafOf {r r' : Rebuild} {p : HdrPair} (h : r.addPair p = some r') : r.tree.leafOf p.sym = none ∧
    ∀ z, r'.tree.leafOf z = none ↔ z ≠ p.sym ∧ r.tree.leafOf z = none := by
  obtain ⟨cur, n, t, -, -, hdesc, hy, (htree : _ = t.label p.sym n), -⟩ := Rebuild.addPair_cases h
  obtain ⟨-, hleaf, -⟩ := CodeTree.descend_spec hdesc
  have ht (z : Byte) : t.leafOf z = r.tree.leafOf z := by rw [CodeTree.leafOf, CodeTree.leafOf, hleaf]
  refine ⟨ht p.sym ▸ hy, fun z => ?_⟩
  rw [htree, CodeTree.label_leafOf, ht]
  by_cases hz : z = p.sym <;> simp [hz]

theorem Rebuild.newSymbols_cons_iff {r r' : Rebuild} {p : HdrPair} (h : r.addPair p = some r') (ps : List HdrPair) :
    r.NewSymbols (p :: ps) ↔ r'.NewSymbols ps := by
  obtain ⟨hp, hz⟩ := Rebuild.addPair_leafOf h
  simp only [Rebuild.NewSymbols, List.map_cons, List.nodup_cons, List.forall_mem_cons, hz, hp, true_and, List.mem_map, not_exists, not_and]
  constructor
  · rintro ⟨⟨hne, hn⟩, hps⟩
    exact ⟨hn, fun q hq => ⟨hne q hq, hps q hq⟩⟩
  · rintro ⟨hn, hps⟩
    exact ⟨⟨fun q hq => (hps q hq).1, hn⟩, fun q hq => (hps q hq).2⟩

/-- Pairs that trip no check have new symbols, and those after them are new to the tree they leave. -/
theorem Rebuild.newSymbols_append_iff (ps qs : List HdrPair) : ∀ {r r' : Rebuild}, r.addPairs ps = some r' →
    (r.NewSymbols (ps ++ qs) ↔ r'.NewSymbols qs) := by
  induction ps with
  | nil =>
    intro r r' h
    obtain rfl : r = r' := by simpa [Rebuild.addPairs] using h
    rfl
  | cons p ps ih =>
    intro r r' h
    rw [Rebuild.addPairs] at h
    split at h
    · simp at h
    · next r1 h1 => rw [List.cons_append, Rebuild.newSymbols_cons_iff h1, ih h]

theorem Rebuild.newSymbols_of_addPairs {ps : List HdrPair} {r r' : Rebuild} (h : r.addPairs ps = some r') : r.NewSymbols ps := by
  have := (Rebuild.newSymbols_append_iff ps [] h).2 ⟨.nil, by simp⟩
  rwa [List.append_nil] at this

/-! ## REBUILD of a well-formed header (R142) -/

theorem Rebuild.start_fresh : Rebuild.start.Fresh 0 [] := by
  have hchild (i : Bool) : Rebuild.start.tree.child 0 i = none := by cases i <;> rfl
  exact ⟨rfl, ⟨Nat.zero_lt_one, hchild true, fun _ => rfl, rfl, rfl⟩, hchild false, rfl⟩

/-- No leaf of a subtree lies above its root. -/
theorem Shape.le_of_mem_header {sh : Shape} {d : Nat} {ps : List HdrPair} (h : headerOf ps = sh.header d) {p : HdrPair}
    (hp : p ∈ ps) : d ≤ p.dep.toNat := by
  have hm : (p.sym, p.dep.toNat) ∈ sh.header d := h ▸ List.mem_map_of_mem hp
  rw [Shape.header_eq] at hm
  obtain ⟨l, -, e⟩ := List.mem_map.1 hm
  have := congrArg Prod.snd e
  dsimp only at this
  omega

theorem Shape.length_pos_of_header {sh : Shape} {d : Nat} {ps : List HdrPair} (h : headerOf ps = sh.header d) :
    0 < ps.length := by
  rw [Shape.header_eq] at h
  have := congrArg List.length h
  rw [List.length_map, List.length_map] at this
  exact this ▸ List.length_pos_iff.2 sh.leaves_ne_nil

/-- Pairs that all go deeper than the cursor start with one new node. -/
theorem Rebuild.addPairs_of_lt {r : Rebuild} {n : Nat} (hc : r.cur = some n) (hn : n < r.tree.nodes.length) (hfull : r.tree.nodes.length ≠ Config.nNode)
    {sh : Shape} {ps : List HdrPair} (h : headerOf ps = sh.header (r.cd + 1)) :
    r.addPairs ps = (r.grow n).addPairs ps := by
  obtain ⟨p, ps, rfl⟩ := List.exists_cons_of_length_pos (Shape.length_pos_of_header h)
  rw [Rebuild.addPairs, Rebuild.addPairs, Rebuild.addPair_of_lt hc hn (Shape.le_of_mem_header h List.mem_cons_self), if_neg hfull]

/-- From a cursor without children the pairs of a full binary tree make that tree below it (R141): a node with two children is a new node for its
child 0, the pairs of that, a new node for its child 1, the pairs of that. -/
theorem Rebuild.Fresh.addPairs {sh : Shape} : ∀ {r : Rebuild} {n : Nat} {fs : Trail} {ps : List HdrPair}, r.Fresh n fs →
    headerOf ps = sh.header fs.length → r.NewSymbols ps → r.tree.nodes.length + 2 * ps.length ≤ Config.nNode + 2 →
    ∃ r', r.addPairs ps = some r' ∧ r'.After sh fs ∧ r'.tree.nodes.length + 2 = r.tree.nodes.length + 2 * ps.length := by
  induction sh with
  | leaf y =>
    intro r n fs ps hr h hs _
    obtain ⟨p, rfl, hp⟩ := List.map_eq_singleton_iff.1 h
    obtain ⟨rfl, hd⟩ := Prod.mk.inj hp
    obtain ⟨r', hr', ht, ha⟩ := hr.addPair hd (hs.2 p List.mem_cons_self)
    exact ⟨r', by simp [Rebuild.addPairs, hr'], ha, by simp [ht]⟩
  | node l r ihl ihr =>
    intro q n fs ps hq h hs hlen
    obtain ⟨ps, qs, rfl, hps, hqs⟩ := List.map_eq_append_iff.1 h
    have hl := Shape.length_pos_of_header hps
    have hr := Shape.length_pos_of_header hqs
    rw [List.length_append] at hlen ⊢
    have h1 : q.addPairs ps = (q.grow n).addPairs ps := Rebuild.addPairs_of_lt hq.cur hq.cursor.lt (by omega) (hq.depth ▸ hps)
    have hs1 : (q.grow n).NewSymbols ps := ⟨hs.1.sublist (by simp), fun p hp => hs.2 p (List.mem_append_left _ hp)⟩
    have hlen1 : (q.grow n).tree.nodes.length = q.tree.nodes.length + 1 := CodeTree.grow_length
    obtain ⟨q1, hq1, ⟨m, hm⟩, hc1⟩ := ihl hq.grow hps hs1 (by omega)
    rw [← h1] at hq1
    have h2 : q1.addPairs qs = (q1.grow m).addPairs qs := Rebuild.addPairs_of_lt hm.cur hm.cursor.lt (by omega) (hm.depth ▸ hqs)
    have hs2 : (q1.grow m).NewSymbols qs := (Rebuild.newSymbols_append_iff ps qs hq1).1 hs
    have hlen2 : (q1.grow m).tree.nodes.length = q1.tree.nodes.length + 1 := CodeTree.grow_length
    obtain ⟨q2, hq2, ha2, hc2⟩ := ihr hm.grow hqs hs2 (by omega)
    exact ⟨q2, by rw [Rebuild.addPairs_append, hq1, Option.bind_some, h2, hq2], ha2, by omega⟩

/-- `REBUILD` of the header of a full binary tree with different symbols makes that tree (R142). -/
theorem rebuildTree_of_header {ps : List HdrPair} {sh : Shape} (hn : (ps.map (·.sym)).Nodup)
    (h : headerOf ps = sh.header 0) (hlen : ps.length ≤ 256) :
    ∃ t, rebuildTree ps = some t ∧ t.HasShape sh ∧ t.nleaf = BitVec.ofNat 9 ps.length := by
  obtain ⟨r, hr, ⟨hcur, hsh⟩, -⟩ := Rebuild.start_fresh.addPairs h ⟨hn, fun p _ => CodeTree.empty_leafOf p.sym⟩
    (show 1 + 2 * ps.length ≤ 513 by omega)
  obtain ⟨depth, hg, -⟩ := Rebuild.addPairs_keeps (P := Rebuild.Inv) (fun _ _ _ => Rebuild.addPair_keeps_inv) _ _ r Rebuild.start_inv hr
  obtain ⟨p, ps, rfl⟩ := List.exists_cons_of_length_pos (Shape.length_pos_of_header h)
  refine ⟨{ r.tree with nleaf := BitVec.ofNat 9 (ps.length + 1) }, by simp [rebuildTree, hr, hcur], fun q => ?_, rfl⟩
  rw [← hsh.hasShape hg.root]
  exact CodeTree.lookup_congr (by rfl) (by rfl) q

/-! ## REBUILD of any other header (R142) -/

/-- A pair that trips no check makes a leaf at its depth: on its way down it has only child 0 steps. -/
theorem Rebuild.Fresh.after_of_addPair (k : Nat) {p : HdrPair} {r' : Rebuild} : ∀ {r : Rebuild} {n : Nat} {fs : Trail}, r.Fresh n fs →
    p.dep.toNat = fs.length + k → r.addPair p = some r' →
    ∃ gs : Trail, gs.length = p.dep.toNat ∧ gs.header = fs.header ∧ r'.After (.leaf p.sym) gs := by
  induction k with
  | zero =>
    intro r n fs hr hk h
    obtain ⟨r1, h1, -, ha⟩ := hr.addPair hk (Rebuild.addPair_leafOf h).1
    obtain rfl : r1 = r' := by simpa [h1] using h
    exact ⟨fs, hk.symm, rfl, ha⟩
  | succ k ih =>
    intro r n fs hr hk h
    rw [Rebuild.addPair_of_lt hr.cur hr.cursor.lt (by rw [hr.depth]; omega)] at h
    split at h
    · simp at h
    · exact ih (fs := none :: fs) hr.grow (by rw [List.length_cons]; omega) h

/-- The finished subtrees of the tree so far have the header `xs`. -/
inductive Rebuild.Reads (r : Rebuild) (xs : List (Byte × Nat)) : Prop where
  | half {n : Nat} {l : Shape} {fs : Trail} (h : r.Half n l fs) (hx : Trail.header (some l :: fs) = xs)
  | whole {sh : Shape} (hc : r.cur = none) (h : r.tree.HoldsAt 0 sh) (hx : sh.header 0 = xs)

theorem Rebuild.After.reads {r : Rebuild} {fs : Trail} : ∀ {sh : Shape}, r.After sh fs → r.Reads (fs.header ++ sh.header fs.length) := by
  induction fs with
  | nil => exact fun ⟨hc, h⟩ => .whole hc h rfl
  | cons f fs ih =>
    intro sh h
    match f, h with
    | none, ⟨_, h⟩ => exact .half h rfl
    | some l, h =>
      rw [Trail.header, List.append_assoc]
      exact ih (sh := .node l sh) h

theorem Rebuild.Fresh.reads {r r' : Rebuild} {n : Nat} {fs : Trail} {p : HdrPair} (hr : r.Fresh n fs) (hd : fs.length ≤ p.dep.toNat)
    (h : r.addPair p = some r') : r'.Reads (fs.header ++ [(p.sym, p.dep.toNat)]) := by
  obtain ⟨gs, hlen, hgs, ha⟩ := hr.after_of_addPair _ (Nat.add_sub_of_le hd).symm h
  rw [← hlen, ← hgs]
  exact ha.reads

/-- A pair that trips no check comes next in the header of the finished subtrees. -/
theorem Rebuild.Reads.addPair {r r' : Rebuild} {xs : List (Byte × Nat)} {p : HdrPair} (hr : r.Reads xs) (h : r.addPair p = some r') :
    r'.Reads (xs ++ [(p.sym, p.dep.toNat)]) := by
  cases hr with
  | half hr hx =>
    obtain ⟨b, hb, -⟩ := hr.child
    have hd : r.cd < p.dep.toNat := by
      by_contra hd
      rw [Rebuild.addPair_of_cur hr.cur, if_pos ⟨by simp [hb], not_lt.1 hd⟩] at h
      simp at h
    rw [Rebuild.addPair_of_lt hr.cur hr.cursor.lt hd] at h
    split at h
    · simp at h
    · exact hx ▸ hr.grow.reads (by rw [List.length_cons, ← hr.depth]; exact hd) h
  | whole hc => simp [Rebuild.addPair, hc] at h

theorem Rebuild.Reads.addPairs {ps : List HdrPair} : ∀ {r r' : Rebuild} {xs : List (Byte × Nat)}, r.Reads xs → r.addPairs ps = some r' →
    r'.Reads (xs ++ headerOf ps) := by
  induction ps with
  | nil =>
    intro r r' xs hr h
    obtain rfl : r = r' := by simpa [Rebuild.addPairs] using h
    simpa using hr
  | cons p ps ih =>
    intro r r' xs hr h
    rw [Rebuild.addPairs] at h
    split at h
    · simp at h
    · next r1 h1 => simpa using ih (hr.addPair h1) h

/-- `REBUILD` accepts no other pairs than well-formed headers (R142). -/
theorem wellFormedHeader_of_rebuildTree {ps : List HdrPair} {t : CodeTree} (hne : ps ≠ []) (h : rebuildTree ps = some t) : WellFormedHeader ps := by
  obtain ⟨p, ps, rfl⟩ := List.exists_cons_of_ne_nil hne
  rw [rebuildTree] at h
  split at h
  · simp at h
  next r hr =>
  split at h
  · simp at h
  next hcur =>
  refine ⟨(Rebuild.newSymbols_of_addPairs hr).1, ?_⟩
  rw [Rebuild.addPairs] at hr
  split at hr
  · simp at hr
  next r1 h1 =>
  cases (Rebuild.start_fresh.reads (Nat.zero_le _) h1).addPairs hr with
  | half hf => exact absurd (by simp [hf.cur]) hcur
  | whole _ _ hx => exact ⟨_, hx.symm⟩

/-! ## One pair (R143) -/

theorem Shape.depth_of_header_singleton {sh : Shape} {d e : Nat} {y : Byte} (h : sh.header d = [(y, e)]) : e = d := by
  cases sh with
  | leaf z => exact (congrArg Prod.snd (List.singleton_inj.1 h)).symm
  | node l r =>
    have hlen := congrArg List.length h
    have hl := List.length_pos_iff.2 l.leaves_ne_nil
    have hr := List.length_pos_iff.2 r.leaves_ne_nil
    simp only [Shape.header, Shape.header_eq, List.length_append, List.length_map, List.length_singleton] at hlen
    omega

theorem CodeTree.rootLeaf_of_isCode_nil {t : CodeTree} {y : Byte} (h : t.IsCode y []) : t.rootLeaf = true := by
  simp only [CodeTree.IsCode, CodeTree.lookup, Option.map_eq_some_iff, Option.bind_eq_some_iff] at h
  obtain ⟨n, ⟨r, hr, hn⟩, hs⟩ := h
  obtain ⟨-, rfl⟩ : r < t.nodes.length ∧ r = n := by simpa using hn
  rw [CodeTree.rootLeaf, hr]
  by_contra hl
  rw [if_neg hl] at hs
  simp at hs

theorem take_one_toList {n : Nat} (v : Vector HdrPair (n + 1)) : v.toList.take 1 = [v.get 0] := by
  rw [List.take_one, List.head?_eq_getElem?]
  simp [Vector.get_eq_getElem]

/-! ## What the command answers -/

theorem exec_rebuild_of_some {s : State} {d : BitVec 9} {t : CodeTree} (hd : d.toNat ≤ 256) (h : rebuildTree (s.hdr.toList.take d.toNat) = some t) :
    exec (.rebuild d) s = .next { s with tree := t, last := .ok } := by
  simp [exec, execRebuild, headerOperand, hd, h, State.finish]

theorem exec_rebuild_of_none {s : State} {d : BitVec 9} (hd : d.toNat ≤ 256) (h : rebuildTree (s.hdr.toList.take d.toNat) = none) :
    exec (.rebuild d) s = .next (failed .badHeader { s with tree := CodeTree.empty }) := by
  simp [exec, execRebuild, headerOperand, hd, h, State.raise_eq, failed, State.treeClear]

end Sys2Proof.Machine

namespace Sys2Proof.Proofs

open Sys2Proof.Machine Sys2Proof.Claims

/-- Settles O43: the pairs of a subtree, read at a cursor without children, make that subtree. -/
theorem rebuildOfAWellFormedHeader : Obligations.RebuildOfAWellFormedHeader := by
  intro s d sh h1 h256 hn h
  have hlen : (s.hdr.toList.take d.toNat).length = d.toNat := by simp; omega
  obtain ⟨t, ht, hsh, hc⟩ := rebuildTree_of_header hn h (hlen.trans_le h256)
  have hw := rebuildTree_wf ht
  obtain rfl : t.nleaf = d := by rw [hc, hlen, BitVec.ofNat_toNat, BitVec.setWidth_eq]
  exact ⟨t, exec_rebuild_of_some h256 ht, hw, hsh, rfl, hw.nodeCount h1⟩

/-- Settles O44: what trips no check is the header of the finished tree. -/
theorem rebuildOfAMalformedHeader : Obligations.RebuildOfAMalformedHeader := by
  intro s d h1 h256 hbad
  refine exec_rebuild_of_none h256 (Option.eq_none_iff_forall_ne_some.2 fun t ht => hbad (wellFormedHeader_of_rebuildTree ?_ ht))
  rw [← List.length_pos_iff, List.length_take, Vector.length_toList]
  omega

/-- Settles O46: both trees have the shape whose leaves `STORE` emits. -/
theorem headerRoundTrip : Obligations.HeaderRoundTrip := by
  refine fun s r hw => ⟨fun hr => ?_, fun hr => ⟨exec_store_of_rootless hr, exec_rebuild_of_some (by decide) rfl⟩⟩
  obtain ⟨sh, hsh, hb⟩ := hw.exists_hasShape hr
  have hlen : sh.pairs.length = s.tree.nleaf.toNat := by rw [Shape.pairs, List.length_map, hw.length_leaves hsh]
  refine ⟨_, sh.pairs, exec_store_of_bytes hb, rfl, hlen, fun hps => ?_⟩
  obtain ⟨u, hu, hwu, hshu, -⟩ := rebuildOfAWellFormedHeader r s.tree.nleaf sh
    (hlen ▸ Shape.length_pos_of_header (hw.pairs_header hsh)) hw.nleaf_le (hps ▸ hw.nodup_pairs hsh) (hps ▸ hw.pairs_header hsh)
  exact ⟨u, hu, hwu, fun p => (hsh p).trans (hshu p).symm⟩

/-- Settles O45: one pair is well-formed when its depth is 0, the header of a single leaf. -/
theorem rebuildOfDegenerateHeaders : Obligations.RebuildOfDegenerateHeaders := by
  intro s
  have hone : s.hdr.toList.take (1 : BitVec 9).toNat = [s.hdr.get 0] := take_one_toList s.hdr
  have hall : s.hdr.toList.take (256 : BitVec 9).toNat = s.hdr.toList := List.take_of_length_le (by simp)
  refine ⟨exec_rebuild_of_some (by decide) rfl, fun h0 => ?_, fun h0 => ?_, fun ⟨hn, sh, h⟩ => ?_⟩
  · obtain ⟨t, ht, hw, hsh, hc, hlen⟩ := rebuildOfAWellFormedHeader s 1 (.leaf (s.hdr.get 0).sym) (by decide) (by decide)
      (by rw [hone]; exact List.nodup_singleton _) (by rw [hone, List.map_singleton, h0]; rfl)
    exact ⟨t, ht, CodeTree.rootLeaf_of_isCode_nil (hsh []), hc, hlen, hsh []⟩
  · refine rebuildOfAMalformedHeader s 1 (by decide) (by decide) fun ⟨_, sh, h⟩ => h0 (BitVec.eq_of_toNat_eq ?_)
    rw [hone] at h
    exact Shape.depth_of_header_singleton h.symm
  · obtain ⟨t, ht, -, -, -, hlen⟩ := rebuildOfAWellFormedHeader s 256 sh (by decide) (by decide) (by rwa [hall]) (by rwa [hall])
    exact ⟨t, ht, hlen⟩

end Sys2Proof.Proofs
end

section
namespace Sys2Proof.Machine

open Sys2Proof.Claims

/-! ## The bits a reader receives (R111) -/

/-- Receiving bits is some bit reads: only the reader's buffer and position, and `IN_POS`, change. -/
theorem State.Receives.readsTo {bits : List Bool} {u : State} : ∀ {s : State}, State.Receives bits s u → s.ReadsTo u := by
  induction bits with
  | nil => exact fun h => h ▸ .refl _
  | cons b bits ih => exact fun ⟨_, hb, h⟩ => (State.ReadsTo.of_getBit hb).trans (ih h)

/-- `GetBit` answers any bits that come first in the bits left, and leaves the others. -/
theorem State.exists_receives {bits rest : List Bool} : ∀ {s : State}, s.bitsLeft = bits ++ rest →
    ∃ u, State.Receives bits s u ∧ u.bitsLeft = rest := by
  induction bits with
  | nil => exact fun h => ⟨_, rfl, h⟩
  | cons b bits ih =>
    intro s h
    cases hb : s.getBit with
    | none => simp [s.getBit_eq_none_iff.1 hb] at h
    | some q =>
      obtain ⟨c, s1⟩ := q
      obtain ⟨rfl, h1⟩ : c = b ∧ s1.bitsLeft = bits ++ rest := by simpa using (State.getBit_bitsLeft hb).symm.trans h
      obtain ⟨u, hu, hrest⟩ := ih h1
      exact ⟨u, ⟨s1, hb, hu⟩, hrest⟩

/-! ## Codewords and the tree (R150) -/

/-- What stands at the end of a path, said of the node there. -/
theorem CodeTree.lookup_eq_some_iff {t : CodeTree} {p : List Bool} {x : Option Byte} : t.lookup p = some x ↔
    ∃ r n, t.root = some r ∧ t.follow r p = some n ∧ (if t.isLeaf n then t.sym n else none) = x := by
  simp only [CodeTree.lookup, Option.map_eq_some_iff, Option.bind_eq_some_iff]
  constructor
  · rintro ⟨n, ⟨r, hr, hn⟩, hx⟩
    exact ⟨r, n, hr, hn, hx⟩
  · rintro ⟨r, n, hr, hn, hx⟩
    exact ⟨n, ⟨r, hr, hn⟩, hx⟩

/-- A codeword ends at a leaf with its symbol. -/
theorem CodeTree.isCode_iff_follow {t : CodeTree} {y : Byte} {p : List Bool} : t.IsCode y p ↔
    ∃ r n, t.root = some r ∧ t.follow r p = some n ∧ t.isLeaf n = true ∧ t.sym n = some y := by
  rw [CodeTree.IsCode, CodeTree.lookup_eq_some_iff]
  refine exists_congr fun r => exists_congr fun n => and_congr_right fun _ => and_congr_right fun _ => ?_
  by_cases hl : t.isLeaf n <;> simp [hl]

/-- Under `TreeWF` a path that ends at no leaf ends at a node with two children. -/
theorem CodeTree.WF.lookup_internal {t : CodeTree} (hw : t.WF) {p : List Bool} (h : t.lookup p = some none) :
    ∃ r n, t.root = some r ∧ t.follow r p = some n ∧ t.isLeaf n = false := by
  obtain ⟨r, n, hr, hn, hx⟩ := CodeTree.lookup_eq_some_iff.1 h
  refine ⟨r, n, hr, hn, Bool.eq_false_iff.2 fun hl => ?_⟩
  obtain ⟨y, hy, -⟩ := hw.leafSym n hl
  simp [hl, hy] at hx

/-- Under `TreeWF` every symbol with a leaf has a codeword. -/
theorem CodeTree.WF.exists_isCode {t : CodeTree} (hw : t.WF) {y : Byte} (hy : t.leafOf y ≠ none) : ∃ bits, t.IsCode y bits := by
  obtain ⟨n, hn⟩ := Option.ne_none_iff_exists'.1 hy
  obtain ⟨bits, hb⟩ := hw.codeword_completes hn
  exact ⟨bits, (hw.isCode_iff y bits).2 ⟨n, hn, hb⟩⟩

/-- The empty tree has no symbol (R33 (a)). -/
theorem CodeTree.WF.leafOf_of_rootless {t : CodeTree} (hw : t.WF) (hr : t.root = none) (y : Byte) : t.leafOf y = none := by
  by_contra hy
  obtain ⟨bits, hb⟩ := hw.exists_isCode hy
  obtain ⟨r, -, hr', -⟩ := CodeTree.isCode_iff_follow.1 hb
  simp [hr] at hr'

/-- A tree whose root is a leaf has that leaf's symbol alone, with the empty codeword (R152). -/
theorem CodeTree.isCode_of_rootLeaf {t : CodeTree} {r : Nat} {y z : Byte} {bits : List Bool} (hr : t.root = some r) (hl : t.isLeaf r = true)
    (hs : t.sym r = some y) : t.IsCode z bits ↔ z = y ∧ bits = [] := by
  obtain ⟨hlt, h0, h1⟩ := CodeTree.isLeaf_iff_child.1 hl
  rw [CodeTree.isCode_iff_follow]
  match bits with
  | [] => simpa [hr, hlt, hl, hs] using eq_comm
  | false :: bits => simp [hr, h0]
  | true :: bits => simp [hr, h1]

/-- In a full binary tree every bit sequence ends at an internal node, or it has a leaf's path in front. -/
theorem Shape.internal_or_leaf (sh : Shape) : ∀ bs : List Bool,
    sh.lookup bs = some none ∨ ∃ y bits rest, sh.lookup bits = some (some y) ∧ bs = bits ++ rest := by
  induction sh with
  | leaf y => exact fun bs => .inr ⟨y, [], bs, rfl, rfl⟩
  | node l r ihl ihr =>
    intro bs
    match bs with
    | [] => exact .inl rfl
    | false :: bs => exact (ihl bs).imp id fun ⟨y, bits, rest, h, e⟩ => ⟨y, false :: bits, rest, h, by rw [e, List.cons_append]⟩
    | true :: bs => exact (ihr bs).imp id fun ⟨y, bits, rest, h, e⟩ => ⟨y, true :: bits, rest, h, by rw [e, List.cons_append]⟩

theorem CodeTree.WF.internal_or_codeword {t : CodeTree} (hw : t.WF) (hr : t.root ≠ none) (bs : List Bool) :
    t.lookup bs = some none ∨ ∃ y bits rest, t.IsCode y bits ∧ bs = bits ++ rest := by
  obtain ⟨sh, hsh, -⟩ := hw.exists_hasShape hr
  simp only [CodeTree.IsCode, hsh _]
  exact sh.internal_or_leaf bs

/-! ## The walk of DECODE (R151) -/

/-- While `GetBit` answers the bits of a path, the walk goes down that path. -/
theorem State.decodeFrom_follow {k m : Nat} {p : List Bool} {u : State} : ∀ {s : State} {n : Nat}, State.Receives p s u →
    s.tree.follow n p = some m → s.decodeFrom (p.length + k) n = u.decodeFrom k m := by
  induction p with
  | nil =>
    intro s n hu hm
    obtain ⟨-, rfl⟩ : n < s.tree.nodes.length ∧ n = m := by simpa using hm
    obtain rfl : u = s := hu
    rw [List.length_nil, Nat.zero_add]
  | cons b p ih =>
    intro s n ⟨s1, hb, hu⟩ hm
    obtain ⟨c, hc, hcm⟩ := Option.bind_eq_some_iff.1 hm
    obtain ⟨nd, hnd⟩ : ∃ nd, s.tree.nodes[n]? = some nd := ⟨_, List.getElem?_eq_getElem (CodeTree.lt_of_child hc)⟩
    rw [List.length_cons, Nat.add_right_comm, State.decodeFrom_succ hnd, hb]
    have below : s1.decodeFrom (p.length + k) c = u.decodeFrom k m := ih hu ((State.ReadsTo.of_getBit hb).tree ▸ hcm)
    cases b with
    | false =>
      have h0 : nd.c0 = some c := by simpa [CodeTree.child, CodeTree.c0, hnd] using hc
      simpa [h0] using below
    | true =>
      have h1 : nd.c1 = some c := by simpa [CodeTree.child, CodeTree.c1, hnd] using hc
      simpa [h1] using below

/-- The walk ends at a leaf, with no bit read there. -/
theorem State.decodeFrom_of_leaf {k n : Nat} {y : Byte} {s : State} (hl : s.tree.isLeaf n = true) (hs : s.tree.sym n = some y) :
    s.decodeFrom (k + 1) n = .symbol y s := by
  obtain ⟨nd, hnd, h0, h1⟩ := (s.tree.isLeaf_iff n).1 hl
  have hy : nd.sym = some y := by simpa [CodeTree.sym, hnd] using hs
  simp [State.decodeFrom_succ hnd, h0, h1, hy]

/-- The walk ends at an internal node if no bit is left. -/
theorem State.decodeFrom_of_end {k n : Nat} {s : State} (hn : n < s.tree.nodes.length) (hl : s.tree.isLeaf n = false) (he : s.getBit = none) :
    s.decodeFrom (k + 1) n = .eos s := by
  have hnd : s.tree.nodes[n]? = some s.tree.nodes[n] := List.getElem?_eq_getElem hn
  have hc : ¬ (s.tree.nodes[n].c0 = none ∧ s.tree.nodes[n].c1 = none) := fun ⟨h0, h1⟩ =>
    Bool.eq_false_iff.1 hl ((s.tree.isLeaf_iff n).2 ⟨_, hnd, h0, h1⟩)
  rw [State.decodeFrom_succ hnd, if_neg hc, he]

/-- Under `TreeWF` the walk down a path of bits received comes to its end with a level to spare. -/
theorem State.exists_decodeFrom_root {s u : State} {r n : Nat} {p : List Bool} (hw : s.tree.WF) (hr : s.tree.root = some r)
    (hp : s.tree.follow r p = some n) (hu : State.Receives p s u) : ∃ k, s.decodeFrom Config.maxLevels r = u.decodeFrom (k + 1) n := by
  obtain ⟨k, hk⟩ := Nat.exists_eq_add_of_lt (Nat.lt_succ_of_le (hw.follow_length_le hr hp))
  exact ⟨k, (congrArg (s.decodeFrom · r) hk).trans (State.decodeFrom_follow (k := k + 1) hu hp)⟩

/-! ## What DECODE answers (R151) -/

theorem exec_decode_of_rootless {s : State} (hr : s.tree.root = none) :
    exec .decode s = .next (failed .noTree { s with res := 0xFFFFFFFF#32 }) := by
  simp [exec, execDecode, hr, State.raise_eq, failed, Config.failValue]

/-- `DECODE` answers the symbol whose codeword it receives. -/
theorem exec_decode_of_code {s u : State} {y : Byte} {bits : List Bool} (hw : s.tree.WF) (hy : s.tree.IsCode y bits)
    (hu : State.Receives bits s u) : exec .decode s = .next { u with res := y.setWidth 32, last := .ok } := by
  obtain ⟨r, n, hr, hn, hl, hs⟩ := CodeTree.isCode_iff_follow.1 hy
  obtain ⟨k, hk⟩ := State.exists_decodeFrom_root hw hr hn hu
  rw [← hu.readsTo.tree] at hl hs
  simp [exec, execDecode, hr, hk, State.decodeFrom_of_leaf hl hs, State.answer, byteWord]

/-- `DECODE` ends `EOS` where the bits end at an internal node. -/
theorem exec_decode_of_end {s u : State} {bits : List Bool} (hw : s.tree.WF) (hi : s.tree.lookup bits = some none)
    (hu : State.Receives bits s u) (he : u.getBit = none) : exec .decode s = .next (failed .eos { u with res := 0xFFFFFFFF#32 }) := by
  obtain ⟨r, n, hr, hn, hl⟩ := hw.lookup_internal hi
  obtain ⟨k, hk⟩ := State.exists_decodeFrom_root hw hr hn hu
  have hlt := CodeTree.follow_lt hn
  rw [← hu.readsTo.tree] at hl hlt
  simp [exec, execDecode, hr, hk, State.decodeFrom_of_end hlt hl he, State.raise_eq, failed, Config.failValue]

/-! ## What ENCODE answers (R150) -/

theorem exec_encode_of_absent {s : State} {y : Byte} (h : s.tree.leafOf y = none) : exec (.encode y) s = .next (failed .invalidSymbol s) := by
  simp [exec, execEncode, h, State.raise_eq, failed]

theorem exec_encode_of_code {s : State} {y : Byte} {bits : List Bool} (hw : s.tree.WF) (hy : s.tree.IsCode y bits) :
    exec (.encode y) s = .next ((s.putBits bits).finish .ok) := by
  obtain ⟨n, hn, hb⟩ := (hw.isCode_iff y bits).1 hy
  simp [exec, execEncode, hn, hb]

/-! ## A payload (R153) -/

theorem State.putBit_finish (s : State) (c : Status) (b : Bool) : (s.finish c).putBit b = (s.putBit b).finish c := by
  unfold State.putBit
  rw [apply_dite (State.finish c)]
  rfl

/-- The status has no part in the writer. -/
theorem State.putBits_finish (c : Status) (bs : List Bool) : ∀ s : State, (s.finish c).putBits bs = (s.putBits bs).finish c := by
  induction bs with
  | nil => exact fun s => rfl
  | cons b bs ih =>
    intro s
    rw [State.putBits_cons, State.putBits_cons, State.putBit_finish, ih]

theorem State.putBits_append (s : State) (xs ys : List Bool) : s.putBits (xs ++ ys) = (s.putBits xs).putBits ys := List.foldl_append

/-- `ENCODE` of symbols with leaves, one after another, is `PutBit` of their codewords, but for `LAST`. -/
theorem exists_runCommands_encode {syms : List Byte} (is : List Instr) : ∀ {s : State}, s.tree.WF → (∀ y ∈ syms, s.tree.leafOf y ≠ none) →
    ∃ codes c, List.Forall₂ s.tree.IsCode syms codes ∧
      runCommands (syms.map Instr.encode ++ is) s = runCommands is ((s.finish c).putBits codes.flatten) := by
  induction syms with
  | nil => exact fun {s} _ _ => ⟨[], s.last, .nil, rfl⟩
  | cons y syms ih =>
    intro s hw hy
    obtain ⟨bits, hb⟩ := hw.exists_isCode (hy y List.mem_cons_self)
    have ht : ((s.putBits bits).finish .ok).tree = s.tree := s.putBits_tree bits
    obtain ⟨codes, c, hc, hrun⟩ := ih (s := (s.putBits bits).finish .ok) (ht ▸ hw) fun z hz => ht ▸ hy z (List.mem_cons_of_mem _ hz)
    refine ⟨bits :: codes, c, .cons hb (ht ▸ hc), ?_⟩
    rw [List.flatten_cons, State.putBits_append, State.putBits_finish, List.map_cons, List.cons_append, runCommands, exec_encode_of_code hw hb]
    exact hrun

theorem exec_flush_keeps_err {s t : State} (h : exec .flush s = .next t) : t.err = s.err := by
  obtain ⟨-, rfl⟩ | ⟨-, rfl⟩ := execFlush_cases h <;> rfl

/-- One `DECODE` after another answers the symbols whose codewords come first in the bits left. -/
theorem State.decodes_of_codes {t : CodeTree} (hw : t.WF) {syms : List Byte} {codes : List (List Bool)} {rest : List Bool}
    (hc : List.Forall₂ t.IsCode syms codes) : ∀ {r : State}, r.tree = t → r.bitsLeft = codes.flatten ++ rest → r.Decodes syms := by
  induction hc with
  | nil => exact fun _ _ => trivial
  | @cons y bits syms codes hy hc ih =>
    intro r ht hr
    rw [List.flatten_cons, List.append_assoc] at hr
    obtain ⟨u, hu, hrest⟩ := State.exists_receives hr
    exact ⟨_, exec_decode_of_code (ht ▸ hw) (ht ▸ hy) hu, rfl, rfl, ih (hu.readsTo.tree.trans ht) hrest⟩

end Sys2Proof.Machine

namespace Sys2Proof.Proofs

open Sys2Proof.Machine Sys2Proof.Claims

/-- Settles O48: the walk goes down with the bits `GetBit` answers, and in a full binary tree it ends at a leaf or with the bits. -/
theorem decodeReadsOneCodeword : Obligations.DecodeReadsOneCodeword := by
  refine ⟨by decide, fun s => ⟨exec_decode_of_rootless, fun y bits rest hw hy hs => ?_, fun hw hi => ?_,
    fun hw hr => hw.internal_or_codeword hr s.bitsLeft⟩⟩
  · obtain ⟨u, hu, hrest⟩ := State.exists_receives hs
    exact ⟨u, hu, exec_decode_of_code hw hy hu, hu.readsTo.same, hrest⟩
  · obtain ⟨u, hu, hrest⟩ := State.exists_receives (List.append_nil s.bitsLeft).symm
    have he : u.getBit = none := u.getBit_eq_none_iff.2 hrest
    obtain ⟨h8, hend⟩ := State.getBit_eq_none he
    exact ⟨u, hu, exec_decode_of_end hw hi hu he, hu.readsTo.same, u.unread_eq_nil_iff.2 hend, h8⟩

/-- Settles O50: the payload is the codewords and the pad, and a reader that has the codewords first takes one with each `DECODE`. -/
theorem payloadRoundTrip : Obligations.PayloadRoundTrip := by
  intro s syms hw hs h0 hy
  obtain ⟨codes, c, hc, hrun⟩ := exists_runCommands_encode [.flush] hw hy
  have hsc : (s.finish c).StreamsOk := ⟨hs.slots, hs.inPos, hs.outSync⟩
  obtain ⟨bytes, u, hu, hout, -, hbits⟩ := State.exists_flush_putBits_bytes hsc h0 codes.flatten
  have herr : u.err = s.err := (exec_flush_keeps_err hu).trans (congrArg Prod.fst ((s.finish c).putBits_latchPart codes.flatten))
  refine ⟨bytes, codes, _, u, by rw [hrun, runCommands, hu]; rfl, hout, herr, hc, hbits, by omega, fun r hwr hsame ⟨rest, hr⟩ => ?_⟩
  exact State.decodes_of_codes hwr (hc.imp fun y bits h => (hsame bits).symm.trans h) rfl hr

/-- Settles O47: `ENCODE` is `PutBit` of the codeword, and `PutBit` puts each bit behind the pending ones. -/
theorem encodeEmitsTheCodeword : Obligations.EncodeEmitsTheCodeword := by
  refine ⟨fun y => ?_, fun s y => ⟨exec_encode_of_absent, fun hw hy => ?_, fun bits hw hb => ?_⟩⟩
  · exact (congrArg decode (matchWord_or_setWidth 0x20 y)).trans (decodeOfEncodeIsTheCommand (.encode y) rfl)
  · obtain ⟨bits, hb⟩ := hw.exists_isCode hy
    exact ⟨bits, hb, hw.depth bits y hb⟩
  · obtain ⟨bytes, e, hbits⟩ := s.putBits_spec bits
    have hlen : s.wcnt.val + bits.length = 8 * bytes.length + (s.putBits bits).wcnt.val := by
      simpa only [List.length_append, bitsOf_length, State.pendingBits_length] using congrArg List.length hbits
    have hlt := (s.putBits bits).wcnt.isLt
    refine ⟨bytes, _, exec_encode_of_code hw hb, ?_, hbits, by omega, (show (s.putBits bits).wcnt.val = _ by omega), fun hs => ?_⟩
    · exact congrArg (State.finish .ok) e
    · exact ((hs.advances_putBits bits).congr (u := (s.putBits bits).finish .ok) rfl).streams

/-- Settles O49: the only codeword of a single-leaf tree is empty, and the empty tree has none. -/
theorem degenerateTreesReadAndWriteNothing : Obligations.DegenerateTreesReadAndWriteNothing := by
  refine fun s hw => ⟨fun y r hr hl hs => ?_, fun hr =>
    ⟨fun y => exec_encode_of_absent (hw.leafOf_of_rootless hr y), exec_decode_of_rootless hr, exec_store_of_rootless hr⟩⟩
  have hcode (z : Byte) (bits : List Bool) : s.tree.IsCode z bits ↔ z = y ∧ bits = [] := CodeTree.isCode_of_rootLeaf hr hl hs
  have hy : s.tree.IsCode y [] := (hcode y []).2 ⟨rfl, rfl⟩
  refine ⟨exec_encode_of_code hw hy, exec_decode_of_code hw hy rfl, fun z hz => exec_encode_of_absent ?_⟩
  by_contra hleaf
  obtain ⟨bits, hb⟩ := hw.exists_isCode hleaf
  exact hz ((hcode z bits).1 hb).1

end Sys2Proof.Proofs
end

section
namespace Sys2Proof.Machine

open Sys2Proof.Claims

/-! ## The words of the registers, field by field (R161) -/

/-- The three fields of a word, the lowest first. -/
theorem extractLsb'_append_append {k m n : Nat} (hi : BitVec k) (mid : BitVec m) (lo : BitVec n) :
    (hi ++ mid ++ lo).extractLsb' 0 n = lo ∧ (hi ++ mid ++ lo).extractLsb' n m = mid ∧ (hi ++ mid ++ lo).extractLsb' (m + n) k = hi := by
  refine ⟨BitVec.extractLsb'_append_eq_right, ?_, ?_⟩
  · rw [BitVec.extractLsb'_append_eq_of_le le_rfl, Nat.sub_self, BitVec.extractLsb'_append_eq_right]
  · rw [BitVec.extractLsb'_append_eq_of_le (Nat.le_add_left n m), Nat.add_sub_cancel, BitVec.extractLsb'_append_eq_left]

/-- The word of a bit buffer: the buffer, the count or position beside it, and 0 above (R161). -/
theorem bufferWord_fields {pos : Nat} (hpos : pos < 2 ^ 4) (buf : Byte) :
    (0#20 ++ BitVec.ofNat 4 pos ++ buf).extractLsb' 0 8 = buf ∧
    ((0#20 ++ BitVec.ofNat 4 pos ++ buf).extractLsb' 8 4).toNat = pos ∧
    (0#20 ++ BitVec.ofNat 4 pos ++ buf).extractLsb' 12 20 = 0#20 := by
  obtain ⟨hlo, hmid, hhi⟩ := extractLsb'_append_append 0#20 (BitVec.ofNat 4 pos) buf
  exact ⟨hlo, by rw [hmid, BitVec.toNat_ofNat, Nat.mod_eq_of_lt hpos], hhi⟩

/-- `HASROOT` (R161). -/
theorem CodeTree.hasRoot_iff (t : CodeTree) : t.hasRoot = true ↔ t.root ≠ none := Option.isSome_iff_ne_none

/-- `ROOTLEAF` (R161). -/
theorem CodeTree.rootLeaf_iff (t : CodeTree) : t.rootLeaf = true ↔ ∃ r, t.root = some r ∧ t.isLeaf r = true := by
  unfold CodeTree.rootLeaf
  cases t.root <;> simp

/-- Bits 7 to 0 of the status word, the two codes (R26, R161). -/
theorem State.statusWord_codes (s : State) :
    s.statusWord.extractLsb' 0 4 = s.last.code ∧ s.statusWord.extractLsb' 4 4 = s.firstErr.code := by
  obtain ⟨hlast, hfirst, -⟩ := extractLsb'_append_append
    (0#21 ++ BitVec.ofBool s.tree.rootLeaf ++ BitVec.ofBool s.tree.hasRoot ++ BitVec.ofBool s.err) s.firstErr.code s.last.code
  exact ⟨hlast, hfirst⟩

/-- Bits 10 to 8 of the status word, the three flags (R26, R161). -/
theorem State.statusWord_flags (s : State) :
    s.statusWord.getLsbD 8 = s.err ∧ s.statusWord.getLsbD 9 = s.tree.hasRoot ∧ s.statusWord.getLsbD 10 = s.tree.rootLeaf := by
  simp only [State.statusWord, BitVec.getLsbD_append, BitVec.getLsbD_ofBool]
  simp

/-- Bits 31 to 11 of the status word (R26, R161). -/
theorem State.statusWord_reserved (s : State) : s.statusWord.extractLsb' 11 21 = 0#21 := by
  rw [State.statusWord]
  iterate 5 rw [BitVec.extractLsb'_append_eq_of_le (by decide)]
  rfl

/-- A read of a register's address answers the register's word (R161). -/
theorem step_read_register {addr : Addr} {r : Reg} {v : Word} {s : State} (h : addr.toNat = r.address) (hv : readReg s r = some v) :
    step (before (.read addr) s) = .next (served (some v) s) :=
  step_read_good (regAt_of_address h) hv

/-! ## Writes of tables and of CMD (R162, R163) -/

/-- A write of one entry of a table keeps every other one. -/
theorem get_set_spec {α : Type} {n : Nat} (v : Vector α n) (i : Fin n) (x : α) :
    (v.set i.val x).get i = x ∧ ∀ j, j ≠ i → (v.set i.val x).get j = v.get j := by
  refine ⟨Vector.getElem_set_self i.isLt, fun j hj => ?_⟩
  exact Vector.getElem_set_ne i.isLt j.isLt (Fin.val_ne_of_ne hj.symm)

/-- A write to `CMD` of a word that decodes is `exec` of the command with the response `OKAY` (R162, R163). -/
theorem step_of_decode {w : Word} {i : Instr} (h : decode w = .ok i) (s : State) :
    step (before (.write 0x800#12 w) s) = respondOkay (exec i s) := by
  rw [step_before_cmd, State.execute, h]

/-! ## Commands from another error latch (R163, R177) -/

/-- The state `s` with another error latch (R45). -/
def State.withLatch (e : Bool) (c : Status) (s : State) : State := { s with err := e, firstErr := c }

section
variable (e : Bool) (c : Status)

theorem State.putBit_withLatch (s : State) (b : Bool) : (s.withLatch e c).putBit b = (s.putBit b).withLatch e c := by
  have hw := s.wcnt.isLt
  by_cases h : s.wcnt.val + 1 < 8
  · rw [State.putBit_lt b h, State.putBit_lt b (s := s.withLatch e c) h]
    rfl
  · have h7 : s.wcnt.val = 7 := by omega
    rw [State.putBit_full b h7, State.putBit_full b (s := s.withLatch e c) h7]
    rfl

theorem State.putBits_withLatch (s : State) (bs : List Bool) : (s.withLatch e c).putBits bs = (s.putBits bs).withLatch e c := by
  induction bs generalizing s with
  | nil => rfl
  | cons b bs ih => rw [State.putBits_cons, State.putBit_withLatch, ih, State.putBits_cons]

/-- `SrcNext` does not see the latch (R42). -/
theorem State.srcNext_withLatch (s : State) :
    (s.withLatch e c).srcNext = s.srcNext.map fun p => (p.1, p.2.withLatch e c) := by
  have hu : (s.withLatch e c).unread = s.unread := rfl
  rw [State.srcNext, hu, State.srcNext]
  cases s.unread <;> rfl

/-- `GetBit` does not see the latch (R111). -/
theorem State.getBit_withLatch (s : State) :
    (s.withLatch e c).getBit = s.getBit.map fun p => (p.1, p.2.withLatch e c) := by
  by_cases h : s.rpos.val < 8
  · rw [State.getBit_lt h, State.getBit_lt (s := s.withLatch e c) h]
    rfl
  · have h' : ¬ (s.withLatch e c).rpos.val < 8 := h
    rw [State.getBit, dif_neg h', State.getBit, dif_neg h, State.srcNext_withLatch]
    cases s.srcNext <;> rfl

/-- The end of a walk of `DECODE`, with another latch in its state. -/
def DecodeEnd.withLatch : DecodeEnd → DecodeEnd
  | .symbol y s => .symbol y (s.withLatch e c)
  | .eos s => .eos (s.withLatch e c)
  | .lost => .lost

/-- The walk of `DECODE` does not see the latch (R151). -/
theorem State.decodeFrom_withLatch (k n : Nat) (s : State) :
    (s.withLatch e c).decodeFrom k n = (s.decodeFrom k n).withLatch e c := by
  induction k generalizing n s with
  | zero => rfl
  | succ k ih =>
    have ht : (s.withLatch e c).tree = s.tree := rfl
    cases hn : s.tree.nodes[n]? with
    | none => rw [State.decodeFrom, ht, hn, State.decodeFrom, hn]; rfl
    | some nd =>
      rw [State.decodeFrom_succ (ht ▸ hn), State.decodeFrom_succ hn, State.getBit_withLatch]
      split
      · cases nd.sym <;> rfl
      · cases s.getBit with
        | none => rfl
        | some p =>
          obtain ⟨b, s1⟩ := p
          dsimp only [Option.map]
          cases (if b = true then nd.c1 else nd.c0) with
          | none => rfl
          | some m => exact ih m s1

/-- From another latch a command ends in the same state up to the latch: an error sees the latch it adds to, and nothing else reads it. -/
theorem exec_withLatch {i : Instr} {s t : State} (h : exec i s = .next t) :
    ∃ e' c', exec i (s.withLatch e c) = .next (t.withLatch e' c') := by
  have ht : (s.withLatch e c).tree = s.tree := rfl
  cases i with
  | writebit b =>
    rw [execWritebit_next h, exec, execWritebit, State.putBit_withLatch]
    exact ⟨e, c, rfl⟩
  | readbit =>
    rw [exec, execReadbit, State.getBit_withLatch]
    obtain ⟨hb, rfl⟩ | ⟨b, s1, hb, rfl⟩ := execReadbit_cases h <;> rw [hb] <;> exact ⟨e, c, rfl⟩
  | writebyte v => rw [execWritebyte_next h]; exact ⟨e, c, rfl⟩
  | readbyte =>
    rw [exec, execReadbyte, State.srcNext_withLatch]
    obtain ⟨hv, rfl⟩ | ⟨v, s1, hv, rfl⟩ := execReadbyte_cases h <;> rw [hv] <;> exact ⟨e, c, rfl⟩
  | writeint => rw [execWriteint_next h]; exact ⟨e, c, rfl⟩
  | readint =>
    obtain ⟨hu, rfl⟩ | ⟨b0, b1, b2, b3, rest, hu, rfl⟩ := execReadint_cases h
    · exact ⟨e, c, exec_readint_of_short (s := s.withLatch e c) hu⟩
    · exact ⟨e, c, exec_readint_of_four (s := s.withLatch e c) hu⟩
  | flush =>
    rw [exec, execFlush]
    obtain ⟨hw, rfl⟩ | ⟨hw, rfl⟩ := execFlush_cases h
    · exact ⟨e, c, if_pos hw⟩
    · exact ⟨e, c, if_neg hw⟩
  | build => rw [execBuild_next h]; exact ⟨e, c, rfl⟩
  | store =>
    obtain ⟨bytes, hb, rfl⟩ := execStore_cases h
    exact ⟨e, c, exec_store_of_bytes (s := s.withLatch e c) hb⟩
  | rebuild d =>
    obtain ⟨hd, rfl⟩ | ⟨hd, hp, rfl⟩ | ⟨hd, u, hp, rfl⟩ := execRebuild_cases h
    · rw [exec, execRebuild, if_pos hd, State.raise_eq, State.raise_eq]
      exact ⟨_, _, rfl⟩
    · rw [State.raise_eq]
      exact ⟨_, _, exec_rebuild_of_none (s := s.withLatch e c) hd hp⟩
    · exact ⟨e, c, exec_rebuild_of_some (s := s.withLatch e c) hd hp⟩
  | encode y =>
    obtain ⟨hy, rfl⟩ | ⟨n, bits, hy, hb, rfl⟩ := execEncode_cases h
    · rw [State.raise_eq]
      exact ⟨_, _, exec_encode_of_absent (s := s.withLatch e c) hy⟩
    · simp only [exec, execEncode, ht, hy, hb, State.putBits_withLatch]
      exact ⟨e, c, rfl⟩
  | decode =>
    obtain ⟨hr, rfl⟩ | ⟨r, hr, ⟨y, s1, hd, rfl⟩ | ⟨s1, hd, rfl⟩⟩ := execDecode_cases h
    · rw [State.raise_eq]
      exact ⟨_, _, exec_decode_of_rootless (s := s.withLatch e c) hr⟩
    · simp only [exec, execDecode, ht, hr, State.decodeFrom_withLatch, hd]
      exact ⟨e, c, rfl⟩
    · simp only [exec, execDecode, ht, hr, State.decodeFrom_withLatch, hd, DecodeEnd.withLatch, State.raise_eq]
      exact ⟨_, _, rfl⟩
  | sreset => rw [execSreset_next h]; exact ⟨false, .ok, rfl⟩

end

end Sys2Proof.Machine
end

section
namespace Sys2Proof.Proofs

open Sys2Proof.Machine Sys2Proof.Claims

/-- Settles O9: each address is that of its register, and the word of the register is its fields side by side. -/
theorem hostReadsAnswerTheRegisters : Obligations.HostReadsAnswerTheRegisters := by
  intro s
  have hwcnt := s.wcnt.isLt
  have hrpos := s.rpos.isLt
  refine ⟨fun addr h => step_read_bad h s, fun y addr h => step_read_register (r := .freq y) h rfl, fun i addr h => ?hdr,
    step_read_register (r := .wdata) rfl rfl, step_read_register (r := .res) rfl rfl, ?status, ?nleaf, ?wstate, ?rstate⟩
  case hdr => exact ⟨_, step_read_register (r := .hdr i) h rfl, extractLsb'_append_append ..⟩
  case status =>
    obtain ⟨hlast, hfirst⟩ := s.statusWord_codes
    obtain ⟨herr, hroot, hleaf⟩ := s.statusWord_flags
    exact ⟨_, step_read_register (r := .status) rfl rfl, hlast, hfirst, herr, by rw [hroot, CodeTree.hasRoot_iff],
      by rw [hleaf, CodeTree.rootLeaf_iff], s.statusWord_reserved⟩
  case nleaf =>
    exact ⟨_, step_read_register (r := .nleaf) rfl rfl, BitVec.extractLsb'_append_eq_right, BitVec.extractLsb'_append_eq_left⟩
  case wstate => exact ⟨_, step_read_register (r := .wstate) rfl rfl, bufferWord_fields (by omega) s.wbuf⟩
  case rstate => exact ⟨_, step_read_register (r := .rstate) rfl rfl, bufferWord_fields (by omega) s.rbuf⟩

/-- Settles O10: a table is written by `Vector.set`, and a write to `CMD` is O7's or raises `ILLEGAL_CMD`. -/
theorem hostWritesStoreOneWord : Obligations.HostWritesStoreOneWord := by
  intro s data
  refine ⟨fun y addr h => ⟨_, step_write_freq (regAt_freq h) data s, get_set_spec ..⟩,
    fun i addr h => ⟨_, step_write_hdr (regAt_hdr h) data s, get_set_spec ..⟩,
    step_write_wdata (regAt_of_address (r := .wdata) rfl) data s, fun addr h => step_write_bad h data s, fun i t hd hi => ?_, fun e he => ?_⟩
  · rw [step_of_decode hd, hi]
    rfl
  · exact step_of_not_decode (by simp [he]) s

/-- Settles O26: `State.withLatch` is the change of the latch, and a command commutes with it. -/
theorem executionIgnoresTheLatch : Obligations.ExecutionIgnoresTheLatch := by
  intro i s t e c h
  obtain ⟨e', c', h'⟩ := exec_withLatch e c h
  exact ⟨_, h', rfl⟩

/-- Settles O7: the three outcomes of `exec` are the three cases of `respondOkay`. -/
theorem stepRunsTheDecodedCommand : Obligations.StepRunsTheDecodedCommand := by
  intro s w i h
  rw [step_of_decode h]
  cases exec i s <;> rfl

/-- Settles O52: `SRESET` leaves `State.softReset`, every other element at its value of R47. -/
theorem softResetKeepsOnlyTheStreams : Obligations.SoftResetKeepsOnlyTheStreams := by
  refine ⟨by decide, fun s => ⟨s.softReset, rfl, fun y => ?_, fun i => ?_, rfl, rfl, rfl, rfl, rfl, CodeTree.empty_leafOf, ?_⟩⟩
  · rw [State.softReset_freq, Vector.get_replicate]
    rfl
  · rw [State.softReset_hdr, Vector.get_replicate]
    rfl
  · exact ⟨rfl, rfl, rfl, rfl, rfl, rfl, rfl, rfl, rfl, rfl, rfl, rfl, rfl⟩

end Sys2Proof.Proofs
end

section
namespace Sys2Proof.Machine

/-! ## A set error latch (R172, R177) -/

theorem State.latch_latchPart {s : State} (he : s.err = true) (c : Status) : (s.latch c).latchPart = s.latchPart := by
  simp [State.latchPart, he]

/-- A command that ends as R171 and R172 say keeps a latch that is set: the first error stays. -/
theorem State.EndsIn.latchPart {s t : State} (h : s.EndsIn t) (he : s.err = true) : t.latchPart = s.latchPart := by
  cases h with
  | quiet c same => exact same
  | error c code err firstErr => simp [State.latchPart, err, firstErr, he]

/-- `Execute(w)` keeps a set latch, whether `w` decodes or not, but for the word of `SRESET` (R160, R163). -/
theorem State.execute_latchPart {w : Word} {s t : State} (he : s.err = true) (hw : w ≠ encode .sreset) (h : s.execute w = .next t) :
    t.latchPart = s.latchPart := by
  obtain ⟨i, hd, hi⟩ | ⟨e, -, rfl⟩ := State.execute_cases h
  · have hne : i ≠ .sreset := by
      rintro rfl
      exact hw (Proofs.decodedWordIsTheEncodedCommand w _ hd).2.symm
    exact (exec_endsIn hne hi).latchPart he
  · exact (State.EndsIn.raise .illegalCmd rfl rfl (by decide)).latchPart he

/-- `CMD` stands at one address only (R62). -/
theorem eq_cmdAddr_of_regAt {addr : Addr} (h : regAt addr = some .cmd) : addr = Config.cmdAddr := by
  obtain ⟨r, ha, hr⟩ | ⟨-, hn⟩ := regAt_cases addr
  · obtain rfl := Option.some.inj (hr.symm.trans h)
    exact BitVec.eq_of_toNat_eq ha
  · simp [hn] at h

/-- A host write, good or bad, keeps a set latch, but for that of the `SRESET` word to `CMD` (R162). -/
theorem State.hostWrite_latchPart {addr : Addr} {data : Word} {s t : State} (he : s.err = true)
    (hne : addr = Config.cmdAddr → data ≠ encode .sreset) (h : s.hostWrite addr data = .next t) : t.latchPart = s.latchPart := by
  obtain ⟨y, -, rfl⟩ | ⟨i, -, rfl⟩ | ⟨-, rfl⟩ | ⟨hc, u, hu, rfl⟩ | rfl := State.hostWrite_cases h
  · rfl
  · rfl
  · rfl
  · exact State.execute_latchPart (t := u) he (hne (eq_cmdAddr_of_regAt hc)) hu
  · exact State.latch_latchPart he .badAccess

/-- A host read, good or bad, keeps a set latch (R161). -/
theorem State.hostRead_latchPart {s : State} (he : s.err = true) (addr : Addr) : (s.hostRead addr).latchPart = s.latchPart := by
  obtain ⟨v, -, hv⟩ | ⟨-, hb⟩ := State.hostRead_cases addr s
  · rw [hv]
    rfl
  · rw [hb]
    exact State.latch_latchPart he .badAccess

/-- R172, R177: every step keeps a set latch, but for a hardware reset and a write of the `SRESET` word to `CMD`. -/
theorem step_latchPart {s t : State} (he : s.err = true) (h : step s = .next t) (hreset : ∀ input rest, s.hostQ ≠ .reset input :: rest)
    (hsreset : ∀ rest, s.hostQ ≠ .write Config.cmdAddr (encode .sreset) :: rest) : t.latchPart = s.latchPart := by
  obtain ⟨-, rfl⟩ | ⟨addr, rest, -, rfl⟩ | ⟨addr, data, rest, hq, hw⟩ | ⟨input, rest, hq, -⟩ := step_cases h
  · rfl
  · exact State.hostRead_latchPart (s := { s with hostQ := rest }) he addr
  · refine State.hostWrite_latchPart (s := { s with hostQ := rest }) he ?_ hw
    rintro rfl rfl
    exact hsreset rest hq
  · exact absurd hq (hreset input rest)

/-! ## The statuses of each command (R170) -/

open Sys2Proof.Claims in
/-- Command by command, `LAST` holds one of the statuses whose row of R170 names the command. -/
theorem exec_mayEndWith {i : Instr} {s t : State} (h : exec i s = .next t) : MayEndWith t.last i := by
  cases i with
  | writebit b => rw [execWritebit_next h]; rfl
  | readbit =>
    obtain ⟨-, rfl⟩ | ⟨b, s1, -, rfl⟩ := execReadbit_cases h
    · exact .inr rfl
    · exact .inl rfl
  | writebyte v => rw [execWritebyte_next h]; rfl
  | readbyte =>
    obtain ⟨-, rfl⟩ | ⟨v, s1, -, rfl⟩ := execReadbyte_cases h
    · exact .inr rfl
    · exact .inl rfl
  | writeint => rw [execWriteint_next h]; rfl
  | readint =>
    obtain ⟨-, rfl⟩ | ⟨b0, b1, b2, b3, rest, -, rfl⟩ := execReadint_cases h
    · exact .inr rfl
    · exact .inl rfl
  | flush => obtain ⟨-, rfl⟩ | ⟨-, rfl⟩ := execFlush_cases h <;> rfl
  | build => rw [execBuild_next h]; rfl
  | store =>
    obtain ⟨bytes, -, rfl⟩ := execStore_cases h
    rfl
  | rebuild d =>
    obtain ⟨hd, rfl⟩ | ⟨hd, -, rfl⟩ | ⟨hd, u, -, rfl⟩ := execRebuild_cases h
    · rw [MayEndWith, if_neg hd.not_ge]
      rfl
    · rw [MayEndWith, if_pos hd]
      exact .inr rfl
    · rw [MayEndWith, if_pos hd]
      exact .inl rfl
  | encode y =>
    obtain ⟨-, rfl⟩ | ⟨n, bits, -, -, rfl⟩ := execEncode_cases h
    · exact .inr rfl
    · exact .inl rfl
  | decode =>
    obtain ⟨-, rfl⟩ | ⟨r, -, ⟨y, s1, -, rfl⟩ | ⟨s1, -, rfl⟩⟩ := execDecode_cases h
    · exact .inr (.inr rfl)
    · exact .inl rfl
    · exact .inr (.inl rfl)
  | sreset => rw [execSreset_next h]; rfl

end Sys2Proof.Machine

namespace Sys2Proof.Proofs

open Sys2Proof.Machine

/-- Settles O22: access by access, the latch keeps both its parts; no word but `0xFF000000` decodes to `SRESET`, and `CMD` has no other
address. -/
theorem theErrorLatchIsSticky : Obligations.TheErrorLatchIsSticky := by
  intro s t he h hreset hsreset
  obtain ⟨herr, hfirst⟩ := Prod.mk.inj (step_latchPart he h hreset hsreset)
  exact ⟨herr.trans he, hfirst⟩

/-- Settles O23: the two ways a command ends are those of `State.EndsIn`, and the status in `LAST` says which one it was. -/
theorem onlyErrorsAreLatched : Obligations.OnlyErrorsAreLatched := by
  intro i s t hi h
  cases exec_endsIn hi h with
  | quiet c same => exact ⟨fun _ => Prod.mk.inj same, fun c' => by simp [c] at c'⟩
  | error c code err firstErr => exact ⟨fun c' => by simp [c] at c', fun _ => ⟨err, firstErr⟩⟩

/-- Settles O24: command by command; the eight codes are evaluated. -/
theorem commandsEndWithTheirStatuses : Obligations.CommandsEndWithTheirStatuses :=
  ⟨fun _ _ _ => exec_mayEndWith, rfl⟩

end Sys2Proof.Proofs
end

section
namespace Sys2Proof.Machine

/-! ## Host accesses and the tree (R33, R209) -/

/-- A host read, good or bad, keeps the tree: it adds a response, and at most an error to the latch (R161). -/
@[simp] theorem State.hostRead_tree (addr : Addr) (s : State) : (s.hostRead addr).tree = s.tree := by
  obtain ⟨v, -, hv⟩ | ⟨-, hb⟩ := State.hostRead_cases addr s
  · rw [hv, State.respond_tree]
  · rw [hb, State.respond_tree, State.latch_tree]

/-- A host write, good or bad, keeps the tree, but for that of a command word to `CMD` (R162). -/
theorem State.hostWrite_tree {addr : Addr} {data : Word} {s t : State} (hne : addr ≠ Config.cmdAddr)
    (h : s.hostWrite addr data = .next t) : t.tree = s.tree := by
  obtain ⟨y, -, rfl⟩ | ⟨i, -, rfl⟩ | ⟨-, rfl⟩ | ⟨hc, -⟩ | rfl := State.hostWrite_cases h
  · exact State.respond_tree ..
  · exact State.respond_tree ..
  · exact State.respond_tree ..
  · exact absurd (eq_cmdAddr_of_regAt hc) hne
  · rw [State.respond_tree, State.latch_tree]

end Sys2Proof.Machine

namespace Sys2Proof.Proofs

open Sys2Proof.Machine Sys2Proof.Claims

/-- Settles O13: to serve a reset is `State.hardReset`, which writes every element from `State.resetWith` and takes only the record of the host
port from the state before. -/
theorem hardwareResetFromAnyState : Obligations.HardwareResetFromAnyState := by
  intro s input
  rw [step_before, State.serve, State.hardReset]
  rfl

/-- Settles O27: a read answers a register or latches `BAD_ACCESS`; a write that does not reach `CMD` stores into `FREQ`, `HDR` or `WDATA`, or
latches `BAD_ACCESS`. -/
theorem tableWritesDoNotChangeTheTree : Obligations.TableWritesDoNotChangeTheTree := by
  intro s t addr data
  rw [step_before, step_before]
  refine ⟨fun h => ?read, State.hostWrite_tree⟩
  case read =>
    obtain rfl := Host.Outcome.next.inj h
    exact State.hostRead_tree addr s

end Sys2Proof.Proofs
end
